-- ==== Sys2Proof/Word.lean ====
section
/-! DEFINITION. The word types of the UART core block and their plainest facts (spec/00_scope.md R9, R10). -/

namespace Sys2Proof

/-- A register, an address, a length, a count or an operation word: 32 bits (R9). -/
abbrev Word := BitVec 32

/-- One byte of buffer memory (R52). -/
abbrev Byte := BitVec 8

/-- A storage unit as it lies in buffer memory, zero-extended to 16 bits (R9, R72). -/
abbrev Half := BitVec 16

/-- The implemented bits of the data register, and a frame's data on the line: 9 bits (R9, R36, R48). -/
abbrev Frame := BitVec 9

/-- An index of one USART of the block: the 4-bit INST field, 0 to 15 (R8, R91). -/
abbrev InstIx := Fin 16

end Sys2Proof
end

