-- ==== Sys2Proof/Config.lean ====
section
/-! DEFINITION. What a launch fixes: the configuration record of each USART (spec/10_state.md R31), the
implementation parameters (spec/00_scope.md R8), and the values the spec leaves free. The parameters are plain
data that State carries and no step writes, so a statement over every state is a statement over every choice of
them. -/

namespace Sys2Proof

/-- Data bits per frame (R31): 8 or 9. -/
inductive WordLength where
  | eight
  | nine
  deriving DecidableEq, Repr

/-- Parity mode (R31). -/
inductive Parity where
  | none
  | even
  | odd
  deriving DecidableEq, Repr

/-- Number of stop bits (R31): 1, 0.5, 2 or 1.5. -/
inductive StopBits where
  | stop1
  | stop0_5
  | stop2
  | stop1_5
  deriving DecidableEq, Repr

/-- Oversampling ratio (R31): 8 or 16. -/
inductive Oversampling where
  | by8
  | by16
  deriving DecidableEq, Repr

/-- Which directions INIT enables (R31). -/
inductive Mode where
  | tx
  | rx
  | txRx
  deriving DecidableEq, Repr

/-- Hardware flow control (R31). -/
inductive Flow where
  | none
  | rts
  | cts
  | rtsCts
  deriving DecidableEq, Repr

/-- The configuration record CFG(u) of one USART, every field inside its set (R31). -/
structure Config where
  baud         : Nat
  wordLength   : WordLength
  parity       : Parity
  stopBits     : StopBits
  oversampling : Oversampling
  mode         : Mode
  flow         : Flow
  deriving DecidableEq, Repr

/-- A configuration record as a launch offers it, before the launch check (R271): its numeric fields can lie outside
their sets. The symbolic fields have no value outside theirs. -/
structure LaunchConfig where
  baud         : Nat
  wordLength   : Nat
  parity       : Parity
  stopBits     : StopBits
  oversampling : Nat
  mode         : Mode
  flow         : Flow
  deriving DecidableEq, Repr

/-- The two clock domains (R8, R110). -/
inductive ClockDomain where
  | zero
  | one
  deriving DecidableEq, Repr

/-- LOOPBACK(u) (R8, R227). -/
inductive Loopback where
  | off
  | register
  deriving DecidableEq, Repr

/-- DIV100_ROUNDING (R8, R112). -/
inductive Rounding where
  | nearest
  | floor
  deriving DecidableEq, Repr

/-- BRR_WIDTH (R8, R37). -/
inductive BrrWidth where
  | w16
  | w32
  deriving DecidableEq, Repr

/-- A run of buffer addresses that exist: `size` bytes from `base` on. MEM_VALID is a list of these (R8, R71). -/
structure Region where
  base : Nat
  size : Nat
  deriving DecidableEq, Repr

/-- The parameters of one USART (R8). CLOCK_HZ(u) is not here: it depends only on the domain (R8, R121). -/
structure InstParams where
  clockDomain : ClockDomain
  baseAddr    : Word
  irqRouted   : Bool
  lineFair    : Bool
  loopback    : Loopback
  deriving DecidableEq, Repr

/-- The type of CLOCK_HZ (R8, R271): an integer of at least 1, by its type. -/
abbrev ClockHz := { n : Nat // 1 ≤ n }

/-- The type of N_INST (R8): 1 to 16. -/
abbrev InstCount := { n : Nat // 1 ≤ n ∧ n ≤ 16 }

/-- The implementation parameters of R8. -/
structure Params where
  nInst          : InstCount
  perInst        : Vector InstParams 16
  clockHzZero    : ClockHz
  clockHzOne     : ClockHz
  irqFair        : Bool
  memMap         : List Region
  div100Rounding : Rounding
  brrWidth       : BrrWidth
  atomicCr1Rmw   : Bool
  deriving DecidableEq, Repr

/-- FREE VALUE (R11 `draw`, R33): the seven error and line bits of the n-th read of SR. Bits 4 to 0 are SR bits 4 to 0,
bits 5 and 6 are SR bits 8 and 9. It has no body, so nothing can depend on what it is (notes/assumptions/4.md). -/
opaque Config.srDraw : Nat → BitVec 7

/-- FREE VALUE (R52): the byte that buffer address `a` holds at launch where the launch gives none
(notes/assumptions/5.md). -/
opaque Config.launchByte : Word → Byte

end Sys2Proof
end

