-- ==== Sys2Proof/Syntax.lean ====
section
/-! DEFINITION. The operations of the block (spec/30_encoding.md R94): one constructor per row of
spec/opcode_table.json, with the operands of R92 already turned into names. -/

namespace Sys2Proof

/-- A register of one USART, by its index (R39, R91). -/
inductive RegName where
  | sr
  | dr
  | brr
  | cr1
  | cr2
  | cr3
  deriving DecidableEq, Repr

/-- A status flag, by its selector (R91). -/
inductive Flag where
  | txe
  | tc
  | rxne
  deriving DecidableEq, Repr

/-- The 19 operations. `u` is the USART the operation names (R90). -/
inductive Instr where
  /-- INIT u (R118). -/
  | init (u : InstIx)
  /-- TX_BLOCK u, buf, len (R150). -/
  | txBlock (u : InstIx) (buf len : Word)
  /-- RX_BLOCK u, buf, len (R151). -/
  | rxBlock (u : InstIx) (buf len : Word)
  /-- TX_ASYNC u, buf, len (R170). -/
  | txAsync (u : InstIx) (buf len : Word)
  /-- RX_ASYNC u, buf, len (R173). -/
  | rxAsync (u : InstIx) (buf len : Word)
  /-- SET_ENABLED u, en (R205). -/
  | setEnabled (u : InstIx) (en : Bool)
  /-- READ_FLAG u, flag (R208). -/
  | readFlag (u : InstIx) (flag : Flag)
  /-- ON_IRQ u (R193). -/
  | onIrq (u : InstIx)
  /-- REG_READ u, reg (R210). -/
  | regRead (u : InstIx) (reg : RegName)
  /-- REG_WRITE u, reg, value (R213). -/
  | regWrite (u : InstIx) (reg : RegName) (value : Word)
  /-- TX_STEP, the transmit step-callback (R172). -/
  | txStep (u : InstIx)
  /-- RX_STEP, the receive step-callback (R174). -/
  | rxStep (u : InstIx)
  /-- RMW_COMMIT, the write half of a read-modify-write of CR1 (R216). -/
  | rmwCommit (u : InstIx)
  /-- BLK_TX_UNIT (R152). -/
  | blkTxUnit (u : InstIx)
  /-- BLK_TX_FINISH (R153). -/
  | blkTxFinish (u : InstIx)
  /-- BLK_RX_UNIT (R155). -/
  | blkRxUnit (u : InstIx)
  /-- EV_TX_LOAD (R226). -/
  | evTxLoad (u : InstIx)
  /-- EV_TX_DONE (R227). -/
  | evTxDone (u : InstIx)
  /-- EV_RX_FRAME v (R228): a 9-bit frame. -/
  | evRxFrame (u : InstIx) (frame : Frame)
  deriving DecidableEq, Repr

/-- The USART an operation names (R90). -/
def Instr.inst (i : Instr) : InstIx :=
  match i with
  | .init u => u
  | .txBlock u _ _ => u
  | .rxBlock u _ _ => u
  | .txAsync u _ _ => u
  | .rxAsync u _ _ => u
  | .setEnabled u _ => u
  | .readFlag u _ => u
  | .onIrq u => u
  | .regRead u _ => u
  | .regWrite u _ _ => u
  | .txStep u => u
  | .rxStep u => u
  | .rmwCommit u => u
  | .blkTxUnit u => u
  | .blkTxFinish u => u
  | .blkRxUnit u => u
  | .evTxLoad u => u
  | .evTxDone u => u
  | .evRxFrame u _ => u

end Sys2Proof
end

