-- ==== Sys2Proof/WellFormed.lean ====
section
/-! DEFINITION. What a well-formed operation and a well-formed set of parameters are. The operand sets of R91 and R92
(registers, flags, 9-bit frames) are in the types of Syntax.lean; what is left to check is the number of USARTs, and
the ranges of R8 and R31. -/

namespace Sys2Proof

/-- An operation is well formed on a block of `nInst` USARTs iff the USART it names is in use (R91, R97). -/
def WellFormed (nInst : Nat) (i : Instr) : Bool :=
  decide (i.inst.val < nInst)

/-- The configuration record lies inside its sets (R31): `1 <= baud < 2^32`; the other fields are typed. -/
def Config.wf (c : Config) : Bool :=
  decide (1 ≤ c.baud) && decide (c.baud < 2 ^ 32)

/-- What R75 assumes of the parameters beyond their types: every BASE_ADDR(u) is a multiple of 4. -/
def Params.wf (p : Params) : Bool :=
  p.perInst.toList.all (fun q => q.baseAddr.extractLsb' 0 2 == 0#2)

/-- The launch check of one record (R31, R271): the record typed, or nothing when a field lies outside its set. -/
def LaunchConfig.check (c : LaunchConfig) : Option Config :=
  if c.baud = 0 ∨ 2 ^ 32 ≤ c.baud then none
  else
    match (if c.wordLength = 8 then some WordLength.eight else if c.wordLength = 9 then some WordLength.nine else none),
      (if c.oversampling = 8 then some Oversampling.by8 else if c.oversampling = 16 then some Oversampling.by16
        else none) with
    | some wl, some ovs => some ⟨c.baud, wl, c.parity, c.stopBits, ovs, c.mode, c.flow⟩
    | _, _ => none

end Sys2Proof
end

