-- ==== Sys2Proof/Decode.lean ====
section
/-! DEFINITION. The operation encoding of spec/30_encoding.md: the opcode map (R94), the formats and their masks (R93),
the total decoder (R95 to R97) and the encoder written from the same tables. What depends on who issues an operation
and on the state (the last two lines of R95) is in Machine/Turn.lean. -/

namespace Sys2Proof

/-- An operation word with room for its two argument words (R90). An argument word beyond those the format of R93 has
is no part of the operation. -/
structure OpWords where
  op   : Word
  arg0 : Word
  arg1 : Word
  deriving DecidableEq, Repr

/-- Why a decode refuses (R95), each with the operation word. -/
inductive DecodeError where
  /-- ILLEGAL_OPCODE (R96). -/
  | illegalOpcode (w : Word)
  /-- RESERVED_FIELD (R97). -/
  | reservedField (w : Word)
  /-- BAD_INSTANCE (R97). -/
  | badInstance (w : Word)
  /-- BAD_REGISTER (R97). -/
  | badRegister (w : Word)
  /-- BAD_FLAG (R97). -/
  | badFlag (w : Word)
  deriving DecidableEq, Repr

/-- The mnemonics of R94. -/
inductive Opcode where
  | init | txBlock | rxBlock | txAsync | rxAsync | setEnabled | readFlag | onIrq | regRead | regWrite
  | txStep | rxStep | rmwCommit | blkTxUnit | blkTxFinish | blkRxUnit
  | evTxLoad | evTxDone | evRxFrame
  deriving DecidableEq, Repr

/-- The formats of R93. -/
inductive Format where
  | c0 | cb | ce | cf | cr | cw | internal | ev | ed
  deriving DecidableEq, Repr

/-- The OPC column of R94. -/
def Opcode.code (o : Opcode) : BitVec 8 :=
  match o with
  | .init => 0x01#8
  | .txBlock => 0x02#8
  | .rxBlock => 0x03#8
  | .txAsync => 0x04#8
  | .rxAsync => 0x05#8
  | .setEnabled => 0x06#8
  | .readFlag => 0x07#8
  | .onIrq => 0x08#8
  | .regRead => 0x09#8
  | .regWrite => 0x0A#8
  | .txStep => 0x10#8
  | .rxStep => 0x11#8
  | .rmwCommit => 0x12#8
  | .blkTxUnit => 0x13#8
  | .blkTxFinish => 0x14#8
  | .blkRxUnit => 0x15#8
  | .evTxLoad => 0x20#8
  | .evTxDone => 0x21#8
  | .evRxFrame => 0x22#8

/-- The format column of R94. -/
def Opcode.format (o : Opcode) : Format :=
  match o with
  | .init => .c0
  | .txBlock => .cb
  | .rxBlock => .cb
  | .txAsync => .cb
  | .rxAsync => .cb
  | .setEnabled => .ce
  | .readFlag => .cf
  | .onIrq => .c0
  | .regRead => .cr
  | .regWrite => .cw
  | .txStep => .internal
  | .rxStep => .internal
  | .rmwCommit => .internal
  | .blkTxUnit => .internal
  | .blkTxFinish => .internal
  | .blkRxUnit => .internal
  | .evTxLoad => .ev
  | .evTxDone => .ev
  | .evRxFrame => .ed

/-- Every row of R94 that has a mnemonic. -/
def Opcode.all : List Opcode :=
  [.init, .txBlock, .rxBlock, .txAsync, .rxAsync, .setEnabled, .readFlag, .onIrq, .regRead, .regWrite,
    .txStep, .rxStep, .rmwCommit, .blkTxUnit, .blkTxFinish, .blkRxUnit, .evTxLoad, .evTxDone, .evRxFrame]

/-- The row of R94 with this code; none for an illegal opcode (R96). -/
def Opcode.ofCode? (c : BitVec 8) : Option Opcode :=
  Opcode.all.find? (fun o => o.code == c)

/-- NOT_USED_MASK of R95: the mask of R93 with bits 31:24 cleared. -/
def Format.notUsedMask (f : Format) : Word :=
  match f with
  | .c0 => 0x000FFFFF#32
  | .cb => 0x000FFFFF#32
  | .ce => 0x000FFFFE#32
  | .cf => 0x000FF0FF#32
  | .cr => 0x0000FFFF#32
  | .cw => 0x0000FFFF#32
  | .internal => 0x000FFFFF#32
  | .ev => 0x000FFFFF#32
  | .ed => 0x000FFFFF#32

/-- How many argument words a format has (R93, R100). -/
def Format.argCount (f : Format) : Nat :=
  match f with
  | .cb => 2
  | .cw => 1
  | .ed => 1
  | .c0 => 0
  | .ce => 0
  | .cf => 0
  | .cr => 0
  | .internal => 0
  | .ev => 0

/-- OPC, bits 31:24 (R91). -/
def opcField (w : Word) : BitVec 8 := w.extractLsb' 24 8

/-- INST, bits 23:20 (R91). -/
def instField (w : Word) : InstIx := (w.extractLsb' 20 4).toFin

/-- REG, bits 19:16 (R91). -/
def regField (w : Word) : BitVec 4 := w.extractLsb' 16 4

/-- FLAG, bits 11:8 (R91). -/
def flagField (w : Word) : BitVec 4 := w.extractLsb' 8 4

/-- EN, bit 0 (R91). -/
def enField (w : Word) : Bool := w.getLsbD 0

/-- The index of a register (R39). -/
def RegName.index (r : RegName) : BitVec 4 :=
  match r with
  | .sr => 0#4
  | .dr => 1#4
  | .brr => 2#4
  | .cr1 => 3#4
  | .cr2 => 4#4
  | .cr3 => 5#4

/-- The register with this index; none for 6 to 15 (R39, R97). -/
def RegName.ofIndex? (c : BitVec 4) : Option RegName :=
  [RegName.sr, .dr, .brr, .cr1, .cr2, .cr3].find? (fun r => r.index == c)

/-- The selector of a flag (R91). -/
def Flag.selector (f : Flag) : BitVec 4 :=
  match f with
  | .txe => 0#4
  | .tc => 1#4
  | .rxne => 2#4

/-- The flag with this selector; none for 3 to 15 (R97). -/
def Flag.ofSelector? (c : BitVec 4) : Option Flag :=
  [Flag.txe, .tc, .rxne].find? (fun f => f.selector == c)

/-- The operand checks that only some formats have, and the operation itself: the lines of R95 after BAD_INSTANCE. -/
def decodeOperands (o : Opcode) (ws : OpWords) : Except DecodeError Instr :=
  let u := instField ws.op
  match o with
  | .init => .ok (.init u)
  | .txBlock => .ok (.txBlock u ws.arg0 ws.arg1)
  | .rxBlock => .ok (.rxBlock u ws.arg0 ws.arg1)
  | .txAsync => .ok (.txAsync u ws.arg0 ws.arg1)
  | .rxAsync => .ok (.rxAsync u ws.arg0 ws.arg1)
  | .setEnabled => .ok (.setEnabled u (enField ws.op))
  | .readFlag =>
    match Flag.ofSelector? (flagField ws.op) with
    | none => .error (.badFlag ws.op)
    | some f => .ok (.readFlag u f)
  | .onIrq => .ok (.onIrq u)
  | .regRead =>
    match RegName.ofIndex? (regField ws.op) with
    | none => .error (.badRegister ws.op)
    | some r => .ok (.regRead u r)
  | .regWrite =>
    match RegName.ofIndex? (regField ws.op) with
    | none => .error (.badRegister ws.op)
    | some r => .ok (.regWrite u r ws.arg0)
  | .txStep => .ok (.txStep u)
  | .rxStep => .ok (.rxStep u)
  | .rmwCommit => .ok (.rmwCommit u)
  | .blkTxUnit => .ok (.blkTxUnit u)
  | .blkTxFinish => .ok (.blkTxFinish u)
  | .blkRxUnit => .ok (.blkRxUnit u)
  | .evTxLoad => .ok (.evTxLoad u)
  | .evTxDone => .ok (.evTxDone u)
  | .evRxFrame =>
    if ws.arg0.extractLsb' 9 23 = 0#23 then .ok (.evRxFrame u (ws.arg0.extractLsb' 0 9))
    else .error (.reservedField ws.op)

/-- Decode (R95), on a block of `nInst` USARTs: the checks in the order the rule lists them, the first that fails
deciding the refusal. Total on every operation word and argument words. -/
def decode (nInst : Nat) (ws : OpWords) : Except DecodeError Instr :=
  match Opcode.ofCode? (opcField ws.op) with
  | none => .error (.illegalOpcode ws.op)
  | some o =>
    if ws.op &&& o.format.notUsedMask ≠ 0#32 then .error (.reservedField ws.op)
    else if nInst ≤ (instField ws.op).val then .error (.badInstance ws.op)
    else decodeOperands o ws

/-- The row of R94 an operation belongs to. -/
def Instr.opcode (i : Instr) : Opcode :=
  match i with
  | .init _ => .init
  | .txBlock _ _ _ => .txBlock
  | .rxBlock _ _ _ => .rxBlock
  | .txAsync _ _ _ => .txAsync
  | .rxAsync _ _ _ => .rxAsync
  | .setEnabled _ _ => .setEnabled
  | .readFlag _ _ => .readFlag
  | .onIrq _ => .onIrq
  | .regRead _ _ => .regRead
  | .regWrite _ _ _ => .regWrite
  | .txStep _ => .txStep
  | .rxStep _ => .rxStep
  | .rmwCommit _ => .rmwCommit
  | .blkTxUnit _ => .blkTxUnit
  | .blkTxFinish _ => .blkTxFinish
  | .blkRxUnit _ => .blkRxUnit
  | .evTxLoad _ => .evTxLoad
  | .evTxDone _ => .evTxDone
  | .evRxFrame _ _ => .evRxFrame

/-- An operation word from its fields (R91), bits 15:12 and 7:1 zero. -/
def packOp (o : Opcode) (u : InstIx) (reg flag : BitVec 4) (en : BitVec 1) : Word :=
  o.code ++ (BitVec.ofFin u : BitVec 4) ++ reg ++ 0#4 ++ flag ++ 0#7 ++ en

/-- The words of an operation (R91 to R94). A field or an argument word that its format does not use is 0. -/
def encode (i : Instr) : OpWords :=
  match i with
  | .init u => ⟨packOp .init u 0#4 0#4 0#1, 0#32, 0#32⟩
  | .txBlock u buf len => ⟨packOp .txBlock u 0#4 0#4 0#1, buf, len⟩
  | .rxBlock u buf len => ⟨packOp .rxBlock u 0#4 0#4 0#1, buf, len⟩
  | .txAsync u buf len => ⟨packOp .txAsync u 0#4 0#4 0#1, buf, len⟩
  | .rxAsync u buf len => ⟨packOp .rxAsync u 0#4 0#4 0#1, buf, len⟩
  | .setEnabled u en => ⟨packOp .setEnabled u 0#4 0#4 (BitVec.ofBool en), 0#32, 0#32⟩
  | .readFlag u flag => ⟨packOp .readFlag u 0#4 flag.selector 0#1, 0#32, 0#32⟩
  | .onIrq u => ⟨packOp .onIrq u 0#4 0#4 0#1, 0#32, 0#32⟩
  | .regRead u reg => ⟨packOp .regRead u reg.index 0#4 0#1, 0#32, 0#32⟩
  | .regWrite u reg value => ⟨packOp .regWrite u reg.index 0#4 0#1, value, 0#32⟩
  | .txStep u => ⟨packOp .txStep u 0#4 0#4 0#1, 0#32, 0#32⟩
  | .rxStep u => ⟨packOp .rxStep u 0#4 0#4 0#1, 0#32, 0#32⟩
  | .rmwCommit u => ⟨packOp .rmwCommit u 0#4 0#4 0#1, 0#32, 0#32⟩
  | .blkTxUnit u => ⟨packOp .blkTxUnit u 0#4 0#4 0#1, 0#32, 0#32⟩
  | .blkTxFinish u => ⟨packOp .blkTxFinish u 0#4 0#4 0#1, 0#32, 0#32⟩
  | .blkRxUnit u => ⟨packOp .blkRxUnit u 0#4 0#4 0#1, 0#32, 0#32⟩
  | .evTxLoad u => ⟨packOp .evTxLoad u 0#4 0#4 0#1, 0#32, 0#32⟩
  | .evTxDone u => ⟨packOp .evTxDone u 0#4 0#4 0#1, 0#32, 0#32⟩
  | .evRxFrame u frame => ⟨packOp .evRxFrame u 0#4 0#4 0#1, (frame.setWidth 32), 0#32⟩

/-- The words of a table row's bits: bit 0 of `w` is the least significant bit of the operation word, later words count
on from it, and every bit from `nbits` on is 0. -/
def tableWords (nbits w : Nat) : OpWords :=
  let v := w % 2 ^ nbits
  { op   := BitVec.ofNat 32 v
    arg0 := BitVec.ofNat 32 (v / 2 ^ 32)
    arg1 := BitVec.ofNat 32 (v / 2 ^ 64) }

/-- What the decoder reads from a table row's bits, on a block with every USART in use. -/
def decodeTableWord (nbits w : Nat) : Option Instr :=
  match decode 16 (tableWords nbits w) with
  | .ok i => some i
  | .error _ => none

end Sys2Proof
end

