-- ==== Sys2Proof/Machine/State.lean ====
section
/-! DEFINITION. The machine's state (spec/10_state.md), the reasons it stops (spec/60_exceptions.md R242, R251), the
schedule of its agents (spec/00_scope.md R6, R7), and its one reset: the launch (spec/70_reset_and_hazards.md R270). -/

namespace Sys2Proof.Machine

/-- Buffer memory (R52): the bytes that the launch gave or a step wrote, by strictly rising address. An address that is
not listed holds its launch byte, a free value (Config.launchByte). -/
abbrev Memory := List Host.Cell

/-- Every address is at least `lo`, below 2^32, and the addresses rise strictly. -/
def Memory.risingFrom : Nat → Memory → Bool
  | _, [] => true
  | lo, (a, _) :: m => decide (lo ≤ a) && decide (a < 2 ^ 32) && Memory.risingFrom (a + 1) m

/-- The canonical form of memory: equal contents are equal lists. -/
def Memory.wf (m : Memory) : Bool := Memory.risingFrom 0 m

/-- A direction of transfer, as the info of NULL_CALLBACK (R242). -/
inductive Dir where
  | tx
  | rx
  deriving DecidableEq, Repr

/-- The fault codes of R242, each with its info. No other fault exists. A fault is a mark in State that the raising
step leaves behind, its earlier effects kept (R241). The next step then stops the machine with it. Every one is the
spec's own: safe. -/
inductive Fault where
  /-- UNWRITTEN_RDR (R243): raised by ReadDR, a read of DR of USART `u` before any frame arrived. -/
  | unwrittenRdr (u : InstIx)
  /-- BUS_FAULT (R244): raised by MemRead and MemWrite, the lowest byte of the access that does not exist. -/
  | busFault (a : Word)
  /-- NULL_CALLBACK (R245): raised by ON_IRQ and by the step-callbacks, no callback installed in that direction. -/
  | nullCallback (u : InstIx) (d : Dir)
  deriving DecidableEq, Repr

/-- The refusal reasons of R251, the ones that decode raises with the operation word (R95). A refusal is a mark in State
with no other effect of the refused command (R250). The next step then stops the machine with it. -/
inductive Refusal where
  /-- ILLEGAL_OPCODE, raised by decode (R96): safe. -/
  | illegalOpcode (w : Word)
  /-- RESERVED_FIELD, raised by decode (R97): safe. -/
  | reservedField (w : Word)
  /-- BAD_INSTANCE, raised by decode (R97): safe. -/
  | badInstance (w : Word)
  /-- BAD_REGISTER, raised by decode (R97): safe. -/
  | badRegister (w : Word)
  /-- BAD_FLAG, raised by decode (R97): safe. -/
  | badFlag (w : Word)
  /-- HOST_IRQ_WHILE_ROUTED, raised by the issuer check (R196): safe. -/
  | hostIrqWhileRouted (w : Word)
  /-- NOT_ISSUABLE, raised by the issuer check and by a host command outside IDLE (R99, R251): safe. -/
  | notIssuable (w : Word)
  /-- UNMODELLED_BIT, raised by REG_WRITE of CR1, CR2, CR3 (R213): safe. -/
  | unmodelledBit
  /-- SR_WRITE, raised by REG_WRITE of SR (R214): safe. -/
  | srWrite
  /-- ZERO_LENGTH, raised by TX_ASYNC and RX_ASYNC (R181): safe. -/
  | zeroLength
  /-- BUFFER_WRAP, raised by the four transfer requests (R88): safe. -/
  | bufferWrap
  /-- BAD_CONFIG, raised by the launch (R271): safe. -/
  | badConfig
  /-- An operation this model gives no meaning: no arm of exec raises it. Safe. -/
  | notModelled (mnemonic : String)
  deriving DecidableEq, Repr

/-- The status of a direction (R43). -/
inductive Status where
  | free
  | busy
  deriving DecidableEq, Repr

/-- The installed callback of a direction (R43, R44): none, or the direction's own step-callback (TX_STEP for the
transmit direction, RX_STEP for the receive direction). -/
inductive Callback where
  | null
  | installed
  deriving DecidableEq, Repr

/-- The transfer state of one direction (R43, R44). -/
structure DirState where
  status    : Status
  cursor    : Option Word
  remaining : Word
  callback  : Callback
  deriving DecidableEq, Repr

/-- A direction with no transfer: its reset value and its value after Complete (R59, R176). -/
def DirState.freed : DirState := ⟨.free, none, 0#32, .null⟩

/-- The phase of a polled transmit (R46). -/
inductive TxPhase where
  | units
  | waitTc
  deriving DecidableEq, Repr

/-- The state of the application context (R46). -/
inductive AppState where
  | idle
  | blkTx (u : InstIx) (cursor remaining : Word) (phase : TxPhase)
  | blkRx (u : InstIx) (cursor remaining : Word)
  | rmw (u : InstIx) (latch set clr : Word)
  deriving DecidableEq, Repr

/-- One USART of the block (R30 to R50): its configuration record, its registers, its hidden hardware state, its two
transfer machines, and what the model keeps for the observer. SR is its three modelled flags: its other bits are drawn
at each read (R33). -/
structure Inst where
  cfg     : Config
  txe     : Bool
  tc      : Bool
  rxne    : Bool
  cr1     : Word
  cr2     : Word
  cr3     : Word
  brr     : Word
  tdr     : Frame
  rdr     : Option Frame
  tcArmed : Bool
  shifter : Option Frame
  tx      : DirState
  rx      : DirState
  lineOut : List Frame
  rxLost  : Nat
  tdrLost : Nat
  deriving DecidableEq, Repr

/-- Who takes a turn (R6, R99). `host` is the application context issuing a host command, `app` the same context taking
an internal step of the polled port or of a read-modify-write. -/
inductive Agent where
  | host
  | app
  | irq
  | line (u : InstIx)
  deriving DecidableEq, Repr

/-- One entry of the schedule: an agent's turn with the words of the operation it would take, or the host writing or
reading a byte of its own buffer memory between its commands (R81). -/
inductive Turn where
  | issue (agent : Agent) (words : OpWords)
  | hostWrite (a : Word) (b : Byte)
  | hostRead (a : Word)
  deriving DecidableEq, Repr

/-- The machine's state (R30). `params` is fixed by the launch. `draws` counts the reads of SR made so far and `schedule`
holds the turns still to come: both are the model's own (notes/assumptions/2.md, 4.md). -/
structure State where
  params   : Params
  inst     : Vector Inst 16
  app      : AppState
  mem      : Memory
  results  : List Word
  fault    : Option Fault
  refused  : Option Refusal
  draws    : Nat
  schedule : List Turn
  deriving DecidableEq, Repr

/-- One USART in the reset state of R59. -/
def Inst.atReset (c : Config) : Inst :=
  { cfg     := c
    txe     := true
    tc      := true
    rxne    := false
    cr1     := 0#32
    cr2     := 0#32
    cr3     := 0#32
    brr     := 0#32
    tdr     := 0#9
    rdr     := none
    tcArmed := false
    shifter := none
    tx      := DirState.freed
    rx      := DirState.freed
    lineOut := []
    rxLost  := 0
    tdrLost := 0 }

/-- The configuration record this model takes for a launch that names none: 8N1, TX_RX, 16x, 9600 baud, no flow control
(notes/assumptions/3.md). -/
def defaultConfig : Config := ⟨9600, .eight, .none, .stop1, .by16, .txRx, .none⟩

/-- The same record as a launch offers it. -/
def defaultLaunchConfig : LaunchConfig := ⟨9600, 8, .none, .stop1, 16, .txRx, .none⟩

/-- The parameters this model takes for a launch that names none: R8's default where it gives one, and the choices of
notes/assumptions/3.md where it says OPEN. -/
def defaultParams : Params :=
  { nInst          := ⟨16, by decide⟩
    perInst        := Vector.ofFn (fun u : InstIx =>
      { clockDomain := .zero
        baseAddr    := 0x40000000#32 + 0x400#32 * BitVec.ofNat 32 u.val
        irqRouted   := true
        lineFair    := false
        loopback    := .off })
    clockHzZero    := ⟨16000000, by decide⟩
    clockHzOne     := ⟨42000000, by decide⟩
    irqFair        := true
    memMap         := [⟨0, 2 ^ 32⟩]
    div100Rounding := .nearest
    brrWidth       := .w16
    atomicCr1Rmw   := false }

/-- Some record of a USART in use fails the launch check (R271). -/
def badConfigs (p : Params) (cfgs : Vector LaunchConfig 16) : Bool :=
  decide (∃ u : InstIx, u.val < p.nInst ∧ (cfgs.get u).check = none)

/-- The launch of a run, the model's one reset (R59, R270, R271): the parameters, the configuration records, and the
buffer memory's launch content with, for the model, the schedule of the run. -/
def State.launch (p : Params) (cfgs : Vector LaunchConfig 16) (content : Memory) (turns : List Turn) : State :=
  { params   := p
    inst     := Vector.ofFn (fun u => Inst.atReset ((cfgs.get u).check.getD defaultConfig))
    app      := .idle
    mem      := content
    results  := []
    fault    := none
    refused  := if badConfigs p cfgs then some .badConfig else none
    draws    := 0
    schedule := turns }

/-- The machine right after reset: a launch with the default parameters and records, nothing placed in memory and
nothing scheduled. -/
def State.reset : State :=
  State.launch defaultParams (Vector.replicate 16 defaultLaunchConfig) [] []

end Sys2Proof.Machine
end

