-- ==== Sys2Proof/Machine/Ops.lean ====
section
/-! DEFINITION. The shared operations of the machine: one USART of the state, buffer memory (spec/20_memory.md R70 to
R74, R88), raising a fault and refusing a command (spec/60_exceptions.md R241, R250), holding (spec/00_scope.md R11),
the control bits of CR1 (spec/10_state.md R34), and the application's read-modify-write of CR1
(spec/45_control_and_register_access.md R216). -/

namespace Sys2Proof.Machine

/-- What a step answers. -/
abbrev Out := Host.Outcome State Fault Refusal

/-- A sub-operation's result: a value and the state after it, or a fault raised with the effects made before it. -/
inductive Result (α : Type) where
  | ok (a : α) (s : State)
  | raised (f : Fault) (s : State)

/-! ### One USART, and the parameters that concern it -/

/-- USART `u`. -/
def State.usart (s : State) (u : InstIx) : Inst := s.inst.get u

/-- The state with USART `u` replaced. -/
def State.setUsart (s : State) (u : InstIx) (i : Inst) : State := { s with inst := s.inst.set u i }

/-- The state with the application context in state `a` (R46). -/
def State.setApp (s : State) (a : AppState) : State := { s with app := a }

/-- The state with one more read of SR counted: the next read draws anew (R33). -/
def State.nextDraw (s : State) : State := { s with draws := s.draws + 1 }

/-- The state with these turns still to come (R7). -/
def State.setSchedule (s : State) (q : List Turn) : State := { s with schedule := q }

/-- IRQ_ROUTED(u) (R8). -/
def State.irqRouted (s : State) (u : InstIx) : Bool := (s.params.perInst.get u).irqRouted

/-- LOOPBACK(u) (R8). -/
def State.loopback (s : State) (u : InstIx) : Loopback := (s.params.perInst.get u).loopback

/-- CLOCK_HZ(u), a function of the clock domain alone (R8, R121). -/
def State.clockHz (s : State) (u : InstIx) : Nat :=
  match (s.params.perInst.get u).clockDomain with
  | .zero => s.params.clockHzZero
  | .one => s.params.clockHzOne

/-- The address of a register (R39, R75): BASE_ADDR(u) + 4 * index. -/
def State.regAddr (s : State) (u : InstIx) (r : RegName) : Word :=
  (s.params.perInst.get u).baseAddr + 4#32 * r.index.setWidth 32

/-- The status of the transmit direction, which the host may read between its commands with no side effect (R57). -/
def State.txStatus (s : State) (u : InstIx) : Status := (s.usart u).tx.status

/-- The status of the receive direction (R57). -/
def State.rxStatus (s : State) (u : InstIx) : Status := (s.usart u).rx.status

/-! ### Faults, refusals and holds -/

/-- raise Fault (R241): the mark, on top of the effects made so far. -/
def State.raise (s : State) (f : Fault) : State := { s with fault := some f }

/-- refuse Reason (R250): the mark, and no other effect. -/
def State.refuse (s : State) (r : Refusal) : State := { s with refused := some r }

/-- The end of a step whose last sub-operation gave `r`. -/
def finish (r : Result Unit) : Out :=
  match r with
  | .ok _ s => .next s
  | .raised f s => .next (s.raise f)

/-- hold (R11): the agent's step is not enabled, and the state does not change. -/
def hold (s : State) : Out := .next s

/-- A host command runs only while `app = IDLE`; outside it the command is refused with NOT_ISSUABLE (R46, R99, R251). -/
def asHost (i : Instr) (s : State) (out : Out) : Out :=
  if s.app = .idle then out else .next (s.refuse (.notIssuable (encode i).op))

/-- The refusal a decode error names (R251). -/
def refusalOf (e : DecodeError) : Refusal :=
  match e with
  | .illegalOpcode w => .illegalOpcode w
  | .reservedField w => .reservedField w
  | .badInstance w => .badInstance w
  | .badRegister w => .badRegister w
  | .badFlag w => .badFlag w

/-! ### Buffer memory -/

/-- The byte listed at address `k`. -/
def Memory.get? : Memory → Nat → Option Byte
  | [], _ => none
  | (a, b) :: m, k => if k = a then some b else Memory.get? m k

/-- Memory with the byte at address `k` written, in the canonical form. -/
def Memory.write : Memory → Nat → Byte → Memory
  | [], k, b => [(k, b)]
  | (a, c) :: m, k, b =>
    if k < a then (k, b) :: (a, c) :: m
    else if k = a then (k, b) :: m
    else (a, c) :: Memory.write m k b

/-- MEM_VALID(a) (R8, R71). -/
def memValid (s : State) (a : Word) : Bool :=
  s.params.memMap.any (fun r => decide (r.base ≤ a.toNat) && decide (a.toNat < r.base + r.size))

/-- The content of buffer memory at `a` (R52, R80): the latest write, or the launch content, which is a free value where
the launch gives none. It is no access: an access is memRead, memWrite, hostReadByte or hostWriteByte, and checks that
the byte exists (R71). -/
def State.byteAt (s : State) (a : Word) : Byte := (Memory.get? s.mem a.toNat).getD (Config.launchByte a)

/-- The state with one byte of buffer memory written. -/
def State.setByte (s : State) (a : Word) (b : Byte) : State := { s with mem := Memory.write s.mem a.toNat b }

/-- The size of one buffer access, 1 or 2 bytes (R76). -/
inductive UnitSize where
  | one
  | two
  deriving DecidableEq, Repr

/-- The size in bytes. -/
def UnitSize.bytes (n : UnitSize) : Nat :=
  match n with
  | .one => 1
  | .two => 2

/-- The size as a 32-bit number, for the cursor and count arithmetic of R137. -/
def UnitSize.word (n : UnitSize) : Word := BitVec.ofNat 32 n.bytes

/-- The first byte of an access that does not exist (R71), in the order of R72 and R73. -/
def firstMissing (s : State) (a : Word) (n : UnitSize) : Option Word :=
  if memValid s a = false then some a
  else
    match n with
    | .one => none
    | .two => if memValid s (a + 1#32) = false then some (a + 1#32) else none

/-- MemRead(a, n) (R72): little-endian, zero-extended to 16 bits. -/
def memRead (s : State) (a : Word) (n : UnitSize) : Except Fault Half :=
  match firstMissing s a n with
  | some x => .error (.busFault x)
  | none =>
    match n with
    | .one => .ok ((s.byteAt a).setWidth 16)
    | .two => .ok (s.byteAt (a + 1#32) ++ s.byteAt a)

/-- MemWrite(a, n, v) (R73): little-endian; every byte is checked before any is written. -/
def memWrite (s : State) (a : Word) (n : UnitSize) (v : Half) : Result Unit :=
  match firstMissing s a n with
  | some x => .raised (.busFault x) s
  | none =>
    match n with
    | .one => .ok () (s.setByte a (v.extractLsb' 0 8))
    | .two => .ok () ((s.setByte a (v.extractLsb' 0 8)).setByte (a + 1#32) (v.extractLsb' 8 8))

/-- The byte range of a transfer request wraps past the top of the address space (R88). -/
def bufferWraps (buf len : Word) : Bool := decide (1 ≤ len.toNat ∧ 2 ^ 32 < buf.toNat + len.toNat)

/-- The host's own write of one byte of buffer memory, allowed while `app = IDLE` (R81). It checks the byte as every
access does (R71). -/
def hostWriteByte (s : State) (a : Word) (b : Byte) : Out :=
  if s.app = .idle then finish (memWrite s a .one (b.setWidth 16)) else hold s

/-- The host's own read of one byte of buffer memory, allowed while `app = IDLE` (R81). It checks the byte as every access
does (R71) and changes nothing: the value read is MemRead's (R72), and no result is logged for it (R49). -/
def hostReadByte (s : State) (a : Word) : Out :=
  if s.app = .idle then
    match memRead s a .one with
    | .error f => .next (s.raise f)
    | .ok _ => .next s
  else hold s

/-! ### The control bits of CR1 (R34) -/

/-- UE, bit 13. -/
def bitUE : Word := 0x00002000#32
/-- TXEIE, bit 7. -/
def bitTXEIE : Word := 0x00000080#32
/-- RXNEIE, bit 5. -/
def bitRXNEIE : Word := 0x00000020#32

/-- UE (R34). -/
def Inst.ue (i : Inst) : Bool := i.cr1.getLsbD 13
/-- M (R34). -/
def Inst.m (i : Inst) : Bool := i.cr1.getLsbD 12
/-- TXEIE (R34). -/
def Inst.txeie (i : Inst) : Bool := i.cr1.getLsbD 7
/-- RXNEIE (R34). -/
def Inst.rxneie (i : Inst) : Bool := i.cr1.getLsbD 5
/-- TE (R34). -/
def Inst.te (i : Inst) : Bool := i.cr1.getLsbD 3
/-- RE (R34). -/
def Inst.re (i : Inst) : Bool := i.cr1.getLsbD 2

/-- CR1_MODELLED (R34). -/
def cr1Modelled : Word := 0x0000B6AC#32
/-- CR2_MODELLED (R35). -/
def cr2Modelled : Word := 0x00003000#32
/-- CR3_MODELLED (R38). -/
def cr3Modelled : Word := 0x00000300#32

/-- A value as BRR keeps it (R37, R117, R215): modulo 2^BRR_WIDTH. -/
def brrStored (p : Params) (v : Nat) : Word :=
  match p.brrWidth with
  | .w16 => BitVec.ofNat 32 (v % 2 ^ 16)
  | .w32 => BitVec.ofNat 32 (v % 2 ^ 32)

/-- The value a read-modify-write of CR1 writes back (R216). -/
def rmwValue (latch set clr : Word) : Word := (latch ||| set) &&& ~~~clr

/-- RMW(u, set, clr) (R216): one step when ATOMIC_CR1_RMW, and otherwise the read half, which latches CR1 in `app`. -/
def rmwCr1 (s : State) (u : InstIx) (set clr : Word) : State :=
  if s.params.atomicCr1Rmw then
    s.setUsart u { s.usart u with cr1 := rmwValue (s.usart u).cr1 set clr }
  else s.setApp (.rmw u (s.usart u).cr1 set clr)

/-- emit Result(v) (R11, R49). -/
def State.emit (s : State) (v : Word) : State := { s with results := s.results ++ [v] }

end Sys2Proof.Machine
end

