-- ==== Sys2Proof/Machine/Flags.lean ====
section
/-! DEFINITION. The status flags (spec/10_state.md R32, R41, R55): the three register accesses with side effects on them
(spec/46_line_side.md R229 to R231), reception (R228), the frame mask (R233) and the IRQ line
(spec/44_interrupt_demultiplexer.md R190). -/

namespace Sys2Proof.Machine

/-- What a read of SR returns (R230). -/
structure SrView where
  txe  : Bool
  tc   : Bool
  rxne : Bool
  word : Word
  deriving DecidableEq, Repr

/-- The word of a read of SR (R32, R211): bits 31:10 zero, bits 9 and 8 drawn, TXE, TC and RXNE at 7, 6 and 5, bits 4:0
drawn. -/
def srWord (txe tc rxne : Bool) (d : BitVec 7) : Word :=
  0#22 ++ d.extractLsb' 5 2 ++ BitVec.ofBool txe ++ BitVec.ofBool tc ++ BitVec.ofBool rxne ++ d.extractLsb' 0 5

/-- What the next read of SR returns (R230). -/
def srView (s : State) (u : InstIx) : SrView :=
  let i := s.usart u
  ⟨i.txe, i.tc, i.rxne, srWord i.txe i.tc i.rxne (Config.srDraw s.draws)⟩

/-- The state after a read of SR (R41, R230): `tc_armed` set if TC = 1; the next read draws anew. -/
def afterReadSR (s : State) (u : InstIx) : State :=
  let i := s.usart u
  (s.setUsart u { i with tcArmed := i.tcArmed || i.tc }).nextDraw

/-- One USART after a write of its data register (R229). -/
def Inst.writeDR (i : Inst) (x : Frame) : Inst :=
  { i with
    tdrLost := if i.txe then i.tdrLost else i.tdrLost + 1
    tdr     := x
    txe     := false
    tc      := i.tc && !i.tcArmed
    tcArmed := false }

/-- WriteDR(u, x) (R229). -/
def writeDR (s : State) (u : InstIx) (x : Frame) : State := s.setUsart u ((s.usart u).writeDR x)

/-- ReadDR(u) (R231): RDR, which keeps its value, and RXNE cleared; UNWRITTEN_RDR while no frame has arrived. -/
def readDR (s : State) (u : InstIx) : Result Frame :=
  match (s.usart u).rdr with
  | none => .raised (.unwrittenRdr u) s
  | some d => .ok d (s.setUsart u { s.usart u with rxne := false })

/-- FRAME_MASK(u) (R233): it follows CR1.M, not the configuration record. -/
def Inst.frameMask (i : Inst) : Frame := if i.m then 0x1FF#9 else 0x0FF#9

/-- One USART after a frame arrives (Receive, R228): kept while RXNE = 0, dropped and counted otherwise. -/
def Inst.receive (i : Inst) (v : Frame) : Inst :=
  if i.rxne then { i with rxLost := i.rxLost + 1 }
  else { i with rdr := some (v &&& i.frameMask), rxne := true }

/-- The IRQ line of one USART (R56, R190): level-sensitive, two sources. -/
def Inst.irq (i : Inst) : Bool := (i.txe && i.txeie) || (i.rxne && i.rxneie)

/-- irq(u) (R190). -/
def irqLine (s : State) (u : InstIx) : Bool := (s.usart u).irq

end Sys2Proof.Machine
end

