-- ==== Sys2Proof/Machine/Operands.lean ====
section
/-! DEFINITION. The word-format selector and the two helpers that move one unit between buffer memory and the data
register (spec/41_word_format_selector.md R130 to R137). -/

namespace Sys2Proof.Machine

/-- The selector's answer (R130). -/
structure WordFormat where
  unitBytes : UnitSize
  wmask     : Half
  rmask     : Half
  deriving DecidableEq, Repr

/-- SELECT(word_length, parity) (R130). The (8, NONE) read mask 0x7F is the source's and is kept (R133). -/
def wordFormat (wl : WordLength) (p : Parity) : WordFormat :=
  match wl, p with
  | .nine, .none => ⟨.two, 0x1FF#16, 0x1FF#16⟩
  | .nine, .even => ⟨.one, 0x0FF#16, 0x0FF#16⟩
  | .nine, .odd => ⟨.one, 0x0FF#16, 0x0FF#16⟩
  | .eight, .none => ⟨.one, 0x0FF#16, 0x07F#16⟩
  | .eight, .even => ⟨.one, 0x0FF#16, 0x0FF#16⟩
  | .eight, .odd => ⟨.one, 0x0FF#16, 0x0FF#16⟩

/-- The format of a USART, from its configuration record and never from CR1 (R130, R140). -/
def Inst.format (i : Inst) : WordFormat := wordFormat i.cfg.wordLength i.cfg.parity

/-- min(unit_bytes, remaining) for `remaining >= 1` (R134 to R136): the final partial unit is one byte. -/
def unitSize (ub : UnitSize) (remaining : Word) : UnitSize :=
  match ub with
  | .one => .one
  | .two => if remaining = 1#32 then .one else .two

/-- The size of the next unit of USART `i` with `remaining` bytes to go. -/
def Inst.nextSize (i : Inst) (remaining : Word) : UnitSize := unitSize i.format.unitBytes remaining

/-- The frame a raw unit is sent as: masked by `wmask` and cut to the 9 bits of TDR (R132, R134). -/
def Inst.sentFrame (i : Inst) (raw : Half) : Frame := (raw &&& i.format.wmask).setWidth 9

/-- The unit a received frame is stored as: masked by `rmask` (R133, R135). -/
def Inst.storedUnit (i : Inst) (d : Frame) : Half := d.setWidth 16 &&& i.format.rmask

/-- FetchUnit(u, cursor, remaining) (R134): the frame to send and the unit's size. -/
def fetchUnit (s : State) (u : InstIx) (cursor remaining : Word) : Except Fault (Frame × UnitSize) :=
  let n := (s.usart u).nextSize remaining
  match memRead s cursor n with
  | .error f => .error f
  | .ok raw => .ok ((s.usart u).sentFrame raw, n)

/-- StoreUnit(u, cursor, remaining, d) (R135): the unit stored, and its size. -/
def storeUnit (s : State) (u : InstIx) (cursor remaining : Word) (d : Frame) : Result UnitSize :=
  let n := (s.usart u).nextSize remaining
  match memWrite s cursor n ((s.usart u).storedUnit d) with
  | .raised f s' => .raised f s'
  | .ok _ s' => .ok n s'

/-- The bytes still to move and where: the `some c <- cursor ; r <- remaining` of R172 and R174, with their r >= 1. None
when there is no unit to move. -/
def DirState.pending (d : DirState) : Option (Word × Word) :=
  match d.cursor with
  | none => none
  | some c => if d.remaining = 0#32 then none else some (c, d.remaining)

/-- A direction after a unit of size `n` (R137): the cursor forward, the count down. -/
def DirState.advance (d : DirState) (c : Word) (n : UnitSize) : DirState :=
  { d with cursor := some (c + n.word), remaining := d.remaining - n.word }

end Sys2Proof.Machine
end

