-- ==== Sys2Proof/Machine/Baud.lean ====
section
/-! DEFINITION. The baud-rate generator and INIT (spec/40_baud_rate_generator.md R110 to R124). -/

namespace Sys2Proof.Machine

/-- The oversampling factor k (R111). -/
def oversamplingFactor (o : Oversampling) : Nat :=
  match o with
  | .by8 => 8
  | .by16 => 16

/-- DIV100 (R112): the divisor scaled by 100, exact, rounded half up or down. -/
def div100 (mode : Rounding) (clock baud k : Nat) : Nat :=
  match mode with
  | .nearest => (200 * clock + k * baud) / (2 * k * baud)
  | .floor => (100 * clock) / (k * baud)

/-- The mantissa (R113). -/
def mantissaOf (d : Nat) : Nat := d / 100

/-- The two-digit fraction (R114). -/
def fraction100Of (d : Nat) : Nat := d - mantissaOf d * 100

/-- The fraction in eighths or sixteenths, before masking (R115). -/
def fractionRaw (f100 k : Nat) : Nat := (f100 * k + 50) / 100

/-- The fraction masked to its field, a carry lost (R116): AND 0x7 for k = 8, AND 0xF for k = 16. -/
def fractionOf (f100 k : Nat) : Nat := fractionRaw f100 k &&& (k - 1)

/-- BRR_VALUE(clock, baud, ovs) (R117), an unbounded number: `(mantissa << 4) OR fraction`. -/
def brrValue (mode : Rounding) (clock baud : Nat) (o : Oversampling) : Nat :=
  let k := oversamplingFactor o
  let d := div100 mode clock baud k
  (mantissaOf d <<< 4) ||| fractionOf (fraction100Of d) k

/-- `b` as a mask bit. -/
def maskIf (b : Bool) (mask : Word) : Word := if b then mask else 0#32

/-- CR1_INIT(c) (R119). -/
def cr1Init (c : Config) : Word :=
  maskIf (c.mode == .tx || c.mode == .txRx) 0x00000008#32
    ||| maskIf (c.mode == .rx || c.mode == .txRx) 0x00000004#32
    ||| maskIf (c.wordLength == .nine) 0x00001000#32
    ||| maskIf (c.parity != .none) 0x00000400#32
    ||| maskIf (c.parity == .odd) 0x00000200#32
    ||| maskIf (c.oversampling == .by8) 0x00008000#32

/-- STOP_CODE (R120). -/
def stopCode (b : StopBits) : Word :=
  match b with
  | .stop1 => 0#32
  | .stop0_5 => 1#32
  | .stop2 => 2#32
  | .stop1_5 => 3#32

/-- CR2_INIT(c) (R120). -/
def cr2Init (c : Config) : Word := stopCode c.stopBits <<< 12

/-- CR3_INIT(c) (R120). -/
def cr3Init (c : Config) : Word :=
  maskIf (c.flow == .cts || c.flow == .rtsCts) 0x00000200#32
    ||| maskIf (c.flow == .rts || c.flow == .rtsCts) 0x00000100#32

/-- INIT u (R118): four whole-word writes, from the configuration record and CLOCK_HZ(u) alone. -/
def execInit (u : InstIx) (s : State) : Out :=
  asHost (.init u) s
    (let i := s.usart u
     .next (s.setUsart u
      { i with
        cr1 := cr1Init i.cfg
        cr2 := cr2Init i.cfg
        cr3 := cr3Init i.cfg
        brr := brrStored s.params (brrValue s.params.div100Rounding (s.clockHz u) i.cfg.baud i.cfg.oversampling) }))

end Sys2Proof.Machine
end

