-- ==== Sys2Proof/Machine/Blocking.lean ====
section
/-! DEFINITION. The polled transfer port (spec/42_blocking_transfer.md R150 to R160). A poll that finds its flag clear
holds (R154). -/

namespace Sys2Proof.Machine

/-- TX_BLOCK u, buf, len (R150). -/
def execTxBlock (u : InstIx) (buf len : Word) (s : State) : Out :=
  asHost (.txBlock u buf len) s
    (if bufferWraps buf len then .next (s.refuse .bufferWrap)
     else if len = 0#32 then .next (s.setApp (.blkTx u buf 0#32 .waitTc))
     else .next (s.setApp (.blkTx u buf len .units)))

/-- RX_BLOCK u, buf, len (R151). -/
def execRxBlock (u : InstIx) (buf len : Word) (s : State) : Out :=
  asHost (.rxBlock u buf len) s
    (if bufferWraps buf len then .next (s.refuse .bufferWrap)
     else if len = 0#32 then .next s
     else .next (s.setApp (.blkRx u buf len)))

/-- The polled transmit of USART `u` has a unit to send and TXE = 1: the cursor and count of the unit (R152). -/
def blkTxUnitEnabled (s : State) (u : InstIx) : Option (Word × Word) :=
  match s.app with
  | .blkTx v c r .units => if v = u ∧ r ≠ 0#32 ∧ (s.usart u).txe = true then some (c, r) else none
  | .blkTx _ _ _ .waitTc => none
  | .idle => none
  | .blkRx _ _ _ => none
  | .rmw _ _ _ _ => none

/-- BLK_TX_UNIT (R152). -/
def execBlkTxUnit (u : InstIx) (s : State) : Out :=
  match blkTxUnitEnabled s u with
  | none => hold s
  | some (c, r) =>
    let s1 := afterReadSR s u
    match fetchUnit s1 u c r with
    | .error f => .next (s1.raise f)
    | .ok (v, n) =>
      let r' := r - n.word
      .next ((writeDR s1 u v).setApp (.blkTx u (c + n.word) r' (if r' = 0#32 then .waitTc else .units)))

/-- The polled transmit of USART `u` waits for the end and TC = 1 (R153). -/
def blkTxFinishEnabled (s : State) (u : InstIx) : Bool :=
  match s.app with
  | .blkTx v _ r .waitTc => decide (v = u) && decide (r = 0#32) && (s.usart u).tc
  | .blkTx _ _ _ .units => false
  | .idle => false
  | .blkRx _ _ _ => false
  | .rmw _ _ _ _ => false

/-- BLK_TX_FINISH (R153). -/
def execBlkTxFinish (u : InstIx) (s : State) : Out :=
  if blkTxFinishEnabled s u then .next ((afterReadSR s u).setApp .idle) else hold s

/-- The polled receive of USART `u` has a unit to take and RXNE = 1: the cursor and count of the unit (R155). -/
def blkRxUnitEnabled (s : State) (u : InstIx) : Option (Word × Word) :=
  match s.app with
  | .blkRx v c r => if v = u ∧ r ≠ 0#32 ∧ (s.usart u).rxne = true then some (c, r) else none
  | .idle => none
  | .blkTx _ _ _ _ => none
  | .rmw _ _ _ _ => none

/-- BLK_RX_UNIT (R155): a fault of the store comes after RDR was read. -/
def execBlkRxUnit (u : InstIx) (s : State) : Out :=
  match blkRxUnitEnabled s u with
  | none => hold s
  | some (c, r) =>
    match readDR (afterReadSR s u) u with
    | .raised f s1 => .next (s1.raise f)
    | .ok d s1 =>
      match storeUnit s1 u c r d with
      | .raised f s2 => .next (s2.raise f)
      | .ok n s2 =>
        let r' := r - n.word
        .next (s2.setApp (if r' = 0#32 then .idle else .blkRx u (c + n.word) r'))

end Sys2Proof.Machine
end

