-- ==== Sys2Proof/Machine/Control.lean ====
section
/-! DEFINITION. Peripheral enable, flag read, register access and the write half of the read-modify-write of CR1
(spec/45_control_and_register_access.md R205 to R217). -/

namespace Sys2Proof.Machine

/-- SET_ENABLED u, en (R205). -/
def execSetEnabled (u : InstIx) (en : Bool) (s : State) : Out :=
  asHost (.setEnabled u en) s
    (match en with
     | true => .next (rmwCr1 s u bitUE 0#32)
     | false => .next (rmwCr1 s u 0#32 bitUE))

/-- The flag of a view of SR (R208, R209). -/
def SrView.flag (v : SrView) (f : Flag) : Bool :=
  match f with
  | .txe => v.txe
  | .tc => v.tc
  | .rxne => v.rxne

/-- READ_FLAG u, flag (R208): 1 for set, 0 for reset. -/
def execReadFlag (u : InstIx) (flag : Flag) (s : State) : Out :=
  asHost (.readFlag u flag) s
    (.next ((afterReadSR s u).emit (if (srView s u).flag flag then 1#32 else 0#32)))

/-- REG_READ u, reg (R210 to R212). -/
def execRegRead (u : InstIx) (reg : RegName) (s : State) : Out :=
  asHost (.regRead u reg) s
    (match reg with
     | .sr => .next ((afterReadSR s u).emit (srView s u).word)
     | .dr =>
       match readDR s u with
       | .raised f s1 => .next (s1.raise f)
       | .ok d s1 => .next (s1.emit (d.setWidth 32))
     | .brr => .next (s.emit (s.usart u).brr)
     | .cr1 => .next (s.emit (s.usart u).cr1)
     | .cr2 => .next (s.emit (s.usart u).cr2)
     | .cr3 => .next (s.emit (s.usart u).cr3))

/-- REG_WRITE u, reg, value (R213 to R215). -/
def execRegWrite (u : InstIx) (reg : RegName) (value : Word) (s : State) : Out :=
  asHost (.regWrite u reg value) s
    (match reg with
     | .sr => .next (s.refuse .srWrite)
     | .dr => .next (writeDR s u (value.extractLsb' 0 9))
     | .brr => .next (s.setUsart u { s.usart u with brr := brrStored s.params value.toNat })
     | .cr1 =>
       if value &&& ~~~cr1Modelled ≠ 0#32 then .next (s.refuse .unmodelledBit)
       else .next (s.setUsart u { s.usart u with cr1 := value })
     | .cr2 =>
       if value &&& ~~~cr2Modelled ≠ 0#32 then .next (s.refuse .unmodelledBit)
       else .next (s.setUsart u { s.usart u with cr2 := value })
     | .cr3 =>
       if value &&& ~~~cr3Modelled ≠ 0#32 then .next (s.refuse .unmodelledBit)
       else .next (s.setUsart u { s.usart u with cr3 := value }))

/-- RMW_COMMIT (R216): the write half, from the latched word whatever CR1 holds by now (R282). It is enabled only in the
RMW state of the USART it names. -/
def execRmwCommit (u : InstIx) (s : State) : Out :=
  match s.app with
  | .rmw v latch set clr =>
    if v = u then .next ((s.setUsart u { s.usart u with cr1 := rmwValue latch set clr }).setApp .idle) else hold s
  | .idle => hold s
  | .blkTx _ _ _ _ => hold s
  | .blkRx _ _ _ => hold s

end Sys2Proof.Machine
end

