-- ==== Sys2Proof/Machine/Async.lean ====
section
/-! DEFINITION. The interrupt-driven transfer machines (spec/43_async_state_machine.md R170 to R182). -/

namespace Sys2Proof.Machine

/-- A direction that has accepted a request (R170, R173). -/
def DirState.accepted (buf len : Word) : DirState := ⟨.busy, some buf, len, .installed⟩

/-- TX_ASYNC u, buf, len (R170, R171, R181): the BUSY check comes first. -/
def execTxAsync (u : InstIx) (buf len : Word) (s : State) : Out :=
  asHost (.txAsync u buf len) s
    (if (s.usart u).tx.status = .busy then .next s
     else if len = 0#32 then .next (s.refuse .zeroLength)
     else if bufferWraps buf len then .next (s.refuse .bufferWrap)
     else .next (rmwCr1 (s.setUsart u { s.usart u with tx := DirState.accepted buf len }) u bitTXEIE 0#32))

/-- RX_ASYNC u, buf, len (R173, R171, R181). -/
def execRxAsync (u : InstIx) (buf len : Word) (s : State) : Out :=
  asHost (.rxAsync u buf len) s
    (if (s.usart u).rx.status = .busy then .next s
     else if len = 0#32 then .next (s.refuse .zeroLength)
     else if bufferWraps buf len then .next (s.refuse .bufferWrap)
     else .next (rmwCr1 (s.setUsart u { s.usart u with rx := DirState.accepted buf len }) u bitRXNEIE 0#32))

/-- The transmit direction after its unit of size `n` at cursor `c` (R172), with Complete(u, TX) (R176) when that was the
last: TXEIE cleared and the direction FREE. -/
def Inst.txMoved (i : Inst) (c : Word) (n : UnitSize) : Inst :=
  if (i.tx.advance c n).remaining = 0#32 then { i with cr1 := i.cr1 &&& ~~~bitTXEIE, tx := DirState.freed }
  else { i with tx := i.tx.advance c n }

/-- The receive direction after its unit (R174), with Complete(u, RX) (R176) when that was the last. -/
def Inst.rxMoved (i : Inst) (c : Word) (n : UnitSize) : Inst :=
  if (i.rx.advance c n).remaining = 0#32 then { i with cr1 := i.cr1 &&& ~~~bitRXNEIE, rx := DirState.freed }
  else { i with rx := i.rx.advance c n }

/-- The transmit step-callback (R172), with the null-callback check of its caller (R191, R197). With nothing to move it
is not enabled (notes/assumptions/8.md). -/
def txCallback (s : State) (u : InstIx) : Result Unit :=
  match (s.usart u).tx.callback with
  | .null => .raised (.nullCallback u .tx) s
  | .installed =>
    match (s.usart u).tx.pending with
    | none => .ok () s
    | some (c, r) =>
      match fetchUnit s u c r with
      | .error f => .raised f s
      | .ok (v, n) =>
        let s1 := writeDR s u v
        .ok () (s1.setUsart u ((s1.usart u).txMoved c n))

/-- The receive step-callback (R174), with the null-callback check of its caller (R192, R197). -/
def rxCallback (s : State) (u : InstIx) : Result Unit :=
  match (s.usart u).rx.callback with
  | .null => .raised (.nullCallback u .rx) s
  | .installed =>
    match (s.usart u).rx.pending with
    | none => .ok () s
    | some (c, r) =>
      match readDR s u with
      | .raised f s1 => .raised f s1
      | .ok d s1 =>
        match storeUnit s1 u c r d with
        | .raised f s2 => .raised f s2
        | .ok n s2 => .ok () (s2.setUsart u ((s2.usart u).rxMoved c n))

/-- TX_STEP u (R172). -/
def execTxStep (u : InstIx) (s : State) : Out := finish (txCallback s u)

/-- RX_STEP u (R174). -/
def execRxStep (u : InstIx) (s : State) : Out := finish (rxCallback s u)

end Sys2Proof.Machine
end

