-- ==== Sys2Proof/Machine/Irq.lean ====
section
/-! DEFINITION. The interrupt demultiplexer (spec/44_interrupt_demultiplexer.md R190 to R201). Entry saves nothing and
return restores nothing: the handler writes no part of the application context (spec/60_exceptions.md R255, R256). -/

namespace Sys2Proof.Machine

/-- The transmit phase (R191). -/
def irqTxPhase (s : State) (u : InstIx) : Result Unit :=
  let v := srView s u
  let s1 := afterReadSR s u
  if v.txe && (s1.usart u).txeie then txCallback s1 u else .ok () s1

/-- The receive phase (R192), on a fresh read of SR. -/
def irqRxPhase (s : State) (u : InstIx) : Result Unit :=
  let v := srView s u
  let s1 := afterReadSR s u
  if v.rxne && (s1.usart u).rxneie then rxCallback s1 u else .ok () s1

/-- One pass of the handler (R193): the transmit phase, then the receive phase unless the first one faulted. -/
def serviceIrq (s : State) (u : InstIx) : Result Unit :=
  match irqTxPhase s u with
  | .raised f s1 => .raised f s1
  | .ok _ s1 => irqRxPhase s1 u

/-- ON_IRQ u (R193, R194, R196). While the line is routed it is the IRQ agent's step, enabled iff the line is high; while
it is not routed it is a host command. -/
def execOnIrq (u : InstIx) (s : State) : Out :=
  if s.irqRouted u then
    if irqLine s u then finish (serviceIrq s u) else hold s
  else asHost (.onIrq u) s (finish (serviceIrq s u))

end Sys2Proof.Machine
end

