-- ==== Sys2Proof/Machine/Line.lean ====
section
/-! DEFINITION. The line side (spec/46_line_side.md R225 to R235): the three steps of LINE(u) and when each is enabled. -/

namespace Sys2Proof.Machine

/-- EV_TX_LOAD is enabled (R225, R226). -/
def Inst.txLoadEnabled (i : Inst) : Bool := i.ue && i.te && !i.txe && i.shifter.isNone

/-- EV_TX_DONE is enabled (R225, R227). -/
def Inst.txDoneEnabled (i : Inst) : Bool := i.ue && i.te && i.shifter.isSome

/-- EV_RX_FRAME is enabled (R225, R228): in any flag state. -/
def rxFrameEnabled (s : State) (u : InstIx) : Bool :=
  (s.usart u).ue && (s.usart u).re && (s.loopback u == .off)

/-- EV_TX_LOAD (R226): TDR keeps its value. -/
def execEvTxLoad (u : InstIx) (s : State) : Out :=
  let i := s.usart u
  if i.txLoadEnabled then .next (s.setUsart u { i with shifter := some (i.tdr &&& i.frameMask), txe := true })
  else hold s

/-- One USART after it finished sending frame `v` (R227): TC rises, and its clearing sequence starts again, only if no
unit waits in TDR. -/
def Inst.sent (i : Inst) (v : Frame) : Inst :=
  { i with
    lineOut := i.lineOut ++ [v]
    shifter := none
    tc      := i.tc || i.txe
    tcArmed := i.tcArmed && !i.txe }

/-- EV_TX_DONE (R227): under LOOPBACK = REGISTER and RE = 1 the frame also arrives at the own receiver. -/
def execEvTxDone (u : InstIx) (s : State) : Out :=
  let i := s.usart u
  if i.ue && i.te then
    match i.shifter with
    | none => hold s
    | some v =>
      if s.loopback u = .register ∧ i.re = true then .next (s.setUsart u ((i.sent v).receive v))
      else .next (s.setUsart u (i.sent v))
  else hold s

/-- EV_RX_FRAME v (R228). -/
def execEvRxFrame (u : InstIx) (frame : Frame) (s : State) : Out :=
  if rxFrameEnabled s u then .next (s.setUsart u ((s.usart u).receive frame)) else hold s

end Sys2Proof.Machine
end

