-- ==== Sys2Proof/Machine/Dispatch.lean ====
section
/-! DEFINITION. One meaning per operation: exec's arms, one per constructor of Instr. -/

namespace Sys2Proof.Machine

def exec (i : Instr) (s : State) : Host.Outcome State Fault Refusal :=
  match i with
  | .init u => Sys2Proof.Machine.execInit u s
  | .txBlock u buf len => Sys2Proof.Machine.execTxBlock u buf len s
  | .rxBlock u buf len => Sys2Proof.Machine.execRxBlock u buf len s
  | .txAsync u buf len => Sys2Proof.Machine.execTxAsync u buf len s
  | .rxAsync u buf len => Sys2Proof.Machine.execRxAsync u buf len s
  | .setEnabled u en => Sys2Proof.Machine.execSetEnabled u en s
  | .readFlag u flag => Sys2Proof.Machine.execReadFlag u flag s
  | .onIrq u => Sys2Proof.Machine.execOnIrq u s
  | .regRead u reg => Sys2Proof.Machine.execRegRead u reg s
  | .regWrite u reg value => Sys2Proof.Machine.execRegWrite u reg value s
  | .txStep u => Sys2Proof.Machine.execTxStep u s
  | .rxStep u => Sys2Proof.Machine.execRxStep u s
  | .rmwCommit u => Sys2Proof.Machine.execRmwCommit u s
  | .blkTxUnit u => Sys2Proof.Machine.execBlkTxUnit u s
  | .blkTxFinish u => Sys2Proof.Machine.execBlkTxFinish u s
  | .blkRxUnit u => Sys2Proof.Machine.execBlkRxUnit u s
  | .evTxLoad u => Sys2Proof.Machine.execEvTxLoad u s
  | .evTxDone u => Sys2Proof.Machine.execEvTxDone u s
  | .evRxFrame u frame => Sys2Proof.Machine.execEvRxFrame u frame s

end Sys2Proof.Machine
end

