-- ==== Sys2Proof/Machine/Turn.lean ====
section
/-! DEFINITION. Who may take which operation (spec/30_encoding.md R95's last two checks, R98, R99), and what a turn of
the schedule comes to. -/

namespace Sys2Proof.Machine

/-- What one turn comes to, before the operation runs. -/
inductive Verdict where
  /-- The operation runs. -/
  | run (i : Instr)
  /-- The agent's step is not enabled (R11 `hold`). -/
  | wait
  /-- The command is refused (R250). -/
  | reject (r : Refusal)
  deriving DecidableEq, Repr

/-- The issuer column of R94 and R99. TX_STEP and RX_STEP are sub-operations of ON_IRQ and steps of no agent (R98). -/
def mayIssue (a : Agent) (i : Instr) : Bool :=
  match i with
  | .init _ => a == .host
  | .txBlock _ _ _ => a == .host
  | .rxBlock _ _ _ => a == .host
  | .txAsync _ _ _ => a == .host
  | .rxAsync _ _ _ => a == .host
  | .setEnabled _ _ => a == .host
  | .readFlag _ _ => a == .host
  | .onIrq _ => a == .host || a == .irq
  | .regRead _ _ => a == .host
  | .regWrite _ _ _ => a == .host
  | .txStep _ => false
  | .rxStep _ => false
  | .rmwCommit _ => a == .app
  | .blkTxUnit _ => a == .app
  | .blkTxFinish _ => a == .app
  | .blkRxUnit _ => a == .app
  | .evTxLoad u => a == .line u
  | .evTxDone u => a == .line u
  | .evRxFrame u _ => a == .line u

/-- The issuer checks of R95 on a decoded operation of word `w`, in its order: HOST_IRQ_WHILE_ROUTED, then NOT_ISSUABLE
(a host command outside IDLE is refused by its meaning, asHost). The IRQ agent's one operation, ON_IRQ, is not enabled
while the line is not routed (R193). -/
def issueVerdict (s : State) (a : Agent) (i : Instr) (w : Word) : Verdict :=
  if a = .host ∧ i = .onIrq i.inst ∧ s.irqRouted i.inst = true then .reject (.hostIrqWhileRouted w)
  else if mayIssue a i = false then .reject (.notIssuable w)
  else if a = .irq ∧ s.irqRouted i.inst = false then .wait
  else .run i

/-- What an agent's turn with these words comes to: decode (R95), then the issuer checks. -/
def turnVerdict (s : State) (a : Agent) (ws : OpWords) : Verdict :=
  match decode s.params.nInst ws with
  | .error e => .reject (refusalOf e)
  | .ok i => issueVerdict s a i ws.op

/-- The agent whose step an operation is (R94): the IRQ agent for ON_IRQ of a routed line, the host for a sub-operation. -/
def agentOf (s : State) (i : Instr) : Agent :=
  if mayIssue .app i then .app
  else if mayIssue (.line i.inst) i then .line i.inst
  else if i = .onIrq i.inst ∧ s.irqRouted i.inst = true then .irq
  else .host

/-- The agent whose step the operation of these words is; the host for words that decode to no operation. -/
def issuerOf (s : State) (ws : OpWords) : Agent :=
  match decode s.params.nInst ws with
  | .error _ => .host
  | .ok i => agentOf s i

end Sys2Proof.Machine
end

