-- ==== Sys2Proof/Machine/Step.lean ====
section
/-! DEFINITION. One step of the machine: the next turn of the schedule (spec/00_scope.md R6, R7;
spec/10_state.md R58). -/

namespace Sys2Proof.Machine

/-- The turn `t` taken in state `s`. -/
def takeTurn (t : Turn) (s : State) : Host.Outcome State Fault Refusal :=
  match t with
  | .hostWrite a b => hostWriteByte s a b
  | .hostRead a => hostReadByte s a
  | .issue agent words =>
    match turnVerdict s agent words with
    | .run i => exec i s
    | .wait => hold s
    | .reject r => .next (s.refuse r)

/-- One step. A marked state is stopped: no agent has an enabled step (R241, R250). Otherwise the first turn of the
schedule is taken and leaves it; with no turn left, every agent waits. -/
def step (s : State) : Host.Outcome State Fault Refusal :=
  match s.fault with
  | some f => .fault f
  | none =>
    match s.refused with
    | some r => .refused r
    | none =>
      match s.schedule with
      | [] => .next s
      | t :: rest => takeTurn t (s.setSchedule rest)

/-- The state with the operation of a table row's bits placed as the next turn, given to the agent whose step it is. The
block fetches nothing (R58, R85): its next operation is the schedule's first turn (notes/assumptions/2.md). -/
def State.withFetchWord (s : State) (nbits w : Nat) : State :=
  { s with schedule := .issue (issuerOf s (tableWords nbits w)) (tableWords nbits w) :: s.schedule }

end Sys2Proof.Machine
end

