-- ==== Sys2Proof/Safety.lean ====
section
/-! DEFINITION. What claims about the machine are stated in: stopped states, enabled steps, ends of a run
(spec/60_exceptions.md R264, R265), the runs the fairness parameters admit (R195, R234), the invariants of a state
(spec/10_state.md R40, R45), and what an operation keeps. -/

namespace Sys2Proof.Machine

/-! ### Stopped states and enabled steps -/

/-- No mark is set (R51). -/
abbrev Running (s : State) : Prop := s.fault = none ∧ s.refused = none

/-- The internal step of the application context that is enabled, if any (R98, R152 to R155, R216). -/
def appStep (s : State) : Option Instr :=
  match s.app with
  | .idle => none
  | .rmw u _ _ _ => some (.rmwCommit u)
  | .blkTx u _ _ .units => if (blkTxUnitEnabled s u).isSome then some (.blkTxUnit u) else none
  | .blkTx u _ _ .waitTc => if blkTxFinishEnabled s u then some (.blkTxFinish u) else none
  | .blkRx u _ _ => if (blkRxUnitEnabled s u).isSome then some (.blkRxUnit u) else none

/-- Some internal step of the application context is enabled. -/
def appEnabled (s : State) : Bool := (appStep s).isSome

/-- The IRQ agent's ON_IRQ u is enabled (R193, R194). -/
def irqEnabled (s : State) (u : InstIx) : Bool := s.irqRouted u && irqLine s u

/-- A transmit step of LINE(u) is enabled (R225). -/
def txLineEnabled (s : State) (u : InstIx) : Bool := (s.usart u).txLoadEnabled || (s.usart u).txDoneEnabled

/-- A turn in which the host issues a command. Its memory accesses are "not a command" (R81). -/
def Turn.isCommand (t : Turn) : Bool :=
  match t with
  | .issue .host _ => true
  | .issue .app _ | .issue .irq _ | .issue (.line _) _ | .hostWrite _ _ | .hostRead _ => false

/-- The successful end of a run (R265): the host has no further command, `app = IDLE`, no mark (log entry 19). -/
abbrev SuccessfulEnd (s : State) : Prop := s.schedule.all (fun t => !t.isCommand) = true ∧ s.app = .idle ∧ Running s

/-- Transmit quiescence (R265): no EV_TX_LOAD and no EV_TX_DONE of a USART in use is enabled. -/
abbrev TxQuiescent (s : State) : Prop := ∀ u : InstIx, u.val < s.params.nInst → txLineEnabled s u = false

/-! ### Infinite runs -/

/-- An infinite run: the states and the turn taken in each. A run that sets a mark stops and is not one of these. -/
def IsRun (σ : Nat → State) (τ : Nat → Turn) : Prop :=
  ∀ n, step ((σ n).setSchedule [τ n]) = .next ((σ (n + 1)).setSchedule [])

/-- Turn `t`, taken in state `s`, is agent `a`'s turn with operation `i`. -/
def Takes (s : State) (t : Turn) (a : Agent) (i : Instr) : Prop :=
  ∃ ws, t = .issue a ws ∧ decode s.params.nInst ws = .ok i

/-- IRQ_FAIR (R195): a routed line of a USART in use that stays high is taken. -/
def IrqFairRun (σ : Nat → State) (τ : Nat → Turn) : Prop :=
  ∀ u : InstIx, u.val < (σ 0).params.nInst →
    ∀ n, (∀ m, n ≤ m → irqEnabled (σ m) u = true) → ∃ m, n ≤ m ∧ Takes (σ m) (τ m) .irq (.onIrq u)

/-- LINE_FAIR(u) (R234): each of the two transmit steps, while it stays enabled, is itself taken. A turn that offers the
other transmit step, which then only holds, does not count. -/
def LineFairRun (u : InstIx) (σ : Nat → State) (τ : Nat → Turn) : Prop :=
  ∀ n,
    ((∀ m, n ≤ m → ((σ m).usart u).txLoadEnabled = true) → ∃ m, n ≤ m ∧ Takes (σ m) (τ m) (.line u) (.evTxLoad u)) ∧
    ((∀ m, n ≤ m → ((σ m).usart u).txDoneEnabled = true) → ∃ m, n ≤ m ∧ Takes (σ m) (τ m) (.line u) (.evTxDone u))

/-- The application context is not passed over for ever: an internal step of it that stays enabled is taken. It is the
MODEL's own premise and no parameter of R8: R7 leaves the scheduler free, so AdmittedRun does not ask for it
(DESIGN CHOICE, notes/assumptions/17.md). -/
def AppFairRun (σ : Nat → State) (τ : Nat → Turn) : Prop :=
  ∀ n, (∀ m, n ≤ m → appEnabled (σ m) = true) →
    ∃ m i, n ≤ m ∧ appStep (σ m) = some i ∧ Takes (σ m) (τ m) .app i

/-- The infinite runs the parameters admit (R195, R234). Whether an internal step of APP that stays enabled is eventually
taken the spec does not say (R7's scheduler is free, R8 has no such parameter), and this predicate asks nothing of APP:
DESIGN CHOICE, notes/assumptions/17.md. So a claim in the sense of R234's remark that a polled transmit then always
finishes must assume AppFairRun beside AdmittedRun. -/
def AdmittedRun (σ : Nat → State) (τ : Nat → Turn) : Prop :=
  IsRun σ τ ∧ ((σ 0).params.irqFair = true → IrqFairRun σ τ) ∧
    ∀ u : InstIx, u.val < (σ 0).params.nInst → ((σ 0).params.perInst.get u).lineFair = true → LineFairRun u σ τ

/-- A run reported as hanging (R157, R264): `app` outside IDLE for ever, or a direction BUSY for ever. -/
def Hangs (σ : Nat → State) : Prop :=
  (∃ n, ∀ m, n ≤ m → (σ m).app ≠ .idle) ∨
    ∃ u : InstIx, (∃ n, ∀ m, n ≤ m → (σ m).txStatus u = .busy) ∨ ∃ n, ∀ m, n ≤ m → (σ m).rxStatus u = .busy

/-! ### Invariants of a state -/

/-- A range of buffer bytes does not wrap (R88). -/
def rangeFits (c n : Word) : Bool := decide (c.toNat + n.toNat ≤ 2 ^ 32)

/-- One direction (R45 I2 to I4, R88, R176): FREE with nothing recorded, or BUSY with a callback, a cursor, and at least
one byte to move inside the address space. -/
def DirState.wf (d : DirState) : Bool :=
  match d.status, d.cursor, d.callback with
  | .free, none, .null => d.remaining == 0#32
  | .busy, some c, .installed => d.remaining != 0#32 && rangeFits c d.remaining
  | _, _, _ => false

/-- The application context (R46, R88): a polled transfer has bytes to move exactly in its unit phase, and a pending
read-modify-write sets no not-modelled bit (R40). -/
def AppState.wf (a : AppState) : Bool :=
  match a with
  | .idle => true
  | .blkTx _ c r .units => r != 0#32 && rangeFits c r
  | .blkTx _ _ r .waitTc => r == 0#32
  | .blkRx _ c r => r != 0#32 && rangeFits c r
  | .rmw _ latch set clr => rmwValue latch set clr &&& ~~~cr1Modelled == 0#32

/-- BRR holds only its implemented bits (R37). -/
def brrFits (p : Params) (b : Word) : Bool :=
  match p.brrWidth with
  | .w16 => decide (b.toNat < 2 ^ 16)
  | .w32 => true

/-- One USART: its configuration record inside its sets (R31), its directions, the not-modelled control bits 0 (R40), BRR
within its width (R37), a frame behind RXNE = 1 (R231), and TC = 1 behind `tc_armed` (R41). -/
def Inst.wf (p : Params) (i : Inst) : Bool :=
  i.cfg.wf && i.tx.wf && i.rx.wf
    && i.cr1 &&& ~~~cr1Modelled == 0#32 && i.cr2 &&& ~~~cr2Modelled == 0#32 && i.cr3 &&& ~~~cr3Modelled == 0#32
    && brrFits p i.brr && (!i.rxne || i.rdr.isSome) && (!i.tcArmed || i.tc)

/-- The invariant of every reachable state. -/
abbrev Inv (s : State) : Prop :=
  Memory.wf s.mem = true ∧ s.app.wf = true ∧ ∀ u : InstIx, Inst.wf s.params (s.usart u) = true

/-- I1 (R45) of one USART: a direction is BUSY iff its interrupt is enabled. It is no invariant of every state. -/
def Inst.busyIffEnabled (i : Inst) : Bool :=
  (i.tx.status == .busy) == i.txeie && (i.rx.status == .busy) == i.rxneie

/-! ### What an operation keeps -/

/-- Every byte of buffer memory reads as before. -/
def MemKept (s t : State) : Prop := ∀ a : Word, t.byteAt a = s.byteAt a

/-- Every byte of buffer memory outside the `n` bytes from `c` on reads as before. -/
def MemKeptOutside (c : Word) (n : UnitSize) (s t : State) : Prop :=
  ∀ a : Word, a ≠ c → (n = .two → a ≠ c + 1#32) → t.byteAt a = s.byteAt a

/-- Nothing changes outside USART `u`, the application context, buffer memory, the result log and the count of SR reads;
and no mark is set. -/
structure RestKept (u : InstIx) (s t : State) : Prop where
  params   : t.params = s.params
  others   : ∀ v : InstIx, v ≠ u → t.usart v = s.usart v
  fault    : t.fault = s.fault
  refused  : t.refused = s.refused
  schedule : t.schedule = s.schedule

/-! ### Repeated and composed operations -/

/-- The model's bounded repetition of one operation, for the counting statements. -/
def repeatExec (i : Instr) : Nat → State → Out
  | 0, s => .next s
  | k + 1, s =>
    match exec i s with
    | .next t => repeatExec i k t
    | .fault f => .fault f
    | .refused r => .refused r

/-- The model's sequence of a SET_ENABLED and, unless it is atomic, its commit. -/
def setEnabledWhole (u : InstIx) (en : Bool) (s : State) : Out :=
  match exec (.setEnabled u en) s with
  | .next t => if t.params.atomicCr1Rmw then .next t else exec (.rmwCommit u) t
  | .fault f => .fault f
  | .refused r => .refused r

end Sys2Proof.Machine
end

