-- ==== Sys2Proof/Certificates/Slice0/Obligations.lean ====
section
/-! DEFINITION. The statements for the provers, one per rule or group of rules of spec/. A statement about a next state
says `exec … = .next t`, what `t` holds, and what is kept: RestKept, MemKept and MemKeptOutside of Safety.lean, and one
equation for the USART acted on. The schedule of turns and the count `draws` of SR reads are the model's own
(notes/assumptions/2.md, 4.md). -/

open Sys2Proof Sys2Proof.Machine

/-! ### Encoding (spec/30_encoding.md) -/

/-- R91 to R95: every well-formed operation, with every operand value its encoding admits, is decoded from its words. -/
def Obligations.DecodeOfEncode : Prop :=
  ∀ (n : Nat) (i : Instr), WellFormed n i = true → decode n (encode i) = .ok i

/-- R91 to R95: what decodes is well formed, and its encoding is the words it was decoded from, as far as its format has
words. -/
def Obligations.EncodeOfDecode : Prop :=
  ∀ (n : Nat) (ws : OpWords) (i : Instr), decode n ws = .ok i →
    WellFormed n i = true ∧ (encode i).op = ws.op ∧
      (1 ≤ i.opcode.format.argCount → (encode i).arg0 = ws.arg0) ∧
      (2 ≤ i.opcode.format.argCount → (encode i).arg1 = ws.arg1)

/-- R103: the worked encodings decode to the operations they stand for. -/
def Obligations.WorkedEncodingsDecode : Prop :=
  decode 1 ⟨0x01000000#32, 0#32, 0#32⟩ = .ok (.init 0) ∧
  decode 1 ⟨0x02000000#32, 0x20000000#32, 2#32⟩ = .ok (.txBlock 0 0x20000000#32 2#32) ∧
  decode 1 ⟨0x05000000#32, 0x20000100#32, 3#32⟩ = .ok (.rxAsync 0 0x20000100#32 3#32) ∧
  decode 1 ⟨0x06000001#32, 0#32, 0#32⟩ = .ok (.setEnabled 0 true) ∧
  decode 1 ⟨0x07000200#32, 0#32, 0#32⟩ = .ok (.readFlag 0 .rxne) ∧
  decode 1 ⟨0x08000000#32, 0#32, 0#32⟩ = .ok (.onIrq 0) ∧
  decode 1 ⟨0x09030000#32, 0#32, 0#32⟩ = .ok (.regRead 0 .cr1) ∧
  decode 1 ⟨0x0A020000#32, 0x683#32, 0#32⟩ = .ok (.regWrite 0 .brr 0x683#32) ∧
  decode 1 ⟨0x22000000#32, 0x41#32, 0#32⟩ = .ok (.evRxFrame 0 0x41#9) ∧
  decode 4 ⟨0x01300000#32, 0#32, 0#32⟩ = .ok (.init 3)

/-- R96: exactly the opcodes with no mnemonic are illegal. -/
def Obligations.IllegalOpcodesRefused : Prop :=
  ∀ (n : Nat) (ws : OpWords),
    decode n ws = .error (.illegalOpcode ws.op) ↔
      (ws.op.toNat / 2 ^ 24 = 0 ∨ (0x0B ≤ ws.op.toNat / 2 ^ 24 ∧ ws.op.toNat / 2 ^ 24 ≤ 0x0F) ∨
        (0x16 ≤ ws.op.toNat / 2 ^ 24 ∧ ws.op.toNat / 2 ^ 24 ≤ 0x1F) ∨ 0x23 ≤ ws.op.toNat / 2 ^ 24)

/-- R95, R97: on a legal opcode the field checks refuse in the order of R95, and a word that passes them decodes to the
opcode's operation on the USART it names. -/
def Obligations.FieldChecksRefuse : Prop :=
  ∀ (n : Nat) (ws : OpWords) (o : Opcode), ws.op.extractLsb' 24 8 = o.code →
    (ws.op &&& o.format.notUsedMask ≠ 0#32 → decode n ws = .error (.reservedField ws.op)) ∧
    (ws.op &&& o.format.notUsedMask = 0#32 →
      (n ≤ (ws.op.extractLsb' 20 4).toNat → decode n ws = .error (.badInstance ws.op)) ∧
      ((ws.op.extractLsb' 20 4).toNat < n →
        if (o.format = .cr ∨ o.format = .cw) ∧ 6 ≤ (ws.op.extractLsb' 16 4).toNat then
          decode n ws = .error (.badRegister ws.op)
        else if o.format = .cf ∧ 3 ≤ (ws.op.extractLsb' 8 4).toNat then decode n ws = .error (.badFlag ws.op)
        else if o.format = .ed ∧ 2 ^ 9 ≤ ws.arg0.toNat then decode n ws = .error (.reservedField ws.op)
        else ∃ i : Instr, decode n ws = .ok i ∧ i.opcode = o ∧ i.inst.val = (ws.op.extractLsb' 20 4).toNat))

/-! ### Steps, issuers and stops (spec/00_scope.md R7, spec/30_encoding.md R98, R99, spec/60_exceptions.md) -/

/-- A step takes the first turn of the schedule out of it: it runs the operation its words decode to, when that agent may
issue it and, for ON_IRQ, the routing lets it; words that do not decode are refused, whoever issues them, with the reason
and the word decode gives and no other effect (R95, R250, R251; that the refused turn leaves the schedule is the model's
choice, log entry 18); a host turn that writes or reads a byte of memory makes that access; with no turn left it waits. -/
def Obligations.StepRunsDecodedOperation : Prop :=
  (∀ (s : State) (a : Agent) (ws : OpWords) (rest : List Turn) (i : Instr),
    Running s → s.schedule = .issue a ws :: rest → decode s.params.nInst ws = .ok i → mayIssue a i = true →
      (∀ u, i = .onIrq u → (a = .irq ↔ s.irqRouted u = true)) →
        step s = exec i (s.setSchedule rest)) ∧
  (∀ (s : State) (a : Agent) (ws : OpWords) (rest : List Turn) (e : DecodeError),
    Running s → s.schedule = .issue a ws :: rest → decode s.params.nInst ws = .error e →
      step s = .next ((s.setSchedule rest).refuse (refusalOf e))) ∧
  (∀ w : Word, refusalOf (.illegalOpcode w) = .illegalOpcode w ∧ refusalOf (.reservedField w) = .reservedField w ∧
    refusalOf (.badInstance w) = .badInstance w ∧ refusalOf (.badRegister w) = .badRegister w ∧
    refusalOf (.badFlag w) = .badFlag w) ∧
  (∀ (s : State) (a : Word) (b : Byte) (rest : List Turn),
    Running s → s.schedule = .hostWrite a b :: rest → step s = hostWriteByte (s.setSchedule rest) a b) ∧
  (∀ (s : State) (a : Word) (rest : List Turn),
    Running s → s.schedule = .hostRead a :: rest → step s = hostReadByte (s.setSchedule rest) a) ∧
  (∀ s : State, Running s → s.schedule = [] → step s = .next s)

/-- R51, R241, R250: a marked state is stopped with its mark, so no step clears one. -/
def Obligations.MarkedStateStops : Prop :=
  ∀ s : State,
    (∀ f, s.fault = some f → step s = .fault f) ∧
    (∀ r, s.fault = none → s.refused = some r → step s = .refused r) ∧
    (∀ t, step s = .next t → Running s)

/-- R196: a host ON_IRQ is refused while the platform routes the line, whatever the application context does, and runs
while it does not. -/
def Obligations.HostIrqOnlyWhileNotRouted : Prop :=
  ∀ (s : State) (ws : OpWords) (rest : List Turn) (u : InstIx),
    Running s → s.schedule = .issue .host ws :: rest → decode s.params.nInst ws = .ok (.onIrq u) →
      (s.irqRouted u = true → step s = .next ((s.setSchedule rest).refuse (.hostIrqWhileRouted ws.op))) ∧
      (s.irqRouted u = false → s.app = .idle → step s = finish (serviceIrq (s.setSchedule rest) u))

/-- R99: an operation issued by any other agent than the rule lists, or a host command outside IDLE, is refused with
NOT_ISSUABLE and has no other effect. -/
def Obligations.OnlyListedIssuers : Prop :=
  ∀ (s : State) (a : Agent) (ws : OpWords) (rest : List Turn) (i : Instr),
    Running s → s.schedule = .issue a ws :: rest → decode s.params.nInst ws = .ok i →
      (¬((a = .host ∧ 0x01 ≤ i.opcode.code.toNat ∧ i.opcode.code.toNat ≤ 0x0A) ∨
          (a = .irq ∧ i.opcode.code.toNat = 0x08) ∨
          (a = .app ∧ 0x12 ≤ i.opcode.code.toNat ∧ i.opcode.code.toNat ≤ 0x15) ∨
          (a = .line i.inst ∧ 0x20 ≤ i.opcode.code.toNat ∧ i.opcode.code.toNat ≤ 0x22)) →
        step s = .next ((s.setSchedule rest).refuse (.notIssuable ws.op))) ∧
      (a = .host → 0x01 ≤ i.opcode.code.toNat → i.opcode.code.toNat ≤ 0x0A → s.app ≠ .idle →
        (i.opcode.code.toNat = 0x08 → s.irqRouted i.inst = false) →
          step s = .next ((s.setSchedule rest).refuse (.notIssuable ws.op)))

/-- R98: TX_STEP and RX_STEP are steps of no agent, and the application's internal steps change nothing outside the
matching state of the USART they name. -/
def Obligations.InternalStepsNeedTheirState : Prop :=
  (∀ (s : State) (a : Agent) (ws : OpWords) (rest : List Turn) (u : InstIx) (i : Instr),
    Running s → s.schedule = .issue a ws :: rest → i = .txStep u ∨ i = .rxStep u →
      decode s.params.nInst ws = .ok i → step s = .next ((s.setSchedule rest).refuse (.notIssuable ws.op))) ∧
  (∀ (s : State) (u : InstIx),
    ((∀ l x c, s.app ≠ .rmw u l x c) → exec (.rmwCommit u) s = .next s) ∧
    ((∀ c r, s.app ≠ .blkTx u c r .units) → exec (.blkTxUnit u) s = .next s) ∧
    ((∀ c r, s.app ≠ .blkTx u c r .waitTc) → exec (.blkTxFinish u) s = .next s) ∧
    ((∀ c r, s.app ≠ .blkRx u c r) → exec (.blkRxUnit u) s = .next s))

/-- R154: a poll that finds its flag clear changes nothing, and leaves the application context with no enabled step. -/
def Obligations.PolledHoldChangesNothing : Prop :=
  ∀ (s : State) (u : InstIx) (c r : Word),
    (s.app = .blkTx u c r .units → (s.usart u).txe = false →
      exec (.blkTxUnit u) s = .next s ∧ appEnabled s = false) ∧
    (s.app = .blkTx u c r .waitTc → (s.usart u).tc = false →
      exec (.blkTxFinish u) s = .next s ∧ appEnabled s = false) ∧
    (s.app = .blkRx u c r → (s.usart u).rxne = false →
      exec (.blkRxUnit u) s = .next s ∧ appEnabled s = false)

/-! ### Launch (spec/10_state.md R59, spec/70_reset_and_hazards.md R270, R271) -/

/-- R59: the reset state of every USART and of the machine. -/
def Obligations.LaunchResetState : Prop :=
  ∀ (p : Params) (cfgs : Vector LaunchConfig 16) (m : Memory) (q : List Turn) (u : InstIx),
    let s := State.launch p cfgs m q
    (s.usart u).txe = true ∧ (s.usart u).tc = true ∧ (s.usart u).rxne = false ∧
    (s.usart u).cr1 = 0#32 ∧ (s.usart u).cr2 = 0#32 ∧ (s.usart u).cr3 = 0#32 ∧ (s.usart u).brr = 0#32 ∧
    (s.usart u).tdr = 0#9 ∧ (s.usart u).rdr = none ∧ (s.usart u).tcArmed = false ∧ (s.usart u).shifter = none ∧
    (s.usart u).tx = ⟨.free, none, 0#32, .null⟩ ∧ (s.usart u).rx = ⟨.free, none, 0#32, .null⟩ ∧
    (s.usart u).lineOut = [] ∧ (s.usart u).rxLost = 0 ∧ (s.usart u).tdrLost = 0 ∧
    s.app = .idle ∧ s.results = [] ∧ s.fault = none ∧ s.mem = m ∧ s.params = p ∧
    (∀ c, (cfgs.get u).check = some c → (s.usart u).cfg = c)

/-- R271: a launch is refused with BAD_CONFIG exactly when the record of some USART in use has `baud = 0` or a field
outside its set, and then no step runs. -/
def Obligations.BadConfigRefusesLaunch : Prop :=
  ∀ (p : Params) (cfgs : Vector LaunchConfig 16) (m : Memory) (q : List Turn),
    let bad := ∃ u : InstIx, u.val < p.nInst ∧
      ((cfgs.get u).baud = 0 ∨ 2 ^ 32 ≤ (cfgs.get u).baud ∨
        ((cfgs.get u).wordLength ≠ 8 ∧ (cfgs.get u).wordLength ≠ 9) ∨
        ((cfgs.get u).oversampling ≠ 8 ∧ (cfgs.get u).oversampling ≠ 16))
    (bad → step (State.launch p cfgs m q) = .refused .badConfig) ∧
    (¬bad → Running (State.launch p cfgs m q))

/-- Every launch whose memory content is in the canonical form meets the invariant. -/
def Obligations.LaunchMeetsInvariant : Prop :=
  ∀ (p : Params) (cfgs : Vector LaunchConfig 16) (m : Memory) (q : List Turn),
    Memory.wf m = true → Inv (State.launch p cfgs m q)

/-! ### INIT and the baud-rate generator (spec/40_baud_rate_generator.md) -/

/-- R119, R120: INIT writes CR1, CR2 and CR3 as whole words, bit for bit from the record, and besides them only BRR (whose
value InitStoresDivisor states). -/
def Obligations.InitWritesControlWords : Prop :=
  ∀ (s : State) (u : InstIx), s.app = .idle →
    ∃ t, exec (.init u) s = .next t ∧
      (∀ b : Nat, (t.usart u).cr1.getLsbD b =
        match b with
        | 3 => decide ((s.usart u).cfg.mode = .tx ∨ (s.usart u).cfg.mode = .txRx)
        | 2 => decide ((s.usart u).cfg.mode = .rx ∨ (s.usart u).cfg.mode = .txRx)
        | 12 => decide ((s.usart u).cfg.wordLength = .nine)
        | 10 => decide ((s.usart u).cfg.parity ≠ .none)
        | 9 => decide ((s.usart u).cfg.parity = .odd)
        | 15 => decide ((s.usart u).cfg.oversampling = .by8)
        | _ => false) ∧
      (t.usart u).cr2.toNat = 2 ^ 12 *
        (match (s.usart u).cfg.stopBits with
          | .stop1 => 0
          | .stop0_5 => 1
          | .stop2 => 2
          | .stop1_5 => 3) ∧
      (∀ b : Nat, (t.usart u).cr3.getLsbD b =
        match b with
        | 9 => decide ((s.usart u).cfg.flow = .cts ∨ (s.usart u).cfg.flow = .rtsCts)
        | 8 => decide ((s.usart u).cfg.flow = .rts ∨ (s.usart u).cfg.flow = .rtsCts)
        | _ => false) ∧
      t.usart u = { s.usart u with
        cr1 := (t.usart u).cr1, cr2 := (t.usart u).cr2, cr3 := (t.usart u).cr3, brr := (t.usart u).brr } ∧
      RestKept u s t ∧ MemKept s t ∧ t.app = .idle ∧ t.results = s.results ∧ t.draws = s.draws

/-- R110 to R117, R121: the word INIT leaves in BRR, from CLOCK_HZ of the USART's domain and the record; under 8x
oversampling its bit 3 is 0. -/
def Obligations.InitStoresDivisor : Prop :=
  ∀ (s : State) (u : InstIx), s.app = .idle →
    let clock := if (s.params.perInst.get u).clockDomain = .zero then s.params.clockHzZero.val else s.params.clockHzOne.val
    let baud := (s.usart u).cfg.baud
    let k := if (s.usart u).cfg.oversampling = .by8 then 8 else 16
    let div100 :=
      if s.params.div100Rounding = .nearest then (200 * clock + k * baud) / (2 * k * baud)
      else (100 * clock) / (k * baud)
    let mantissa := div100 / 100
    let fraction100 := div100 - mantissa * 100
    let fractionRaw := (fraction100 * k + 50) / 100
    let fraction := if k = 8 then fractionRaw &&& 0x7 else fractionRaw &&& 0xF
    let width := if s.params.brrWidth = .w16 then 16 else 32
    ∃ t, exec (.init u) s = .next t ∧ (t.usart u).brr.toNat = ((mantissa <<< 4) ||| fraction) % 2 ^ width ∧
      ((s.usart u).cfg.oversampling = .by8 → (t.usart u).brr.getLsbD 3 = false)

/-- R115, R116: `fraction_raw = k` happens exactly from 94 (k = 8) or 97 (k = 16) hundredths on; the packed divisor then
has fraction 0 and the mantissa not incremented. -/
def Obligations.FractionCarryLost : Prop :=
  (∀ d : Nat, fraction100Of d ≤ 99 ∧ fractionRaw (fraction100Of d) 8 ≤ 8 ∧ fractionRaw (fraction100Of d) 16 ≤ 16 ∧
    (fractionRaw (fraction100Of d) 8 = 8 ↔ 94 ≤ fraction100Of d) ∧
    (fractionRaw (fraction100Of d) 16 = 16 ↔ 97 ≤ fraction100Of d)) ∧
  (∀ (mode : Rounding) (clock baud : Nat),
    (94 ≤ div100 mode clock baud 8 % 100 → brrValue mode clock baud .by8 = 16 * (div100 mode clock baud 8 / 100)) ∧
    (97 ≤ div100 mode clock baud 16 % 100 → brrValue mode clock baud .by16 = 16 * (div100 mode clock baud 16 / 100)))

/-! ### Buffer memory and the word-format selector (spec/20_memory.md, spec/41_word_format_selector.md) -/

/-- R71 to R74: an access whose bytes exist writes them little-endian, changes no other byte and nothing else, and is read
back; an access with a byte that does not exist faults with the lowest such byte, and a write then changes nothing. -/
def Obligations.MemoryAccessLaws : Prop :=
  ∀ (s : State) (a : Word) (n : UnitSize) (v : Half), Memory.wf s.mem = true →
    (memValid s a = true → (n = .two → memValid s (a + 1#32) = true) →
      ∃ t, memWrite s a n v = .ok () t ∧ Memory.wf t.mem = true ∧ { t with mem := s.mem } = s ∧ MemKeptOutside a n s t ∧
        (n = .one → t.byteAt a = v.extractLsb' 0 8 ∧ memRead t a .one = .ok ((v.extractLsb' 0 8).setWidth 16)) ∧
        (n = .two → t.byteAt a = v.extractLsb' 0 8 ∧ t.byteAt (a + 1#32) = v.extractLsb' 8 8 ∧
          memRead t a .two = .ok v)) ∧
    (memValid s a = false →
      memRead s a n = .error (.busFault a) ∧ memWrite s a n v = .raised (.busFault a) s) ∧
    (memValid s a = true → n = .two → memValid s (a + 1#32) = false →
      memRead s a n = .error (.busFault (a + 1#32)) ∧ memWrite s a n v = .raised (.busFault (a + 1#32)) s)

/-- R130: the selector's table, read from the configuration record whatever CR1 holds. -/
def Obligations.SelectorTable : Prop :=
  ∀ i : Inst,
    (i.cfg.wordLength = .nine → i.cfg.parity = .none → i.format = ⟨.two, 0x1FF#16, 0x1FF#16⟩) ∧
    (i.cfg.wordLength = .nine → i.cfg.parity ≠ .none → i.format = ⟨.one, 0xFF#16, 0xFF#16⟩) ∧
    (i.cfg.wordLength = .eight → i.cfg.parity = .none → i.format = ⟨.one, 0xFF#16, 0x7F#16⟩) ∧
    (i.cfg.wordLength = .eight → i.cfg.parity ≠ .none → i.format = ⟨.one, 0xFF#16, 0xFF#16⟩)

/-- R132, R134, R136: the unit FetchUnit gives, its bits, and its size `min(unit_bytes, remaining)`. -/
def Obligations.FetchUnitGivesMaskedUnit : Prop :=
  ∀ (s : State) (u : InstIx) (c r : Word), r ≠ 0#32 →
    let i := s.usart u
    let n := min i.format.unitBytes.bytes r.toNat
    memValid s c = true → (n = 2 → memValid s (c + 1#32) = true) →
      ∃ v z, fetchUnit s u c r = .ok (v, z) ∧ z.bytes = n ∧
        ∀ b : Nat, v.getLsbD b =
          (i.format.wmask.getLsbD b && decide (b < 9) &&
            (if b < 8 then (s.byteAt c).getLsbD b else decide (n = 2) && (s.byteAt (c + 1#32)).getLsbD (b - 8)))

/-- R133, R135, R136: the bytes StoreUnit writes, its size, and that it writes no others. -/
def Obligations.StoreUnitWritesMaskedUnit : Prop :=
  ∀ (s : State) (u : InstIx) (c r : Word) (d : Frame), r ≠ 0#32 → Memory.wf s.mem = true →
    let i := s.usart u
    let n := min i.format.unitBytes.bytes r.toNat
    memValid s c = true → (n = 2 → memValid s (c + 1#32) = true) →
      ∃ t z, storeUnit s u c r d = .ok z t ∧ z.bytes = n ∧
        t.byteAt c = (d.setWidth 16 &&& i.format.rmask).extractLsb' 0 8 ∧
        (n = 2 → t.byteAt (c + 1#32) = (d.setWidth 16 &&& i.format.rmask).extractLsb' 8 8) ∧
        MemKeptOutside c z s t ∧ { t with mem := s.mem } = s

/-! ### The polled transfer port (spec/42_blocking_transfer.md) -/

/-- R150, R151, R160: a blocking request only sets the application context; a wrapping range is refused; length 0 waits
for TC (transmit) or returns at once (receive). -/
def Obligations.PolledRequestsStart : Prop :=
  ∀ (s : State) (u : InstIx) (buf len : Word), s.app = .idle →
    (len ≠ 0#32 → 2 ^ 32 < buf.toNat + len.toNat →
      exec (.txBlock u buf len) s = .next (s.refuse .bufferWrap) ∧
      exec (.rxBlock u buf len) s = .next (s.refuse .bufferWrap)) ∧
    (len = 0#32 →
      exec (.txBlock u buf len) s = .next (s.setApp (.blkTx u buf 0#32 .waitTc)) ∧
      exec (.rxBlock u buf len) s = .next s) ∧
    (len ≠ 0#32 → buf.toNat + len.toNat ≤ 2 ^ 32 →
      exec (.txBlock u buf len) s = .next (s.setApp (.blkTx u buf len .units)) ∧
      exec (.rxBlock u buf len) s = .next (s.setApp (.blkRx u buf len)))

/-- R152: with TXE = 1, BLK_TX_UNIT sends the unit at the cursor: TDR written, TXE and TC cleared, the cursor and count
moved on, and nothing else. -/
def Obligations.BlkTxUnitSends : Prop :=
  ∀ (s : State) (u : InstIx) (c r : Word) (raw : Half),
    let i := s.usart u
    let n := i.nextSize r
    s.app = .blkTx u c r .units → r ≠ 0#32 → i.txe = true → memRead s c n = .ok raw →
      ∃ t, exec (.blkTxUnit u) s = .next t ∧
        t.usart u = { i with
          tdr := (raw &&& i.format.wmask).setWidth 9, txe := false, tc := false, tcArmed := false } ∧
        t.app = .blkTx u (c + n.word) (r - n.word) (if r - n.word = 0#32 then .waitTc else .units) ∧
        RestKept u s t ∧ MemKept s t ∧ t.results = s.results ∧ t.draws = s.draws + 1

/-- R153: with TC = 1, BLK_TX_FINISH returns to IDLE and arms `tc_armed`. -/
def Obligations.BlkTxFinishReturns : Prop :=
  ∀ (s : State) (u : InstIx) (c : Word), s.app = .blkTx u c 0#32 .waitTc → (s.usart u).tc = true →
    ∃ t, exec (.blkTxFinish u) s = .next t ∧ t.usart u = { s.usart u with tcArmed := true } ∧ t.app = .idle ∧
      RestKept u s t ∧ MemKept s t ∧ t.results = s.results ∧ t.draws = s.draws + 1

/-- R155, R156: with RXNE = 1, BLK_RX_UNIT stores the masked frame at the cursor, clears RXNE, moves on, and returns to
IDLE with the last unit. -/
def Obligations.BlkRxUnitStores : Prop :=
  ∀ (s : State) (u : InstIx) (c r : Word) (d : Frame),
    let i := s.usart u
    let n := i.nextSize r
    s.app = .blkRx u c r → r ≠ 0#32 → i.rxne = true → i.rdr = some d → firstMissing s c n = none →
      Memory.wf s.mem = true →
      ∃ t, exec (.blkRxUnit u) s = .next t ∧
        t.usart u = { i with rxne := false, tcArmed := i.tcArmed || i.tc } ∧
        t.byteAt c = (d.setWidth 16 &&& i.format.rmask).extractLsb' 0 8 ∧
        (n = .two → t.byteAt (c + 1#32) = (d.setWidth 16 &&& i.format.rmask).extractLsb' 8 8) ∧
        MemKeptOutside c n s t ∧
        t.app = (if r - n.word = 0#32 then .idle else .blkRx u (c + n.word) (r - n.word)) ∧
        RestKept u s t ∧ t.results = s.results ∧ t.draws = s.draws + 1

/-- R152, R155, R244: a missing buffer byte faults a polled transmit before the data register is written, and a polled
receive after it was read, so RXNE is already 0. -/
def Obligations.PolledBusFaults : Prop :=
  ∀ (s : State) (u : InstIx) (c r a : Word),
    let i := s.usart u
    r ≠ 0#32 → firstMissing s c (i.nextSize r) = some a →
      (s.app = .blkTx u c r .units → i.txe = true →
        ∃ t, exec (.blkTxUnit u) s = .next t ∧ t.fault = some (.busFault a) ∧
          t.usart u = { i with tcArmed := i.tcArmed || i.tc } ∧ t.app = s.app ∧ MemKept s t) ∧
      (∀ d, s.app = .blkRx u c r → i.rxne = true → i.rdr = some d →
        ∃ t, exec (.blkRxUnit u) s = .next t ∧ t.fault = some (.busFault a) ∧
          t.usart u = { i with rxne := false, tcArmed := i.tcArmed || i.tc } ∧ t.app = s.app ∧ MemKept s t)

/-! ### The interrupt-driven transfer machines (spec/43_async_state_machine.md) -/

/-- R170, R173, R216: an accepted request records the transfer and sets its interrupt enable, at once or through the read
half of a read-modify-write; the data registers and the flags are not touched (R179). -/
def Obligations.AsyncRequestAccepted : Prop :=
  ∀ (s : State) (u : InstIx) (buf len : Word),
    let i := s.usart u
    let kept := fun t : State => RestKept u s t ∧ MemKept s t ∧ t.results = s.results ∧ t.draws = s.draws
    s.app = .idle → len ≠ 0#32 → buf.toNat + len.toNat ≤ 2 ^ 32 →
      (i.tx.status = .free → ∃ t, exec (.txAsync u buf len) s = .next t ∧ kept t ∧
        t.usart u = { i with
          tx := ⟨.busy, some buf, len, .installed⟩
          cr1 := if s.params.atomicCr1Rmw = true then i.cr1 ||| 0x80#32 else i.cr1 } ∧
        t.app = (if s.params.atomicCr1Rmw = true then .idle else .rmw u i.cr1 0x80#32 0#32)) ∧
      (i.rx.status = .free → ∃ t, exec (.rxAsync u buf len) s = .next t ∧ kept t ∧
        t.usart u = { i with
          rx := ⟨.busy, some buf, len, .installed⟩
          cr1 := if s.params.atomicCr1Rmw = true then i.cr1 ||| 0x20#32 else i.cr1 } ∧
        t.app = (if s.params.atomicCr1Rmw = true then .idle else .rmw u i.cr1 0x20#32 0#32))

/-- R171, R181: a request on a BUSY direction changes no state at all, whatever its range and length; on a FREE direction
length 0 is refused with ZERO_LENGTH and a wrapping range with BUFFER_WRAP. -/
def Obligations.AsyncRequestTurnedAway : Prop :=
  ∀ (s : State) (u : InstIx) (buf len : Word), s.app = .idle →
    ((s.usart u).tx.status = .busy → exec (.txAsync u buf len) s = .next s) ∧
    ((s.usart u).rx.status = .busy → exec (.rxAsync u buf len) s = .next s) ∧
    ((s.usart u).tx.status = .free →
      (len = 0#32 → exec (.txAsync u buf len) s = .next (s.refuse .zeroLength)) ∧
      (len ≠ 0#32 → 2 ^ 32 < buf.toNat + len.toNat → exec (.txAsync u buf len) s = .next (s.refuse .bufferWrap))) ∧
    ((s.usart u).rx.status = .free →
      (len = 0#32 → exec (.rxAsync u buf len) s = .next (s.refuse .zeroLength)) ∧
      (len ≠ 0#32 → 2 ^ 32 < buf.toNat + len.toNat → exec (.rxAsync u buf len) s = .next (s.refuse .bufferWrap)))

/-- R172, R176, R229: TX_STEP writes the unit at the cursor to TDR and moves on; with the last unit it clears TXEIE alone
and frees the direction. -/
def Obligations.TxStepMovesUnit : Prop :=
  ∀ (s : State) (u : InstIx) (c : Word) (raw : Half),
    let i := s.usart u
    let n := i.nextSize i.tx.remaining
    i.tx.callback = .installed → i.tx.cursor = some c → i.tx.remaining ≠ 0#32 → memRead s c n = .ok raw →
      ∃ t, exec (.txStep u) s = .next t ∧
        t.usart u = { i with
          tdr := (raw &&& i.format.wmask).setWidth 9
          txe := false
          tc := i.tc && !i.tcArmed
          tcArmed := false
          tdrLost := if i.txe = true then i.tdrLost else i.tdrLost + 1
          cr1 := if i.tx.remaining = n.word then i.cr1 &&& ~~~0x80#32 else i.cr1
          tx := if i.tx.remaining = n.word then ⟨.free, none, 0#32, .null⟩
            else { i.tx with cursor := some (c + n.word), remaining := i.tx.remaining - n.word } } ∧
        t.app = s.app ∧ RestKept u s t ∧ MemKept s t ∧ t.results = s.results ∧ t.draws = s.draws

/-- R174, R176, R231: RX_STEP reads RDR, clears RXNE, stores the masked unit and moves on; with the last unit it clears
RXNEIE alone and frees the direction. -/
def Obligations.RxStepMovesUnit : Prop :=
  ∀ (s : State) (u : InstIx) (c : Word) (d : Frame),
    let i := s.usart u
    let n := i.nextSize i.rx.remaining
    i.rx.callback = .installed → i.rx.cursor = some c → i.rx.remaining ≠ 0#32 → i.rdr = some d →
      firstMissing s c n = none → Memory.wf s.mem = true →
      ∃ t, exec (.rxStep u) s = .next t ∧
        t.usart u = { i with
          rxne := false
          cr1 := if i.rx.remaining = n.word then i.cr1 &&& ~~~0x20#32 else i.cr1
          rx := if i.rx.remaining = n.word then ⟨.free, none, 0#32, .null⟩
            else { i.rx with cursor := some (c + n.word), remaining := i.rx.remaining - n.word } } ∧
        t.byteAt c = (d.setWidth 16 &&& i.format.rmask).extractLsb' 0 8 ∧
        (n = .two → t.byteAt (c + 1#32) = (d.setWidth 16 &&& i.format.rmask).extractLsb' 8 8) ∧
        MemKeptOutside c n s t ∧
        t.app = s.app ∧ RestKept u s t ∧ t.results = s.results ∧ t.draws = s.draws

/-- R172, R174, R244, R246: a missing buffer byte faults TX_STEP before TDR is written, and RX_STEP after RDR was read; the
directions keep their state. In an ON_IRQ, the transmit fault ends the step before the receive phase, and a receive fault
keeps what the transmit phase did. -/
def Obligations.CallbackBusFaults : Prop :=
  ∀ (s : State) (u : InstIx) (a : Word),
    let i := s.usart u
    let n := i.nextSize i.tx.remaining
    let txPending := i.txe = true ∧ i.cr1.getLsbD 7 = true
    let rxPending := i.rxne = true ∧ i.cr1.getLsbD 5 = true
    let admitted := s.irqRouted u = true ∨ s.app = .idle
    let stopped := fun t : State => t.fault = some (.busFault a) ∧ RestKept u s { t with fault := s.fault } ∧
      MemKept s t ∧ t.app = s.app ∧ t.results = s.results
    (∀ c, i.tx.callback = .installed → i.tx.cursor = some c → i.tx.remaining ≠ 0#32 → firstMissing s c n = some a →
      exec (.txStep u) s = .next (s.raise (.busFault a)) ∧
      (admitted → txPending → ∃ t, exec (.onIrq u) s = .next t ∧ stopped t ∧
        t.usart u = { i with tcArmed := i.tcArmed || i.tc })) ∧
    (∀ e d, i.rx.callback = .installed → i.rx.cursor = some e → i.rx.remaining ≠ 0#32 → i.rdr = some d →
      firstMissing s e (i.nextSize i.rx.remaining) = some a →
      (∃ t, exec (.rxStep u) s = .next t ∧ stopped t ∧ t.usart u = { i with rxne := false }) ∧
      (admitted → rxPending → ¬txPending → ∃ t, exec (.onIrq u) s = .next t ∧ stopped t ∧
        t.usart u = { i with rxne := false, tcArmed := i.tcArmed || i.tc }) ∧
      (∀ c raw, admitted → rxPending → txPending → i.tx.callback = .installed → i.tx.cursor = some c →
        i.tx.remaining ≠ 0#32 → memRead s c n = .ok raw → ∃ t, exec (.onIrq u) s = .next t ∧ stopped t ∧
          t.usart u = { i with
            rxne := false
            tdr := (raw &&& i.format.wmask).setWidth 9
            txe := false
            tc := false
            tcArmed := false
            cr1 := if i.tx.remaining = n.word then i.cr1 &&& ~~~0x80#32 else i.cr1
            tx := if i.tx.remaining = n.word then ⟨.free, none, 0#32, .null⟩
              else { i.tx with cursor := some (c + n.word), remaining := i.tx.remaining - n.word } }))

/-- R138, R177: an accepted transmit of N bytes is BUSY with `N - k * unit_bytes` bytes to go after k < ceil(N /
unit_bytes) step-callbacks, and FREE with cursor and count cleared after exactly ceil(N / unit_bytes), if the N bytes of
its buffer exist. -/
def Obligations.TransmitCallbackCount : Prop :=
  ∀ (s : State) (u : InstIx) (buf len : Word) (k : Nat),
    let i := s.usart u
    let ub := i.format.unitBytes.bytes
    let units := (len.toNat + ub - 1) / ub
    i.tx = ⟨.busy, some buf, len, .installed⟩ → len ≠ 0#32 → buf.toNat + len.toNat ≤ 2 ^ 32 → s.fault = none →
      (∀ j : Nat, j < len.toNat → memValid s (buf + BitVec.ofNat 32 j) = true) →
      k ≤ units → ∃ t, repeatExec (.txStep u) k s = .next t ∧ t.fault = none ∧
        (k < units → (t.usart u).tx.status = .busy ∧ (t.usart u).tx.cursor = some (buf + BitVec.ofNat 32 (k * ub)) ∧
          (t.usart u).tx.remaining.toNat = len.toNat - k * ub ∧ (t.usart u).cr1 = i.cr1) ∧
        (k = units → (t.usart u).tx = ⟨.free, none, 0#32, .null⟩ ∧ (t.usart u).cr1 = i.cr1 &&& ~~~0x80#32)

/-- R138, R177: an accepted receive of N bytes is BUSY with `N - k * unit_bytes` bytes to go after k < ceil(N /
unit_bytes) step-callbacks, each taking the frame in RDR, and FREE with cursor and count cleared after exactly ceil(N /
unit_bytes), if the N bytes of its buffer exist. -/
def Obligations.ReceiveCallbackCount : Prop :=
  ∀ (s : State) (u : InstIx) (buf len : Word) (d : Frame) (k : Nat),
    let i := s.usart u
    let ub := i.format.unitBytes.bytes
    let units := (len.toNat + ub - 1) / ub
    i.rx = ⟨.busy, some buf, len, .installed⟩ → len ≠ 0#32 → buf.toNat + len.toNat ≤ 2 ^ 32 → s.fault = none →
      i.rdr = some d → (∀ j : Nat, j < len.toNat → memValid s (buf + BitVec.ofNat 32 j) = true) →
      k ≤ units → ∃ t, repeatExec (.rxStep u) k s = .next t ∧ t.fault = none ∧
        (k < units → (t.usart u).rx.status = .busy ∧ (t.usart u).rx.cursor = some (buf + BitVec.ofNat 32 (k * ub)) ∧
          (t.usart u).rx.remaining.toNat = len.toNat - k * ub ∧ (t.usart u).cr1 = i.cr1) ∧
        (k = units → (t.usart u).rx = ⟨.free, none, 0#32, .null⟩ ∧ (t.usart u).cr1 = i.cr1 &&& ~~~0x20#32)

/-! ### The interrupt demultiplexer (spec/44_interrupt_demultiplexer.md) -/

/-- R190: the IRQ line is the level of its two sources. -/
def Obligations.IrqLineIsLevel : Prop :=
  ∀ (s : State) (u : InstIx), irqLine s u = true ↔
    ((s.usart u).txe = true ∧ (s.usart u).cr1.getLsbD 7 = true) ∨
      ((s.usart u).rxne = true ∧ (s.usart u).cr1.getLsbD 5 = true)

/-- R194, R193: the IRQ agent's turn runs the handler in every state where the line is routed and high, whatever the
application context is doing. Otherwise its step is not enabled and holds: nothing changes but the turn is used up, which is
the model's reading of R11's hold (DEDUCED, log entries 9 and 10). -/
def Obligations.IrqDelivery : Prop :=
  ∀ (s : State) (ws : OpWords) (rest : List Turn) (u : InstIx),
    Running s → s.schedule = .issue .irq ws :: rest → decode s.params.nInst ws = .ok (.onIrq u) →
      (s.irqRouted u = true → irqLine s u = true → step s = finish (serviceIrq (s.setSchedule rest) u)) ∧
      (s.irqRouted u = false ∨ irqLine s u = false → step s = .next (s.setSchedule rest))

/-- R191, R192, R193, R198: with both conditions true, one ON_IRQ sends the transmit unit (read before anything is
stored) and stores the receive unit; the application context, every other USART and every other byte are kept. -/
def Obligations.OnIrqServicesBoth : Prop :=
  ∀ (s : State) (u : InstIx) (c e : Word) (raw : Half) (d : Frame),
    let i := s.usart u
    let n := i.nextSize i.tx.remaining
    let m := i.nextSize i.rx.remaining
    s.irqRouted u = true ∨ s.app = .idle →
    i.txe = true → i.cr1.getLsbD 7 = true → i.rxne = true → i.cr1.getLsbD 5 = true →
    i.tx.callback = .installed → i.tx.cursor = some c → i.tx.remaining ≠ 0#32 → memRead s c n = .ok raw →
    i.rx.callback = .installed → i.rx.cursor = some e → i.rx.remaining ≠ 0#32 → i.rdr = some d →
    firstMissing s e m = none → Memory.wf s.mem = true →
      ∃ t, exec (.onIrq u) s = .next t ∧
        t.usart u = { i with
          tdr := (raw &&& i.format.wmask).setWidth 9
          txe := false
          tc := false
          tcArmed := false
          rxne := false
          cr1 := (if i.tx.remaining = n.word then i.cr1 &&& ~~~0x80#32 else i.cr1) &&&
            (if i.rx.remaining = m.word then ~~~0x20#32 else ~~~0#32)
          tx := if i.tx.remaining = n.word then ⟨.free, none, 0#32, .null⟩
            else { i.tx with cursor := some (c + n.word), remaining := i.tx.remaining - n.word }
          rx := if i.rx.remaining = m.word then ⟨.free, none, 0#32, .null⟩
            else { i.rx with cursor := some (e + m.word), remaining := i.rx.remaining - m.word } } ∧
        t.byteAt e = (d.setWidth 16 &&& i.format.rmask).extractLsb' 0 8 ∧
        (m = .two → t.byteAt (e + 1#32) = (d.setWidth 16 &&& i.format.rmask).extractLsb' 8 8) ∧
        MemKeptOutside e m s t ∧
        t.app = s.app ∧ RestKept u s t ∧ t.results = s.results ∧ t.draws = s.draws + 2

/-- R191 to R193: with one condition true only that direction's callback runs, and the other direction keeps its flag and
state. -/
def Obligations.OnIrqServicesOne : Prop :=
  ∀ (s : State) (u : InstIx) (c : Word),
    let i := s.usart u
    s.irqRouted u = true ∨ s.app = .idle →
    (∀ raw, let n := i.nextSize i.tx.remaining
      i.txe = true → i.cr1.getLsbD 7 = true → i.rxne = false ∨ i.cr1.getLsbD 5 = false →
      i.tx.callback = .installed → i.tx.cursor = some c → i.tx.remaining ≠ 0#32 → memRead s c n = .ok raw →
        ∃ t, exec (.onIrq u) s = .next t ∧
          t.usart u = { i with
            tdr := (raw &&& i.format.wmask).setWidth 9
            txe := false
            tc := false
            tcArmed := false
            cr1 := if i.tx.remaining = n.word then i.cr1 &&& ~~~0x80#32 else i.cr1
            tx := if i.tx.remaining = n.word then ⟨.free, none, 0#32, .null⟩
              else { i.tx with cursor := some (c + n.word), remaining := i.tx.remaining - n.word } } ∧
          t.app = s.app ∧ RestKept u s t ∧ MemKept s t ∧ t.results = s.results ∧ t.draws = s.draws + 2) ∧
    (∀ d, let m := i.nextSize i.rx.remaining
      i.rxne = true → i.cr1.getLsbD 5 = true → i.txe = false ∨ i.cr1.getLsbD 7 = false →
      i.rx.callback = .installed → i.rx.cursor = some c → i.rx.remaining ≠ 0#32 → i.rdr = some d →
      firstMissing s c m = none → Memory.wf s.mem = true →
        ∃ t, exec (.onIrq u) s = .next t ∧
          t.usart u = { i with
            rxne := false
            tcArmed := i.tcArmed || i.tc
            cr1 := if i.rx.remaining = m.word then i.cr1 &&& ~~~0x20#32 else i.cr1
            rx := if i.rx.remaining = m.word then ⟨.free, none, 0#32, .null⟩
              else { i.rx with cursor := some (c + m.word), remaining := i.rx.remaining - m.word } } ∧
          t.byteAt c = (d.setWidth 16 &&& i.format.rmask).extractLsb' 0 8 ∧
          (m = .two → t.byteAt (c + 1#32) = (d.setWidth 16 &&& i.format.rmask).extractLsb' 8 8) ∧
          MemKeptOutside c m s t ∧
          t.app = s.app ∧ RestKept u s t ∧ t.results = s.results ∧ t.draws = s.draws + 2)

/-- R193: a host ON_IRQ with nothing pending changes only `tc_armed` (and the model's count of SR reads). -/
def Obligations.OnIrqNothingPending : Prop :=
  ∀ (s : State) (u : InstIx), s.app = .idle → s.irqRouted u = false → irqLine s u = false →
    ∃ t, exec (.onIrq u) s = .next t ∧
      t.usart u = { s.usart u with tcArmed := (s.usart u).tcArmed || (s.usart u).tc } ∧
      t.app = .idle ∧ RestKept u s t ∧ MemKept s t ∧ t.results = s.results ∧ t.draws = s.draws + 2

/-- R197, R245, R246: a source pending with no installed callback faults NULL_CALLBACK; in the transmit phase the fault
ends the step before the receive phase, and in the receive phase it keeps what the transmit phase did. -/
def Obligations.NullCallbackFaults : Prop :=
  ∀ (s : State) (u : InstIx),
    let i := s.usart u
    let txPending := i.txe = true ∧ i.cr1.getLsbD 7 = true
    let rxPending := i.rxne = true ∧ i.cr1.getLsbD 5 = true
    let stopped := fun (d : Dir) (t : State) => t.fault = some (.nullCallback u d) ∧
      RestKept u s { t with fault := s.fault } ∧ MemKept s t ∧ t.app = s.app ∧ t.results = s.results
    s.irqRouted u = true ∨ s.app = .idle →
    (txPending → i.tx.callback = .null →
      ∃ t, exec (.onIrq u) s = .next t ∧ stopped .tx t ∧ t.usart u = { i with tcArmed := i.tcArmed || i.tc }) ∧
    (rxPending → i.rx.callback = .null → ¬txPending →
      ∃ t, exec (.onIrq u) s = .next t ∧ stopped .rx t ∧ t.usart u = { i with tcArmed := i.tcArmed || i.tc }) ∧
    (∀ c raw, let n := i.nextSize i.tx.remaining
      rxPending → i.rx.callback = .null → txPending → i.tx.callback = .installed → i.tx.cursor = some c →
      i.tx.remaining ≠ 0#32 → memRead s c n = .ok raw →
        ∃ t, exec (.onIrq u) s = .next t ∧ stopped .rx t ∧ t.usart u = { i with
          tdr := (raw &&& i.format.wmask).setWidth 9
          txe := false
          tc := false
          tcArmed := false
          cr1 := if i.tx.remaining = n.word then i.cr1 &&& ~~~0x80#32 else i.cr1
          tx := if i.tx.remaining = n.word then ⟨.free, none, 0#32, .null⟩
            else { i.tx with cursor := some (c + n.word), remaining := i.tx.remaining - n.word } })

/-- R200: in a state that meets the invariant, an ON_IRQ step that sets no mark leaves the IRQ line of its USART low. -/
def Obligations.ServicedLineIsLow : Prop :=
  ∀ (s t : State) (u : InstIx), Inv s → exec (.onIrq u) s = .next t → Running t → irqLine t u = false

/-! ### Enable, flag read and register access (spec/45_control_and_register_access.md) -/

/-- R205, R207, R216: SET_ENABLED sets or clears UE alone, at once or through the read half of a read-modify-write. -/
def Obligations.SetEnabledTogglesUe : Prop :=
  ∀ (s : State) (u : InstIx) (en : Bool), s.app = .idle →
    ∃ t, exec (.setEnabled u en) s = .next t ∧
      t.usart u = { s.usart u with
        cr1 := if s.params.atomicCr1Rmw = true then
            (if en = true then (s.usart u).cr1 ||| 0x2000#32 else (s.usart u).cr1 &&& ~~~0x2000#32)
          else (s.usart u).cr1 } ∧
      t.app = (if s.params.atomicCr1Rmw = true then .idle
        else if en = true then .rmw u (s.usart u).cr1 0x2000#32 0#32
        else .rmw u (s.usart u).cr1 0#32 0x2000#32) ∧
      RestKept u s t ∧ MemKept s t ∧ t.results = s.results ∧ t.draws = s.draws

/-- R216: RMW_COMMIT writes the latched word with its set and clear bits applied, whatever CR1 holds by then, and returns
to IDLE. -/
def Obligations.RmwCommitWritesLatch : Prop :=
  ∀ (s : State) (u : InstIx) (latch set clr : Word), s.app = .rmw u latch set clr →
    ∃ t, exec (.rmwCommit u) s = .next t ∧
      t.usart u = { s.usart u with cr1 := (latch ||| set) &&& ~~~clr } ∧
      t.app = .idle ∧ RestKept u s t ∧ MemKept s t ∧ t.results = s.results ∧ t.draws = s.draws

/-- R206: SET_ENABLED twice with the same value leaves the same state as once, with UE at that value. -/
def Obligations.SetEnabledIdempotent : Prop :=
  ∀ (s : State) (u : InstIx) (en : Bool), s.app = .idle →
    ∃ t, setEnabledWhole u en s = .next t ∧ (t.usart u).cr1.getLsbD 13 = en ∧ setEnabledWhole u en t = .next t

/-- R282: an ON_IRQ that completes a direction between the two halves of a read-modify-write is undone by the commit: the
direction's interrupt enable is set again with the direction FREE and no callback. -/
def Obligations.LostUpdateOfCr1 : Prop :=
  ∀ (s t v : State) (u : InstIx) (latch set clr : Word),
    let i := s.usart u
    s.app = .rmw u latch set clr → s.irqRouted u = true → s.fault = none →
    exec (.onIrq u) s = .next t → t.fault = none → exec (.rmwCommit u) t = .next v →
    (latch.getLsbD 5 = true → clr.getLsbD 5 = false → i.rxne = true → i.rxneie = true → i.rx.status = .busy →
      i.rx.callback = .installed → i.rx.cursor ≠ none → i.rx.remaining = (i.nextSize i.rx.remaining).word →
        (t.usart u).rxneie = false ∧ (v.usart u).rxneie = true ∧ (v.usart u).rx = ⟨.free, none, 0#32, .null⟩) ∧
    (latch.getLsbD 7 = true → clr.getLsbD 7 = false → i.txe = true → i.txeie = true → i.tx.status = .busy →
      i.tx.callback = .installed → i.tx.cursor ≠ none → i.tx.remaining = (i.nextSize i.tx.remaining).word →
        (t.usart u).txeie = false ∧ (v.usart u).txeie = true ∧ (v.usart u).tx = ⟨.free, none, 0#32, .null⟩)

/-- R208, R209: READ_FLAG appends 1 or 0 for the flag, and may arm `tc_armed`; no flag changes. -/
def Obligations.ReadFlagAppendsFlag : Prop :=
  ∀ (s : State) (u : InstIx) (f : Flag), s.app = .idle →
    let i := s.usart u
    ∃ t, exec (.readFlag u f) s = .next t ∧
      t.results = s.results ++
        [if (match f with | .txe => i.txe | .tc => i.tc | .rxne => i.rxne) = true then 1#32 else 0#32] ∧
      t.usart u = { i with tcArmed := i.tcArmed || i.tc } ∧
      t.app = .idle ∧ RestKept u s t ∧ MemKept s t ∧ t.draws = s.draws + 1

/-- R211, R230: REG_READ SR appends a word whose bits 7, 6 and 5 are TXE, TC and RXNE and whose bits from 10 on are 0
(the other seven are free values); it may arm `tc_armed`. -/
def Obligations.SrReadAppendsFlags : Prop :=
  ∀ (s : State) (u : InstIx), s.app = .idle →
    ∃ t w, exec (.regRead u .sr) s = .next t ∧ t.results = s.results ++ [w] ∧
      w.getLsbD 7 = (s.usart u).txe ∧ w.getLsbD 6 = (s.usart u).tc ∧ w.getLsbD 5 = (s.usart u).rxne ∧
      (∀ b, 10 ≤ b → w.getLsbD b = false) ∧
      t.usart u = { s.usart u with tcArmed := (s.usart u).tcArmed || (s.usart u).tc } ∧
      t.app = .idle ∧ RestKept u s t ∧ MemKept s t ∧ t.draws = s.draws + 1

/-- R210, R212, R243: REG_READ of the other registers: BRR and the control words as they are; DR gives RDR zero-extended
and clears RXNE, or faults UNWRITTEN_RDR with nothing changed before any frame arrived. -/
def Obligations.RegReadAppendsRegister : Prop :=
  ∀ (s : State) (u : InstIx), s.app = .idle →
    let i := s.usart u
    (∀ r, r ≠ .sr → r ≠ .dr → ∃ t, exec (.regRead u r) s = .next t ∧
      t.results = s.results ++
        [match r with | .brr => i.brr | .cr1 => i.cr1 | .cr2 => i.cr2 | .cr3 => i.cr3 | .sr => 0#32 | .dr => 0#32] ∧
      t.usart u = i ∧ t.app = .idle ∧ RestKept u s t ∧ MemKept s t ∧ t.draws = s.draws) ∧
    (∀ d, i.rdr = some d → ∃ t, exec (.regRead u .dr) s = .next t ∧ t.results = s.results ++ [d.setWidth 32] ∧
      t.usart u = { i with rxne := false } ∧ t.app = .idle ∧ RestKept u s t ∧ MemKept s t ∧ t.draws = s.draws) ∧
    (i.rdr = none → exec (.regRead u .dr) s = .next (s.raise (.unwrittenRdr u)))

/-- R213 to R215, R229: REG_WRITE stores the word; DR makes the transmit write with its flag effects; SR, and a control
word with a not-modelled bit, are refused with no other effect. -/
def Obligations.RegWriteStores : Prop :=
  ∀ (s : State) (u : InstIx) (value : Word), s.app = .idle →
    let i := s.usart u
    let kept := fun t : State => t.app = .idle ∧ RestKept u s t ∧ MemKept s t ∧ t.results = s.results ∧ t.draws = s.draws
    exec (.regWrite u .sr value) s = .next (s.refuse .srWrite) ∧
    (∃ t, exec (.regWrite u .dr value) s = .next t ∧ kept t ∧
      t.usart u = { i with
        tdr := value.extractLsb' 0 9
        txe := false
        tc := i.tc && !i.tcArmed
        tcArmed := false
        tdrLost := if i.txe = true then i.tdrLost else i.tdrLost + 1 }) ∧
    (∃ t, exec (.regWrite u .brr value) s = .next t ∧ kept t ∧
      t.usart u = { i with brr := (t.usart u).brr } ∧
      (t.usart u).brr.toNat = value.toNat % 2 ^ (if s.params.brrWidth = .w16 then 16 else 32)) ∧
    (value &&& ~~~0xB6AC#32 ≠ 0#32 → exec (.regWrite u .cr1 value) s = .next (s.refuse .unmodelledBit)) ∧
    (value &&& ~~~0xB6AC#32 = 0#32 → ∃ t, exec (.regWrite u .cr1 value) s = .next t ∧ kept t ∧
      t.usart u = { i with cr1 := value }) ∧
    (value &&& ~~~0x3000#32 ≠ 0#32 → exec (.regWrite u .cr2 value) s = .next (s.refuse .unmodelledBit)) ∧
    (value &&& ~~~0x3000#32 = 0#32 → ∃ t, exec (.regWrite u .cr2 value) s = .next t ∧ kept t ∧
      t.usart u = { i with cr2 := value }) ∧
    (value &&& ~~~0x0300#32 ≠ 0#32 → exec (.regWrite u .cr3 value) s = .next (s.refuse .unmodelledBit)) ∧
    (value &&& ~~~0x0300#32 = 0#32 → ∃ t, exec (.regWrite u .cr3 value) s = .next t ∧ kept t ∧
      t.usart u = { i with cr3 := value })

/-! ### The line side (spec/46_line_side.md) -/

/-- R226, R233: an enabled EV_TX_LOAD moves TDR, masked to the frame length of CR1.M, into the shift register and sets
TXE. -/
def Obligations.TxLoadMovesFrame : Prop :=
  ∀ (s : State) (u : InstIx),
    let i := s.usart u
    i.cr1.getLsbD 13 = true → i.cr1.getLsbD 3 = true → i.txe = false → i.shifter = none →
      ∃ t, exec (.evTxLoad u) s = .next t ∧
        t.usart u = { i with
          shifter := some (i.tdr &&& (if i.cr1.getLsbD 12 = true then 0x1FF#9 else 0xFF#9)), txe := true } ∧
        t.app = s.app ∧ RestKept u s t ∧ MemKept s t ∧ t.results = s.results ∧ t.draws = s.draws

/-- R227, R228: an enabled EV_TX_DONE appends the frame to the line, sets TC iff no unit waits, and, with register
loopback and RE = 1, delivers the frame to the own receiver. -/
def Obligations.TxDoneFinishesFrame : Prop :=
  ∀ (s : State) (u : InstIx) (v : Frame),
    let i := s.usart u
    let back := s.loopback u = .register ∧ i.cr1.getLsbD 2 = true
    i.cr1.getLsbD 13 = true → i.cr1.getLsbD 3 = true → i.shifter = some v →
      ∃ t, exec (.evTxDone u) s = .next t ∧
        t.usart u = { i with
          lineOut := i.lineOut ++ [v]
          shifter := none
          tc := if i.txe = true then true else i.tc
          tcArmed := if i.txe = true then false else i.tcArmed
          rdr := if back ∧ i.rxne = false then
              some (v &&& (if i.cr1.getLsbD 12 = true then 0x1FF#9 else 0xFF#9)) else i.rdr
          rxne := if back then true else i.rxne
          rxLost := if back ∧ i.rxne = true then i.rxLost + 1 else i.rxLost } ∧
        t.app = s.app ∧ RestKept u s t ∧ MemKept s t ∧ t.results = s.results ∧ t.draws = s.draws

/-- R228, R225: an enabled EV_RX_FRAME is kept in RDR with RXNE set, or dropped and counted while RXNE = 1. -/
def Obligations.RxFrameArrives : Prop :=
  ∀ (s : State) (u : InstIx) (v : Frame),
    let i := s.usart u
    i.cr1.getLsbD 13 = true → i.cr1.getLsbD 2 = true → s.loopback u = .off →
      ∃ t, exec (.evRxFrame u v) s = .next t ∧
        t.usart u = { i with
          rdr := if i.rxne = true then i.rdr
            else some (v &&& (if i.cr1.getLsbD 12 = true then 0x1FF#9 else 0xFF#9))
          rxne := true
          rxLost := if i.rxne = true then i.rxLost + 1 else i.rxLost } ∧
        t.app = s.app ∧ RestKept u s t ∧ MemKept s t ∧ t.results = s.results ∧ t.draws = s.draws

/-- R225, R232, R235: a line step that is not enabled changes nothing: none with UE = 0, no transmit step with TE = 0, no
frame from outside with RE = 0 or under register loopback. -/
def Obligations.GatedLineHolds : Prop :=
  ∀ (s : State) (u : InstIx) (v : Frame),
    let i := s.usart u
    (i.cr1.getLsbD 13 = false ∨ i.cr1.getLsbD 3 = false ∨ i.txe = true ∨ i.shifter ≠ none →
      exec (.evTxLoad u) s = .next s) ∧
    (i.cr1.getLsbD 13 = false ∨ i.cr1.getLsbD 3 = false ∨ i.shifter = none → exec (.evTxDone u) s = .next s) ∧
    (i.cr1.getLsbD 13 = false ∨ i.cr1.getLsbD 2 = false ∨ s.loopback u = .register →
      exec (.evRxFrame u v) s = .next s)

/-! ### Whole-machine rules -/

/-- R40, R45 (I2 to I4), R37, R41, R88, R231 and the canonical form of memory: every step keeps the invariant, from every
state that meets it. -/
def Obligations.EveryStepKeepsInvariant : Prop :=
  ∀ s t : State, Inv s → step s = .next t → Inv t

/-- R30, R274: no step changes the parameters or any configuration record. -/
def Obligations.ConfigurationNeverChanges : Prop :=
  ∀ s t : State, step s = .next t → t.params = s.params ∧ ∀ u : InstIx, (t.usart u).cfg = (s.usart u).cfg

/-- R261, R199: an operation changes no USART but the one it names. -/
def Obligations.OneUsartPerOperation : Prop :=
  ∀ (i : Instr) (s t : State) (v : InstIx), exec i s = .next t → v ≠ i.inst → t.usart v = s.usart v

/-- R54, R175, R178: who writes what. Only the transmit request and callback write `tx`, only the receive ones `rx`; only
the receive steps write buffer memory; only READ_FLAG and REG_READ the results; only EV_TX_DONE the line; only INIT and
REG_WRITE the words CR2, CR3 and BRR. -/
def Obligations.OnlyListedWriters : Prop :=
  ∀ (i : Instr) (s t : State) (u : InstIx), exec i s = .next t →
    ((i ≠ .txStep u ∧ i ≠ .onIrq u ∧ ∀ b l, i ≠ .txAsync u b l) → (t.usart u).tx = (s.usart u).tx) ∧
    ((i ≠ .rxStep u ∧ i ≠ .onIrq u ∧ ∀ b l, i ≠ .rxAsync u b l) → (t.usart u).rx = (s.usart u).rx) ∧
    ((∀ v, i ≠ .rxStep v ∧ i ≠ .onIrq v ∧ i ≠ .blkRxUnit v) → MemKept s t) ∧
    ((∀ v f r, i ≠ .readFlag v f ∧ i ≠ .regRead v r) → t.results = s.results) ∧
    (i ≠ .evTxDone u → (t.usart u).lineOut = (s.usart u).lineOut) ∧
    ((i ≠ .init u ∧ ∀ r x, i ≠ .regWrite u r x) →
      (t.usart u).cr2 = (s.usart u).cr2 ∧ (t.usart u).cr3 = (s.usart u).cr3 ∧ (t.usart u).brr = (s.usart u).brr)

/-- R229: only a raw REG_WRITE of DR by the host counts a lost unit; no step of an engine overwrites one. -/
def Obligations.OnlyRawWriteLosesUnit : Prop :=
  ∀ (s t : State) (u : InstIx), step s = .next t → (t.usart u).tdrLost ≠ (s.usart u).tdrLost →
    (t.usart u).tdrLost = (s.usart u).tdrLost + 1 ∧ (s.usart u).txe = false ∧
      ∃ ws rest x, s.schedule = .issue .host ws :: rest ∧ decode s.params.nInst ws = .ok (.regWrite u .dr x)

/-- R45 I1: with an atomic read-modify-write of CR1, every operation but a raw REG_WRITE of CR1 and an INIT on a BUSY
direction keeps "BUSY iff its interrupt is enabled". -/
def Obligations.BusyIffEnabledWithoutBypass : Prop :=
  ∀ (i : Instr) (s t : State), s.params.atomicCr1Rmw = true → Inv s → (∀ u l x c, s.app ≠ .rmw u l x c) →
    (∀ u : InstIx, (s.usart u).busyIffEnabled = true) →
    (∀ u x, i ≠ .regWrite u .cr1 x) →
    (∀ u, i = .init u → (s.usart u).tx.status = .free ∧ (s.usart u).rx.status = .free) →
    exec i s = .next t →
      (∀ u : InstIx, (t.usart u).busyIffEnabled = true) ∧ (∀ u l x c, t.app ≠ .rmw u l x c)

/-- R139: a unit sent and received back through a frame of the configured length is stored as the rule says, in each of
the four configurations. -/
def Obligations.LoopbackRoundTrip : Prop :=
  ∀ (i : Inst) (raw : Half), i.m = decide (i.cfg.wordLength = .nine) →
    let stored := i.storedUnit (i.sentFrame raw &&& i.frameMask)
    (i.cfg.wordLength = .nine → i.cfg.parity = .none → stored = raw &&& 0x1FF#16) ∧
    (i.cfg.wordLength = .eight → i.cfg.parity = .none → stored = raw &&& 0x7F#16) ∧
    (i.cfg.parity ≠ .none → stored = raw &&& 0xFF#16)

/-- R81, R71: between its commands the host writes or reads one byte of buffer memory; a write changes nothing else and a
read nothing at all, a byte that does not exist faults, and outside IDLE neither is made. -/
def Obligations.HostAccessesMemory : Prop :=
  ∀ (s : State) (a : Word) (rest : List Turn), Running s →
    (∀ b : Byte, s.schedule = .hostWrite a b :: rest → Memory.wf s.mem = true →
      (s.app = .idle → memValid s a = true → ∃ t, step s = .next t ∧ t.byteAt a = b ∧
        (∀ x, x ≠ a → t.byteAt x = s.byteAt x) ∧ { t with mem := s.mem, schedule := s.schedule } = s) ∧
      (s.app = .idle → memValid s a = false → step s = .next ((s.setSchedule rest).raise (.busFault a))) ∧
      (s.app ≠ .idle → step s = .next (s.setSchedule rest))) ∧
    (s.schedule = .hostRead a :: rest →
      (s.app = .idle → memValid s a = true →
        step s = .next (s.setSchedule rest) ∧ memRead s a .one = .ok ((s.byteAt a).setWidth 16)) ∧
      (s.app = .idle → memValid s a = false →
        step s = .next ((s.setSchedule rest).raise (.busFault a)) ∧ memRead s a .one = .error (.busFault a)) ∧
      (s.app ≠ .idle → step s = .next (s.setSchedule rest)))
end

