-- ==== Sys2Proof/Laws/State.lean ====
section
/-! SUPPORT. One small lemma per field and update of State, and the access laws of one USART: later proofs cite these
and unfold no record update. -/

namespace Sys2Proof.Machine

/-! ### USART access -/

theorem State.usart_setUsart (s : State) (u v : InstIx) (i : Inst) :
    (s.setUsart u i).usart v = if v = u then i else s.usart v := by
  simp only [State.usart, State.setUsart, Vector.get_eq_getElem, Vector.getElem_set, Fin.ext_iff, eq_comm]

@[simp] theorem State.usart_setUsart_same (s : State) (u : InstIx) (i : Inst) : (s.setUsart u i).usart u = i := by
  simp [State.usart_setUsart]

theorem State.usart_setUsart_other (s : State) {u v : InstIx} (i : Inst) (h : v ≠ u) :
    (s.setUsart u i).usart v = s.usart v := by
  simp [State.usart_setUsart, h]

@[simp] theorem State.setUsart_setUsart (s : State) (u : InstIx) (i j : Inst) :
    (s.setUsart u i).setUsart u j = s.setUsart u j := by
  simp [State.setUsart]

@[simp] theorem State.setUsart_usart (s : State) (u : InstIx) : s.setUsart u (s.usart u) = s := by
  cases s
  simp [State.setUsart, State.usart, Vector.get_eq_getElem]

/-- Writing the same USART back through a changed field. -/
theorem State.setUsart_id (s : State) (u : InstIx) (i : Inst) (h : i = s.usart u) : s.setUsart u i = s := by
  subst h; simp

@[simp] theorem State.setUsart_params (s : State) (u : InstIx) (i : Inst) : (s.setUsart u i).params = s.params := rfl
@[simp] theorem State.setUsart_app (s : State) (u : InstIx) (i : Inst) : (s.setUsart u i).app = s.app := rfl
@[simp] theorem State.setUsart_mem (s : State) (u : InstIx) (i : Inst) : (s.setUsart u i).mem = s.mem := rfl
@[simp] theorem State.setUsart_results (s : State) (u : InstIx) (i : Inst) : (s.setUsart u i).results = s.results := rfl
@[simp] theorem State.setUsart_fault (s : State) (u : InstIx) (i : Inst) : (s.setUsart u i).fault = s.fault := rfl
@[simp] theorem State.setUsart_refused (s : State) (u : InstIx) (i : Inst) : (s.setUsart u i).refused = s.refused := rfl
@[simp] theorem State.setUsart_draws (s : State) (u : InstIx) (i : Inst) : (s.setUsart u i).draws = s.draws := rfl
@[simp] theorem State.setUsart_schedule (s : State) (u : InstIx) (i : Inst) :
    (s.setUsart u i).schedule = s.schedule := rfl

/-! ### Updates that leave every USART alone -/

@[simp] theorem State.usart_setApp (s : State) (a : AppState) (u : InstIx) : (s.setApp a).usart u = s.usart u := rfl
@[simp] theorem State.usart_setSchedule (s : State) (q : List Turn) (u : InstIx) :
    (s.setSchedule q).usart u = s.usart u := rfl
@[simp] theorem State.usart_nextDraw (s : State) (u : InstIx) : s.nextDraw.usart u = s.usart u := rfl
@[simp] theorem State.usart_raise (s : State) (f : Fault) (u : InstIx) : (s.raise f).usart u = s.usart u := rfl
@[simp] theorem State.usart_refuse (s : State) (r : Refusal) (u : InstIx) : (s.refuse r).usart u = s.usart u := rfl
@[simp] theorem State.usart_emit (s : State) (v : Word) (u : InstIx) : (s.emit v).usart u = s.usart u := rfl
@[simp] theorem State.usart_setByte (s : State) (a : Word) (b : Byte) (u : InstIx) :
    (s.setByte a b).usart u = s.usart u := rfl

/-! ### setApp, setSchedule, nextDraw, raise, refuse, emit, setByte: every field -/

@[simp] theorem State.setApp_params (s : State) (a : AppState) : (s.setApp a).params = s.params := rfl
@[simp] theorem State.setApp_app (s : State) (a : AppState) : (s.setApp a).app = a := rfl
@[simp] theorem State.setApp_mem (s : State) (a : AppState) : (s.setApp a).mem = s.mem := rfl
@[simp] theorem State.setApp_results (s : State) (a : AppState) : (s.setApp a).results = s.results := rfl
@[simp] theorem State.setApp_fault (s : State) (a : AppState) : (s.setApp a).fault = s.fault := rfl
@[simp] theorem State.setApp_refused (s : State) (a : AppState) : (s.setApp a).refused = s.refused := rfl
@[simp] theorem State.setApp_draws (s : State) (a : AppState) : (s.setApp a).draws = s.draws := rfl
@[simp] theorem State.setApp_schedule (s : State) (a : AppState) : (s.setApp a).schedule = s.schedule := rfl

@[simp] theorem State.setSchedule_params (s : State) (q : List Turn) : (s.setSchedule q).params = s.params := rfl
@[simp] theorem State.setSchedule_app (s : State) (q : List Turn) : (s.setSchedule q).app = s.app := rfl
@[simp] theorem State.setSchedule_mem (s : State) (q : List Turn) : (s.setSchedule q).mem = s.mem := rfl
@[simp] theorem State.setSchedule_results (s : State) (q : List Turn) : (s.setSchedule q).results = s.results := rfl
@[simp] theorem State.setSchedule_fault (s : State) (q : List Turn) : (s.setSchedule q).fault = s.fault := rfl
@[simp] theorem State.setSchedule_refused (s : State) (q : List Turn) : (s.setSchedule q).refused = s.refused := rfl
@[simp] theorem State.setSchedule_draws (s : State) (q : List Turn) : (s.setSchedule q).draws = s.draws := rfl
@[simp] theorem State.setSchedule_schedule (s : State) (q : List Turn) : (s.setSchedule q).schedule = q := rfl

@[simp] theorem State.nextDraw_params (s : State) : s.nextDraw.params = s.params := rfl
@[simp] theorem State.nextDraw_app (s : State) : s.nextDraw.app = s.app := rfl
@[simp] theorem State.nextDraw_mem (s : State) : s.nextDraw.mem = s.mem := rfl
@[simp] theorem State.nextDraw_results (s : State) : s.nextDraw.results = s.results := rfl
@[simp] theorem State.nextDraw_fault (s : State) : s.nextDraw.fault = s.fault := rfl
@[simp] theorem State.nextDraw_refused (s : State) : s.nextDraw.refused = s.refused := rfl
@[simp] theorem State.nextDraw_draws (s : State) : s.nextDraw.draws = s.draws + 1 := rfl
@[simp] theorem State.nextDraw_schedule (s : State) : s.nextDraw.schedule = s.schedule := rfl

@[simp] theorem State.raise_params (s : State) (f : Fault) : (s.raise f).params = s.params := rfl
@[simp] theorem State.raise_app (s : State) (f : Fault) : (s.raise f).app = s.app := rfl
@[simp] theorem State.raise_mem (s : State) (f : Fault) : (s.raise f).mem = s.mem := rfl
@[simp] theorem State.raise_results (s : State) (f : Fault) : (s.raise f).results = s.results := rfl
@[simp] theorem State.raise_fault (s : State) (f : Fault) : (s.raise f).fault = some f := rfl
@[simp] theorem State.raise_refused (s : State) (f : Fault) : (s.raise f).refused = s.refused := rfl
@[simp] theorem State.raise_draws (s : State) (f : Fault) : (s.raise f).draws = s.draws := rfl
@[simp] theorem State.raise_schedule (s : State) (f : Fault) : (s.raise f).schedule = s.schedule := rfl

@[simp] theorem State.refuse_params (s : State) (r : Refusal) : (s.refuse r).params = s.params := rfl
@[simp] theorem State.refuse_app (s : State) (r : Refusal) : (s.refuse r).app = s.app := rfl
@[simp] theorem State.refuse_mem (s : State) (r : Refusal) : (s.refuse r).mem = s.mem := rfl
@[simp] theorem State.refuse_results (s : State) (r : Refusal) : (s.refuse r).results = s.results := rfl
@[simp] theorem State.refuse_fault (s : State) (r : Refusal) : (s.refuse r).fault = s.fault := rfl
@[simp] theorem State.refuse_refused (s : State) (r : Refusal) : (s.refuse r).refused = some r := rfl
@[simp] theorem State.refuse_draws (s : State) (r : Refusal) : (s.refuse r).draws = s.draws := rfl
@[simp] theorem State.refuse_schedule (s : State) (r : Refusal) : (s.refuse r).schedule = s.schedule := rfl

@[simp] theorem State.emit_params (s : State) (v : Word) : (s.emit v).params = s.params := rfl
@[simp] theorem State.emit_app (s : State) (v : Word) : (s.emit v).app = s.app := rfl
@[simp] theorem State.emit_mem (s : State) (v : Word) : (s.emit v).mem = s.mem := rfl
@[simp] theorem State.emit_results (s : State) (v : Word) : (s.emit v).results = s.results ++ [v] := rfl
@[simp] theorem State.emit_fault (s : State) (v : Word) : (s.emit v).fault = s.fault := rfl
@[simp] theorem State.emit_refused (s : State) (v : Word) : (s.emit v).refused = s.refused := rfl
@[simp] theorem State.emit_draws (s : State) (v : Word) : (s.emit v).draws = s.draws := rfl
@[simp] theorem State.emit_schedule (s : State) (v : Word) : (s.emit v).schedule = s.schedule := rfl

@[simp] theorem State.setByte_params (s : State) (a : Word) (b : Byte) : (s.setByte a b).params = s.params := rfl
@[simp] theorem State.setByte_app (s : State) (a : Word) (b : Byte) : (s.setByte a b).app = s.app := rfl
@[simp] theorem State.setByte_mem (s : State) (a : Word) (b : Byte) :
    (s.setByte a b).mem = Memory.write s.mem a.toNat b := rfl
@[simp] theorem State.setByte_results (s : State) (a : Word) (b : Byte) : (s.setByte a b).results = s.results := rfl
@[simp] theorem State.setByte_fault (s : State) (a : Word) (b : Byte) : (s.setByte a b).fault = s.fault := rfl
@[simp] theorem State.setByte_refused (s : State) (a : Word) (b : Byte) : (s.setByte a b).refused = s.refused := rfl
@[simp] theorem State.setByte_draws (s : State) (a : Word) (b : Byte) : (s.setByte a b).draws = s.draws := rfl
@[simp] theorem State.setByte_schedule (s : State) (a : Word) (b : Byte) : (s.setByte a b).schedule = s.schedule := rfl

/-! ### The state after a read of SR and after a write of DR -/

@[simp] theorem afterReadSR_params (s : State) (u : InstIx) : (afterReadSR s u).params = s.params := rfl
@[simp] theorem afterReadSR_app (s : State) (u : InstIx) : (afterReadSR s u).app = s.app := rfl
@[simp] theorem afterReadSR_mem (s : State) (u : InstIx) : (afterReadSR s u).mem = s.mem := rfl
@[simp] theorem afterReadSR_results (s : State) (u : InstIx) : (afterReadSR s u).results = s.results := rfl
@[simp] theorem afterReadSR_fault (s : State) (u : InstIx) : (afterReadSR s u).fault = s.fault := rfl
@[simp] theorem afterReadSR_refused (s : State) (u : InstIx) : (afterReadSR s u).refused = s.refused := rfl
@[simp] theorem afterReadSR_draws (s : State) (u : InstIx) : (afterReadSR s u).draws = s.draws + 1 := rfl
@[simp] theorem afterReadSR_schedule (s : State) (u : InstIx) : (afterReadSR s u).schedule = s.schedule := rfl

@[simp] theorem afterReadSR_usart_same (s : State) (u : InstIx) :
    (afterReadSR s u).usart u = { s.usart u with tcArmed := (s.usart u).tcArmed || (s.usart u).tc } := by
  simp [afterReadSR]

theorem afterReadSR_usart_other (s : State) {u v : InstIx} (h : v ≠ u) : (afterReadSR s u).usart v = s.usart v := by
  simp [afterReadSR, State.usart_setUsart_other _ _ h]

@[simp] theorem writeDR_params (s : State) (u : InstIx) (x : Frame) : (writeDR s u x).params = s.params := rfl
@[simp] theorem writeDR_app (s : State) (u : InstIx) (x : Frame) : (writeDR s u x).app = s.app := rfl
@[simp] theorem writeDR_mem (s : State) (u : InstIx) (x : Frame) : (writeDR s u x).mem = s.mem := rfl
@[simp] theorem writeDR_results (s : State) (u : InstIx) (x : Frame) : (writeDR s u x).results = s.results := rfl
@[simp] theorem writeDR_fault (s : State) (u : InstIx) (x : Frame) : (writeDR s u x).fault = s.fault := rfl
@[simp] theorem writeDR_refused (s : State) (u : InstIx) (x : Frame) : (writeDR s u x).refused = s.refused := rfl
@[simp] theorem writeDR_draws (s : State) (u : InstIx) (x : Frame) : (writeDR s u x).draws = s.draws := rfl
@[simp] theorem writeDR_schedule (s : State) (u : InstIx) (x : Frame) : (writeDR s u x).schedule = s.schedule := rfl

@[simp] theorem writeDR_usart_same (s : State) (u : InstIx) (x : Frame) :
    (writeDR s u x).usart u = (s.usart u).writeDR x := by
  simp [writeDR]

theorem writeDR_usart_other (s : State) {u v : InstIx} (x : Frame) (h : v ≠ u) :
    (writeDR s u x).usart v = s.usart v := by
  simp [writeDR, State.usart_setUsart_other _ _ h]

/-! ### Byte and parameter reads depend on memory and parameters only -/

theorem byteAt_congr {s t : State} (h : t.mem = s.mem) (a : Word) : t.byteAt a = s.byteAt a := by
  simp [State.byteAt, h]

@[simp] theorem State.byteAt_setApp (s : State) (x : AppState) (a : Word) : (s.setApp x).byteAt a = s.byteAt a := rfl
@[simp] theorem State.byteAt_nextDraw (s : State) (a : Word) : s.nextDraw.byteAt a = s.byteAt a := rfl
@[simp] theorem State.byteAt_setSchedule (s : State) (q : List Turn) (a : Word) :
    (s.setSchedule q).byteAt a = s.byteAt a := rfl
@[simp] theorem State.byteAt_raise (s : State) (f : Fault) (a : Word) : (s.raise f).byteAt a = s.byteAt a := rfl
@[simp] theorem State.byteAt_refuse (s : State) (r : Refusal) (a : Word) : (s.refuse r).byteAt a = s.byteAt a := rfl
@[simp] theorem State.byteAt_emit (s : State) (v : Word) (a : Word) : (s.emit v).byteAt a = s.byteAt a := rfl
@[simp] theorem State.byteAt_setUsart (s : State) (u : InstIx) (i : Inst) (a : Word) :
    (s.setUsart u i).byteAt a = s.byteAt a := rfl
@[simp] theorem byteAt_afterReadSR (s : State) (u : InstIx) (a : Word) : (afterReadSR s u).byteAt a = s.byteAt a := rfl
@[simp] theorem byteAt_writeDR (s : State) (u : InstIx) (x : Frame) (a : Word) :
    (writeDR s u x).byteAt a = s.byteAt a := rfl

theorem memValid_congr {s t : State} (h : t.params = s.params) (a : Word) : memValid t a = memValid s a := by
  simp [memValid, h]

theorem firstMissing_congr {s t : State} (h : t.params = s.params) (a : Word) (n : UnitSize) :
    firstMissing t a n = firstMissing s a n := by
  simp [firstMissing, memValid_congr h]

end Sys2Proof.Machine
end

