-- ==== Sys2Proof/Laws/Memory.lean ====
section
/-! SUPPORT. Buffer memory: a write is read back and leaves every other byte alone, and every operation keeps the
canonical form. -/

namespace Sys2Proof.Machine

theorem Memory.get?_write (m : Memory) (k j : Nat) (b : Byte) (h : ∃ lo, Memory.risingFrom lo m = true) :
    Memory.get? (Memory.write m k b) j = if j = k then some b else Memory.get? m j := by
  induction m with
  | nil => simp [Memory.write, Memory.get?]
  | cons c m ih =>
    obtain ⟨a, x⟩ := c
    obtain ⟨lo, h⟩ := h
    simp only [Memory.risingFrom, Bool.and_eq_true, decide_eq_true_eq] at h
    simp only [Memory.write]
    split
    · simp [Memory.get?]
    · split
      · rename_i hk; subst hk; simp only [Memory.get?]; split <;> simp_all
      · simp only [Memory.get?, ih ⟨a + 1, h.2⟩]
        split <;> rename_i hj <;> split <;> simp_all

theorem Memory.risingFrom_write (m : Memory) (lo k : Nat) (b : Byte) (hk : lo ≤ k) (hm : k < 2 ^ 32)
    (h : Memory.risingFrom lo m = true) : Memory.risingFrom lo (Memory.write m k b) = true := by
  induction m generalizing lo with
  | nil => simp [Memory.write, Memory.risingFrom, hk]; omega
  | cons c m ih =>
    obtain ⟨a, x⟩ := c
    simp only [Memory.risingFrom, Bool.and_eq_true, decide_eq_true_eq] at h
    simp only [Memory.write]
    split
    · simp only [Memory.risingFrom, Bool.and_eq_true, decide_eq_true_eq]
      exact ⟨⟨hk, hm⟩, ⟨by omega, h.1.2⟩, h.2⟩
    · split
      · rename_i hk'; subst hk'; simp only [Memory.risingFrom, Bool.and_eq_true, decide_eq_true_eq]; exact h
      · simp only [Memory.risingFrom, Bool.and_eq_true, decide_eq_true_eq]
        exact ⟨h.1, ih (a + 1) (by omega) h.2⟩

/-- Writing a byte keeps the canonical form. -/
theorem Memory.wf_write (m : Memory) (a : Word) (b : Byte) (h : Memory.wf m = true) :
    Memory.wf (Memory.write m a.toNat b) = true :=
  Memory.risingFrom_write m 0 a.toNat b (Nat.zero_le _) a.isLt h

theorem State.byteAt_setByte (s : State) (a x : Word) (b : Byte) (h : Memory.wf s.mem = true) :
    (s.setByte a b).byteAt x = if x = a then b else s.byteAt x := by
  simp only [State.byteAt, State.setByte_mem, Memory.get?_write _ _ _ _ ⟨0, h⟩, BitVec.toNat_inj]
  split <;> simp

theorem State.setByte_wf (s : State) (a : Word) (b : Byte) (h : Memory.wf s.mem = true) :
    Memory.wf (s.setByte a b).mem = true := Memory.wf_write _ _ _ h

theorem launch_mem (p : Params) (c : Vector LaunchConfig 16) (m : Memory) (q : List Turn) :
    (State.launch p c m q).mem = m := rfl

theorem reset_mem_wf : Memory.wf State.reset.mem = true := rfl

end Sys2Proof.Machine
end

