-- ==== Sys2Proof/Laws/Ops.lean ====
section
/-! SUPPORT. For each shared operation, one lemma that says once everything it can do; the meanings' proofs cite these
and do not unfold the operation. -/

namespace Sys2Proof.Machine

/-! ### Outcomes -/

@[simp] theorem finish_ok (s : State) : finish (.ok () s) = .next s := rfl
@[simp] theorem finish_raised (f : Fault) (s : State) : finish (.raised f s) = .next (s.raise f) := rfl

/-- A finished sub-operation always answers a next state: its state, or its state with the fault's mark. -/
theorem finish_cases (r : Result Unit) :
    (∃ s, r = .ok () s ∧ finish r = .next s) ∨ ∃ f s, r = .raised f s ∧ finish r = .next (s.raise f) := by
  cases r with
  | ok a s => exact .inl ⟨s, rfl, rfl⟩
  | raised f s => exact .inr ⟨f, s, rfl, rfl⟩

@[simp] theorem asHost_idle (i : Instr) (s : State) (o : Out) (h : s.app = .idle) : asHost i s o = o := by
  simp [asHost, h]

@[simp] theorem asHost_busy (i : Instr) (s : State) (o : Out) (h : s.app ≠ .idle) :
    asHost i s o = .next (s.refuse (.notIssuable (encode i).op)) := by
  simp [asHost, h]

/-- A host command either runs from IDLE or only sets the NOT_ISSUABLE mark. -/
theorem asHost_cases {i : Instr} {s t : State} {o : Out} (h : asHost i s o = .next t) :
    (s.app = .idle ∧ o = .next t) ∨ (s.app ≠ .idle ∧ t = s.refuse (.notIssuable (encode i).op)) := by
  by_cases ha : s.app = .idle
  · exact .inl ⟨ha, by simpa [ha] using h⟩
  · refine .inr ⟨ha, ?_⟩
    rw [asHost_busy _ _ _ ha] at h
    exact (Host.Outcome.next.inj h).symm

/-! ### Buffer memory -/

theorem firstMissing_none_iff (s : State) (a : Word) (n : UnitSize) :
    firstMissing s a n = none ↔ memValid s a = true ∧ (n = .two → memValid s (a + 1#32) = true) := by
  cases n <;> by_cases h : memValid s a = true <;> by_cases h' : memValid s (a + 1#32) = true <;>
    simp [firstMissing, h, h']

theorem memRead_cases (s : State) (a : Word) (n : UnitSize) :
    (∃ x, firstMissing s a n = some x ∧ memRead s a n = .error (.busFault x)) ∨
      (firstMissing s a n = none ∧ memRead s a n = .ok
        (match n with
          | .one => (s.byteAt a).setWidth 16
          | .two => s.byteAt (a + 1#32) ++ s.byteAt a)) := by
  unfold memRead
  cases firstMissing s a n with
  | some x => exact .inl ⟨x, rfl, rfl⟩
  | none => cases n <;> exact .inr ⟨rfl, rfl⟩

/-- What a write that finds its bytes leaves behind. -/
def written (s : State) (a : Word) (n : UnitSize) (v : Half) : State :=
  match n with
  | .one => s.setByte a (v.extractLsb' 0 8)
  | .two => (s.setByte a (v.extractLsb' 0 8)).setByte (a + 1#32) (v.extractLsb' 8 8)

theorem memWrite_cases (s : State) (a : Word) (n : UnitSize) (v : Half) :
    (∃ x, firstMissing s a n = some x ∧ memWrite s a n v = .raised (.busFault x) s) ∨
      (firstMissing s a n = none ∧ memWrite s a n v = .ok () (written s a n v)) := by
  unfold memWrite
  cases firstMissing s a n with
  | some x => exact .inl ⟨x, rfl, rfl⟩
  | none => cases n <;> exact .inr ⟨rfl, rfl⟩

section
variable (s : State) (a : Word) (n : UnitSize) (v : Half)

@[simp] theorem written_params : (written s a n v).params = s.params := by cases n <;> rfl
@[simp] theorem written_app : (written s a n v).app = s.app := by cases n <;> rfl
@[simp] theorem written_results : (written s a n v).results = s.results := by cases n <;> rfl
@[simp] theorem written_fault : (written s a n v).fault = s.fault := by cases n <;> rfl
@[simp] theorem written_refused : (written s a n v).refused = s.refused := by cases n <;> rfl
@[simp] theorem written_draws : (written s a n v).draws = s.draws := by cases n <;> rfl
@[simp] theorem written_schedule : (written s a n v).schedule = s.schedule := by cases n <;> rfl
@[simp] theorem written_usart (u : InstIx) : (written s a n v).usart u = s.usart u := by cases n <;> rfl

theorem written_wf (h : Memory.wf s.mem = true) : Memory.wf (written s a n v).mem = true := by
  cases n with
  | one => exact State.setByte_wf _ _ _ h
  | two => exact State.setByte_wf _ _ _ (State.setByte_wf _ _ _ h)

theorem word_succ_ne (a : Word) : a ≠ a + 1#32 := by bv_omega

theorem written_byteAt_first (h : Memory.wf s.mem = true) : (written s a n v).byteAt a = v.extractLsb' 0 8 := by
  cases n with
  | one => simp [written, State.byteAt_setByte _ _ _ _ h]
  | two =>
    simp [written, State.byteAt_setByte _ _ _ _ h, State.byteAt_setByte _ _ _ _ (State.setByte_wf _ _ _ h)]

theorem written_byteAt_second (h : Memory.wf s.mem = true) :
    (written s a .two v).byteAt (a + 1#32) = v.extractLsb' 8 8 := by
  simp [written, State.byteAt_setByte _ _ _ _ (State.setByte_wf _ _ _ h)]

theorem written_byteAt_other (h : Memory.wf s.mem = true) : MemKeptOutside a n s (written s a n v) := by
  intro x hx hx'
  cases n with
  | one => simp [written, State.byteAt_setByte _ _ _ _ h, hx]
  | two =>
    simp [written, State.byteAt_setByte _ _ _ _ h, State.byteAt_setByte _ _ _ _ (State.setByte_wf _ _ _ h), hx, hx' rfl]

end

/-! ### Data register, units, callbacks -/

/-- The state after RDR was read. -/
def rdrTaken (s : State) (u : InstIx) : State := s.setUsart u { s.usart u with rxne := false }

theorem readDR_cases (s : State) (u : InstIx) :
    ((s.usart u).rdr = none ∧ readDR s u = .raised (.unwrittenRdr u) s) ∨
      ∃ d, (s.usart u).rdr = some d ∧ readDR s u = .ok d (rdrTaken s u) := by
  unfold readDR
  cases h : (s.usart u).rdr with
  | none => exact .inl ⟨rfl, rfl⟩
  | some d => exact .inr ⟨d, rfl, rfl⟩

theorem fetchUnit_cases (s : State) (u : InstIx) (c r : Word) :
    (∃ x, firstMissing s c ((s.usart u).nextSize r) = some x ∧ fetchUnit s u c r = .error (.busFault x)) ∨
      ∃ raw, firstMissing s c ((s.usart u).nextSize r) = none ∧ memRead s c ((s.usart u).nextSize r) = .ok raw ∧
        fetchUnit s u c r = .ok ((s.usart u).sentFrame raw, (s.usart u).nextSize r) := by
  unfold fetchUnit
  obtain ⟨x, hx, he⟩ | ⟨hn, he⟩ := memRead_cases s c ((s.usart u).nextSize r)
  · exact .inl ⟨x, hx, by simp [he]⟩
  · exact .inr ⟨_, hn, he, by simp [he]⟩

theorem storeUnit_cases (s : State) (u : InstIx) (c r : Word) (d : Frame) :
    (∃ x, firstMissing s c ((s.usart u).nextSize r) = some x ∧ storeUnit s u c r d = .raised (.busFault x) s) ∨
      (firstMissing s c ((s.usart u).nextSize r) = none ∧
        storeUnit s u c r d = .ok ((s.usart u).nextSize r)
          (written s c ((s.usart u).nextSize r) ((s.usart u).storedUnit d))) := by
  unfold storeUnit
  obtain ⟨x, hx, he⟩ | ⟨hn, he⟩ := memWrite_cases s c ((s.usart u).nextSize r) ((s.usart u).storedUnit d)
  · exact .inl ⟨x, hx, by simp [he]⟩
  · exact .inr ⟨hn, by simp [he]⟩

theorem pending_none_iff (d : DirState) : d.pending = none ↔ d.cursor = none ∨ d.remaining = 0#32 := by
  unfold DirState.pending
  cases d.cursor <;> simp

theorem pending_some_iff (d : DirState) (c r : Word) :
    d.pending = some (c, r) ↔ d.cursor = some c ∧ d.remaining = r ∧ r ≠ 0#32 := by
  unfold DirState.pending
  cases h : d.cursor with
  | none => simp
  | some x =>
    by_cases hr : d.remaining = 0#32
    · simp [hr]; intro _ h; simp [← h]
    · simp [hr]; rintro - rfl; exact hr

/-- The state after the transmit callback moved a unit. -/
def txMovedState (s : State) (u : InstIx) (c : Word) (raw : Half) (n : UnitSize) : State :=
  s.setUsart u (((s.usart u).writeDR ((s.usart u).sentFrame raw)).txMoved c n)

/-- Everything TX_STEP can do. -/
theorem txCallback_cases (s : State) (u : InstIx) :
    ((s.usart u).tx.callback = .null ∧ txCallback s u = .raised (.nullCallback u .tx) s) ∨
    ((s.usart u).tx.callback = .installed ∧ (s.usart u).tx.pending = none ∧ txCallback s u = .ok () s) ∨
    (∃ c r x, (s.usart u).tx.callback = .installed ∧ (s.usart u).tx.pending = some (c, r) ∧
      firstMissing s c ((s.usart u).nextSize r) = some x ∧ txCallback s u = .raised (.busFault x) s) ∨
    (∃ c r raw, (s.usart u).tx.callback = .installed ∧ (s.usart u).tx.pending = some (c, r) ∧
      firstMissing s c ((s.usart u).nextSize r) = none ∧ memRead s c ((s.usart u).nextSize r) = .ok raw ∧
      txCallback s u = .ok () (txMovedState s u c raw ((s.usart u).nextSize r))) := by
  unfold txCallback
  cases hc : (s.usart u).tx.callback with
  | null => exact .inl ⟨rfl, rfl⟩
  | installed =>
    refine .inr ?_
    cases hp : (s.usart u).tx.pending with
    | none => exact .inl ⟨rfl, rfl, rfl⟩
    | some p =>
      obtain ⟨c, r⟩ := p
      refine .inr ?_
      obtain ⟨x, hx, he⟩ | ⟨raw, hn, hm, he⟩ := fetchUnit_cases s u c r
      · exact .inl ⟨c, r, x, rfl, rfl, hx, by simp [he]⟩
      · refine .inr ⟨c, r, raw, rfl, rfl, hn, hm, ?_⟩
        simp only [he, writeDR_usart_same]
        simp [txMovedState, writeDR]

/-- The state after the receive callback moved a unit. -/
def rxMovedState (s : State) (u : InstIx) (c : Word) (d : Frame) (n : UnitSize) : State :=
  let s2 := written (rdrTaken s u) c n ((s.usart u).storedUnit d)
  s2.setUsart u (({ s.usart u with rxne := false } : Inst).rxMoved c n)

@[simp] theorem rdrTaken_usart_same (s : State) (u : InstIx) :
    (rdrTaken s u).usart u = { s.usart u with rxne := false } := by simp [rdrTaken]

/-- Everything RX_STEP can do. -/
theorem rxCallback_cases (s : State) (u : InstIx) :
    ((s.usart u).rx.callback = .null ∧ rxCallback s u = .raised (.nullCallback u .rx) s) ∨
    ((s.usart u).rx.callback = .installed ∧ (s.usart u).rx.pending = none ∧ rxCallback s u = .ok () s) ∨
    (∃ c r, (s.usart u).rx.callback = .installed ∧ (s.usart u).rx.pending = some (c, r) ∧
      (s.usart u).rdr = none ∧ rxCallback s u = .raised (.unwrittenRdr u) s) ∨
    (∃ c r d x, (s.usart u).rx.callback = .installed ∧ (s.usart u).rx.pending = some (c, r) ∧
      (s.usart u).rdr = some d ∧ firstMissing s c ((s.usart u).nextSize r) = some x ∧
      rxCallback s u = .raised (.busFault x) (rdrTaken s u)) ∨
    (∃ c r d, (s.usart u).rx.callback = .installed ∧ (s.usart u).rx.pending = some (c, r) ∧
      (s.usart u).rdr = some d ∧ firstMissing s c ((s.usart u).nextSize r) = none ∧
      rxCallback s u = .ok () (rxMovedState s u c d ((s.usart u).nextSize r))) := by
  unfold rxCallback
  cases hc : (s.usart u).rx.callback with
  | null => exact .inl ⟨rfl, rfl⟩
  | installed =>
    refine .inr ?_
    cases hp : (s.usart u).rx.pending with
    | none => exact .inl ⟨rfl, rfl, rfl⟩
    | some p =>
      obtain ⟨c, r⟩ := p
      refine .inr ?_
      obtain ⟨hd, he⟩ | ⟨d, hd, he⟩ := readDR_cases s u
      · exact .inl ⟨c, r, rfl, rfl, hd, by simp [he]⟩
      · refine .inr ?_
        have hz : ((rdrTaken s u).usart u).nextSize r = (s.usart u).nextSize r := by simp [Inst.nextSize, Inst.format]
        have hw : ((rdrTaken s u).usart u).storedUnit d = (s.usart u).storedUnit d := by
          simp [Inst.storedUnit, Inst.format]
        have hf : firstMissing (rdrTaken s u) c ((s.usart u).nextSize r) = firstMissing s c ((s.usart u).nextSize r) :=
          firstMissing_congr rfl _ _
        obtain ⟨x, hx, hs⟩ | ⟨hn, hs⟩ := storeUnit_cases (rdrTaken s u) u c r d
        · refine .inl ⟨c, r, d, x, rfl, rfl, hd, ?_, by simp [he, hs]⟩
          rw [← hf, ← hz]; exact hx
        · refine .inr ⟨c, r, d, rfl, rfl, hd, ?_, ?_⟩
          · rw [← hf, ← hz]; exact hn
          · rw [hz, hw] at hs
            simp only [he, hs, written_usart, rdrTaken_usart_same]
            rfl

/-! ### CR1 -/

theorem rmwCr1_cases (s : State) (u : InstIx) (set clr : Word) :
    (s.params.atomicCr1Rmw = true ∧
      rmwCr1 s u set clr = s.setUsart u { s.usart u with cr1 := rmwValue (s.usart u).cr1 set clr }) ∨
    (s.params.atomicCr1Rmw = false ∧ rmwCr1 s u set clr = s.setApp (.rmw u (s.usart u).cr1 set clr)) := by
  unfold rmwCr1
  cases s.params.atomicCr1Rmw <;> simp

/-! ### One step -/

/-- Everything a step can do: stop on a mark, wait with no turn left, or take the first turn out of the schedule. -/
theorem step_cases (s : State) :
    (∃ f, s.fault = some f ∧ step s = .fault f) ∨
    (∃ r, s.fault = none ∧ s.refused = some r ∧ step s = .refused r) ∨
    (Running s ∧ s.schedule = [] ∧ step s = .next s) ∨
    (∃ t rest, Running s ∧ s.schedule = t :: rest ∧ step s = takeTurn t (s.setSchedule rest)) := by
  unfold step Running
  cases hf : s.fault with
  | some f => exact .inl ⟨f, rfl, rfl⟩
  | none =>
    cases hr : s.refused with
    | some r => exact .inr (.inl ⟨r, rfl, rfl, rfl⟩)
    | none =>
      cases hq : s.schedule with
      | nil => exact .inr (.inr (.inl ⟨⟨rfl, rfl⟩, rfl, rfl⟩))
      | cons t rest => exact .inr (.inr (.inr ⟨t, rest, ⟨rfl, rfl⟩, rfl, rfl⟩))

end Sys2Proof.Machine
end

