-- ==== Sys2Proof/Laws/Decode.lean ====
section
/-! SUPPORT. The fields of a packed operation word, read back, and the opcode, register and flag tables inverted. -/

namespace Sys2Proof

@[simp] theorem ofCode_code (o : Opcode) : Opcode.ofCode? o.code = some o := by cases o <;> rfl

theorem code_of_ofCode {c : BitVec 8} {o : Opcode} (h : Opcode.ofCode? c = some o) : o.code = c := by
  have := List.find?_some h
  simpa using this

@[simp] theorem ofIndex_index (r : RegName) : RegName.ofIndex? r.index = some r := by cases r <;> rfl

theorem index_of_ofIndex {c : BitVec 4} {r : RegName} (h : RegName.ofIndex? c = some r) : r.index = c := by
  have := List.find?_some h
  simpa using this

@[simp] theorem ofSelector_selector (f : Flag) : Flag.ofSelector? f.selector = some f := by cases f <;> rfl

theorem selector_of_ofSelector {c : BitVec 4} {f : Flag} (h : Flag.ofSelector? c = some f) : f.selector = c := by
  have := List.find?_some h
  simpa using this

/-- Every bit of a packed operation word. -/
theorem packOp_getLsbD (o : Opcode) (u : InstIx) (reg flag : BitVec 4) (en : BitVec 1) (i : Nat) :
    (packOp o u reg flag en).getLsbD i =
      if i < 1 then en.getLsbD i
      else if i < 8 then false
      else if i < 12 then flag.getLsbD (i - 8)
      else if i < 16 then false
      else if i < 20 then reg.getLsbD (i - 16)
      else if i < 24 then (BitVec.ofFin u : BitVec 4).getLsbD (i - 20)
      else o.code.getLsbD (i - 24) := by
  unfold packOp
  simp only [BitVec.getLsbD_append, BitVec.getLsbD_zero]
  repeat' split
  all_goals first | omega | rfl

section
variable (o : Opcode) (u : InstIx) (reg flag : BitVec 4) (en : BitVec 1)

@[simp] theorem opcField_packOp : opcField (packOp o u reg flag en) = o.code := by
  unfold opcField
  ext i hi
  simp only [BitVec.getElem_extractLsb', packOp_getLsbD]
  grind

@[simp] theorem instField_packOp : instField (packOp o u reg flag en) = u := by
  have h : (packOp o u reg flag en).extractLsb' 20 4 = BitVec.ofFin u := by
    ext i hi
    simp only [BitVec.getElem_extractLsb', packOp_getLsbD]
    grind
  simp [instField, h]

@[simp] theorem regField_packOp : regField (packOp o u reg flag en) = reg := by
  unfold regField
  ext i hi
  simp only [BitVec.getElem_extractLsb', packOp_getLsbD]
  grind

@[simp] theorem flagField_packOp : flagField (packOp o u reg flag en) = flag := by
  unfold flagField
  ext i hi
  simp only [BitVec.getElem_extractLsb', packOp_getLsbD]
  grind

@[simp] theorem enField_packOp : enField (packOp o u reg flag en) = en.getLsbD 0 := by
  unfold enField
  rw [packOp_getLsbD, if_pos (by decide)]

end

end Sys2Proof
end

