-- ==== Sys2Proof/Laws/Exec.lean ====
section
/-! SUPPORT. One inversion lemma per operation: every next state its meaning can answer, with the guard of each. Proofs
over all operations cite these and unfold no meaning. -/

namespace Sys2Proof.Machine

variable {s t : State} {u : InstIx}

/-- What a host command outside IDLE leaves behind. -/
abbrev TurnedAway (i : Instr) (s t : State) : Prop := s.app ≠ .idle ∧ t = s.refuse (.notIssuable (encode i).op)

theorem execInit_cases (h : execInit u s = .next t) :
    TurnedAway (.init u) s t ∨
    (s.app = .idle ∧ t = s.setUsart u { s.usart u with
      cr1 := cr1Init (s.usart u).cfg
      cr2 := cr2Init (s.usart u).cfg
      cr3 := cr3Init (s.usart u).cfg
      brr := brrStored s.params (brrValue s.params.div100Rounding (s.clockHz u) (s.usart u).cfg.baud
        (s.usart u).cfg.oversampling) }) := by
  obtain ⟨ha, h⟩ | h := asHost_cases h
  · exact .inr ⟨ha, (Host.Outcome.next.inj h).symm⟩
  · exact .inl h

theorem execTxBlock_cases {buf len : Word} (h : execTxBlock u buf len s = .next t) :
    TurnedAway (.txBlock u buf len) s t ∨
    (s.app = .idle ∧
      ((bufferWraps buf len = true ∧ t = s.refuse .bufferWrap) ∨
        (bufferWraps buf len = false ∧ len = 0#32 ∧ t = s.setApp (.blkTx u buf 0#32 .waitTc)) ∨
        (bufferWraps buf len = false ∧ len ≠ 0#32 ∧ t = s.setApp (.blkTx u buf len .units)))) := by
  obtain ⟨ha, h⟩ | h := asHost_cases h
  · refine .inr ⟨ha, ?_⟩
    split at h
    · exact .inl ⟨‹_›, (Host.Outcome.next.inj h).symm⟩
    · rename_i hb
      split at h
      · exact .inr (.inl ⟨by simpa using hb, ‹_›, (Host.Outcome.next.inj h).symm⟩)
      · exact .inr (.inr ⟨by simpa using hb, ‹_›, (Host.Outcome.next.inj h).symm⟩)
  · exact .inl h

theorem execRxBlock_cases {buf len : Word} (h : execRxBlock u buf len s = .next t) :
    TurnedAway (.rxBlock u buf len) s t ∨
    (s.app = .idle ∧
      ((bufferWraps buf len = true ∧ t = s.refuse .bufferWrap) ∨
        (bufferWraps buf len = false ∧ len = 0#32 ∧ t = s) ∨
        (bufferWraps buf len = false ∧ len ≠ 0#32 ∧ t = s.setApp (.blkRx u buf len)))) := by
  obtain ⟨ha, h⟩ | h := asHost_cases h
  · refine .inr ⟨ha, ?_⟩
    split at h
    · exact .inl ⟨‹_›, (Host.Outcome.next.inj h).symm⟩
    · rename_i hb
      split at h
      · exact .inr (.inl ⟨by simpa using hb, ‹_›, (Host.Outcome.next.inj h).symm⟩)
      · exact .inr (.inr ⟨by simpa using hb, ‹_›, (Host.Outcome.next.inj h).symm⟩)
  · exact .inl h

/-- The state an accepted transmit request leaves before its read-modify-write of CR1. -/
def txAcceptedState (s : State) (u : InstIx) (buf len : Word) : State :=
  s.setUsart u { s.usart u with tx := DirState.accepted buf len }

/-- The state an accepted receive request leaves before its read-modify-write of CR1. -/
def rxAcceptedState (s : State) (u : InstIx) (buf len : Word) : State :=
  s.setUsart u { s.usart u with rx := DirState.accepted buf len }

theorem execTxAsync_cases {buf len : Word} (h : execTxAsync u buf len s = .next t) :
    TurnedAway (.txAsync u buf len) s t ∨
    (s.app = .idle ∧
      (((s.usart u).tx.status = .busy ∧ t = s) ∨
        ((s.usart u).tx.status = .free ∧ len = 0#32 ∧ t = s.refuse .zeroLength) ∨
        ((s.usart u).tx.status = .free ∧ len ≠ 0#32 ∧ bufferWraps buf len = true ∧ t = s.refuse .bufferWrap) ∨
        ((s.usart u).tx.status = .free ∧ len ≠ 0#32 ∧ bufferWraps buf len = false ∧
          t = rmwCr1 (txAcceptedState s u buf len) u bitTXEIE 0#32))) := by
  obtain ⟨ha, h⟩ | h := asHost_cases h
  · refine .inr ⟨ha, ?_⟩
    cases hs : (s.usart u).tx.status with
    | busy => exact .inl ⟨rfl, by simpa [hs, eq_comm] using h⟩
    | free =>
      refine .inr ?_
      simp only [hs, reduceCtorEq, if_false] at h
      split at h
      · exact .inl ⟨rfl, ‹_›, (Host.Outcome.next.inj h).symm⟩
      · split at h
        · exact .inr (.inl ⟨rfl, ‹_›, ‹_›, (Host.Outcome.next.inj h).symm⟩)
        · rename_i hb
          exact .inr (.inr ⟨rfl, ‹_›, by simpa using hb, (Host.Outcome.next.inj h).symm⟩)
  · exact .inl h

theorem execRxAsync_cases {buf len : Word} (h : execRxAsync u buf len s = .next t) :
    TurnedAway (.rxAsync u buf len) s t ∨
    (s.app = .idle ∧
      (((s.usart u).rx.status = .busy ∧ t = s) ∨
        ((s.usart u).rx.status = .free ∧ len = 0#32 ∧ t = s.refuse .zeroLength) ∨
        ((s.usart u).rx.status = .free ∧ len ≠ 0#32 ∧ bufferWraps buf len = true ∧ t = s.refuse .bufferWrap) ∨
        ((s.usart u).rx.status = .free ∧ len ≠ 0#32 ∧ bufferWraps buf len = false ∧
          t = rmwCr1 (rxAcceptedState s u buf len) u bitRXNEIE 0#32))) := by
  obtain ⟨ha, h⟩ | h := asHost_cases h
  · refine .inr ⟨ha, ?_⟩
    cases hs : (s.usart u).rx.status with
    | busy => exact .inl ⟨rfl, by simpa [hs, eq_comm] using h⟩
    | free =>
      refine .inr ?_
      simp only [hs, reduceCtorEq, if_false] at h
      split at h
      · exact .inl ⟨rfl, ‹_›, (Host.Outcome.next.inj h).symm⟩
      · split at h
        · exact .inr (.inl ⟨rfl, ‹_›, ‹_›, (Host.Outcome.next.inj h).symm⟩)
        · rename_i hb
          exact .inr (.inr ⟨rfl, ‹_›, by simpa using hb, (Host.Outcome.next.inj h).symm⟩)
  · exact .inl h

theorem execSetEnabled_cases {en : Bool} (h : execSetEnabled u en s = .next t) :
    TurnedAway (.setEnabled u en) s t ∨
    (s.app = .idle ∧
      ((en = true ∧ t = rmwCr1 s u bitUE 0#32) ∨ (en = false ∧ t = rmwCr1 s u 0#32 bitUE))) := by
  obtain ⟨ha, h⟩ | h := asHost_cases h
  · refine .inr ⟨ha, ?_⟩
    cases en with
    | true => exact .inl ⟨rfl, (Host.Outcome.next.inj h).symm⟩
    | false => exact .inr ⟨rfl, (Host.Outcome.next.inj h).symm⟩
  · exact .inl h

theorem execReadFlag_cases {f : Flag} (h : execReadFlag u f s = .next t) :
    TurnedAway (.readFlag u f) s t ∨
    (s.app = .idle ∧ t = (afterReadSR s u).emit (if (srView s u).flag f then 1#32 else 0#32)) := by
  obtain ⟨ha, h⟩ | h := asHost_cases h
  · exact .inr ⟨ha, (Host.Outcome.next.inj h).symm⟩
  · exact .inl h

theorem execRegRead_cases {r : RegName} (h : execRegRead u r s = .next t) :
    TurnedAway (.regRead u r) s t ∨
    (s.app = .idle ∧
      ((r = .sr ∧ t = (afterReadSR s u).emit (srView s u).word) ∨
        (r = .dr ∧ (s.usart u).rdr = none ∧ t = s.raise (.unwrittenRdr u)) ∨
        (r = .dr ∧ ∃ d, (s.usart u).rdr = some d ∧ t = (rdrTaken s u).emit (d.setWidth 32)) ∨
        (r ≠ .sr ∧ r ≠ .dr ∧ ∃ v, t = s.emit v))) := by
  obtain ⟨ha, h⟩ | h := asHost_cases h
  · refine .inr ⟨ha, ?_⟩
    cases r with
    | sr => exact .inl ⟨rfl, (Host.Outcome.next.inj h).symm⟩
    | dr =>
      refine .inr ?_
      obtain ⟨hn, hr⟩ | ⟨d, hd, hr⟩ := readDR_cases s u
      · rw [hr] at h; exact .inl ⟨rfl, hn, (Host.Outcome.next.inj h).symm⟩
      · rw [hr] at h; exact .inr (.inl ⟨rfl, d, hd, (Host.Outcome.next.inj h).symm⟩)
    | brr => exact .inr (.inr (.inr ⟨by decide, by decide, _, (Host.Outcome.next.inj h).symm⟩))
    | cr1 => exact .inr (.inr (.inr ⟨by decide, by decide, _, (Host.Outcome.next.inj h).symm⟩))
    | cr2 => exact .inr (.inr (.inr ⟨by decide, by decide, _, (Host.Outcome.next.inj h).symm⟩))
    | cr3 => exact .inr (.inr (.inr ⟨by decide, by decide, _, (Host.Outcome.next.inj h).symm⟩))
  · exact .inl h

theorem execRegWrite_cases {r : RegName} {x : Word} (h : execRegWrite u r x s = .next t) :
    TurnedAway (.regWrite u r x) s t ∨
    (s.app = .idle ∧
      ((∃ q, t = s.refuse q) ∨
        (r = .dr ∧ t = writeDR s u (x.extractLsb' 0 9)) ∨
        (r = .brr ∧ t = s.setUsart u { s.usart u with brr := brrStored s.params x.toNat }) ∨
        (r = .cr1 ∧ x &&& ~~~cr1Modelled = 0#32 ∧ t = s.setUsart u { s.usart u with cr1 := x }) ∨
        (r = .cr2 ∧ x &&& ~~~cr2Modelled = 0#32 ∧ t = s.setUsart u { s.usart u with cr2 := x }) ∨
        (r = .cr3 ∧ x &&& ~~~cr3Modelled = 0#32 ∧ t = s.setUsart u { s.usart u with cr3 := x }))) := by
  obtain ⟨ha, h⟩ | h := asHost_cases h
  · refine .inr ⟨ha, ?_⟩
    cases r with
    | sr => exact .inl ⟨_, (Host.Outcome.next.inj h).symm⟩
    | dr => exact .inr (.inl ⟨rfl, (Host.Outcome.next.inj h).symm⟩)
    | brr => exact .inr (.inr (.inl ⟨rfl, (Host.Outcome.next.inj h).symm⟩))
    | cr1 =>
      simp only at h
      split at h
      · exact .inl ⟨_, (Host.Outcome.next.inj h).symm⟩
      · rename_i hm
        exact .inr (.inr (.inr (.inl ⟨rfl, not_not.1 hm, (Host.Outcome.next.inj h).symm⟩)))
    | cr2 =>
      simp only at h
      split at h
      · exact .inl ⟨_, (Host.Outcome.next.inj h).symm⟩
      · rename_i hm
        exact .inr (.inr (.inr (.inr (.inl ⟨rfl, not_not.1 hm, (Host.Outcome.next.inj h).symm⟩))))
    | cr3 =>
      simp only at h
      split at h
      · exact .inl ⟨_, (Host.Outcome.next.inj h).symm⟩
      · rename_i hm
        exact .inr (.inr (.inr (.inr (.inr ⟨rfl, not_not.1 hm, (Host.Outcome.next.inj h).symm⟩))))
  · exact .inl h

theorem execRmwCommit_cases (h : execRmwCommit u s = .next t) :
    t = s ∨ ∃ latch set clr, s.app = .rmw u latch set clr ∧
      t = (s.setUsart u { s.usart u with cr1 := rmwValue latch set clr }).setApp .idle := by
  unfold execRmwCommit at h
  split at h
  · rename_i v l x c ha
    split at h
    · rename_i hv
      subst hv
      exact .inr ⟨l, x, c, ha, (Host.Outcome.next.inj h).symm⟩
    · exact .inl (Host.Outcome.next.inj h).symm
  all_goals exact .inl (Host.Outcome.next.inj h).symm

theorem blkTxUnitEnabled_some {c r : Word} :
    blkTxUnitEnabled s u = some (c, r) ↔ s.app = .blkTx u c r .units ∧ r ≠ 0#32 ∧ (s.usart u).txe = true := by
  unfold blkTxUnitEnabled
  split <;> rename_i ha
  · split
    · rename_i hc
      obtain ⟨rfl, h1, h2⟩ := hc
      simp only [ha, Option.some.injEq, Prod.mk.injEq, AppState.blkTx.injEq, true_and, and_true, h2]
      constructor
      · rintro ⟨rfl, rfl⟩; exact ⟨⟨rfl, rfl⟩, h1⟩
      · rintro ⟨h, _⟩; exact h
    · rename_i hc
      simp only [reduceCtorEq, ha, AppState.blkTx.injEq, and_true, false_iff]
      rintro ⟨⟨rfl, rfl, rfl⟩, h⟩; exact hc ⟨rfl, h⟩
  all_goals simp [ha]

theorem blkTxFinishEnabled_true :
    blkTxFinishEnabled s u = true ↔ (∃ c, s.app = .blkTx u c 0#32 .waitTc) ∧ (s.usart u).tc = true := by
  unfold blkTxFinishEnabled
  split <;> rename_i ha
  · simp only [ha, Bool.and_eq_true, decide_eq_true_eq, AppState.blkTx.injEq, and_true]
    constructor
    · rintro ⟨⟨rfl, rfl⟩, h⟩; exact ⟨⟨_, rfl, rfl, rfl⟩, h⟩
    · rintro ⟨⟨_, rfl, _, rfl⟩, h⟩; exact ⟨⟨rfl, rfl⟩, h⟩
  all_goals simp [ha]

theorem blkRxUnitEnabled_some {c r : Word} :
    blkRxUnitEnabled s u = some (c, r) ↔ s.app = .blkRx u c r ∧ r ≠ 0#32 ∧ (s.usart u).rxne = true := by
  unfold blkRxUnitEnabled
  split <;> rename_i ha
  · split
    · rename_i hc
      obtain ⟨rfl, h1, h2⟩ := hc
      simp only [ha, Option.some.injEq, Prod.mk.injEq, AppState.blkRx.injEq, true_and, and_true, h2]
      constructor
      · rintro ⟨rfl, rfl⟩; exact ⟨⟨rfl, rfl⟩, h1⟩
      · rintro ⟨h, _⟩; exact h
    · rename_i hc
      simp only [reduceCtorEq, ha, AppState.blkRx.injEq, false_iff]
      rintro ⟨⟨rfl, rfl, rfl⟩, h⟩; exact hc ⟨rfl, h⟩
  all_goals simp [ha]

theorem execBlkTxUnit_cases (h : execBlkTxUnit u s = .next t) :
    t = s ∨ ∃ c r, s.app = .blkTx u c r .units ∧ r ≠ 0#32 ∧ (s.usart u).txe = true ∧
      ((∃ f, t = (afterReadSR s u).raise f) ∨
        ∃ v n, n = (s.usart u).nextSize r ∧ t = (writeDR (afterReadSR s u) u v).setApp
          (.blkTx u (c + n.word) (r - n.word) (if r - n.word = 0#32 then .waitTc else .units))) := by
  unfold execBlkTxUnit at h
  split at h
  · exact .inl (Host.Outcome.next.inj h).symm
  · rename_i c r he
    obtain ⟨ha, hr, hx⟩ := blkTxUnitEnabled_some.1 he
    refine .inr ⟨c, r, ha, hr, hx, ?_⟩
    simp only at h
    obtain ⟨x, _, hf⟩ | ⟨raw, _, _, hf⟩ := fetchUnit_cases (afterReadSR s u) u c r
    · rw [hf] at h; exact .inl ⟨_, (Host.Outcome.next.inj h).symm⟩
    · rw [hf] at h
      exact .inr ⟨_, _, by simp [Inst.nextSize, Inst.format], (Host.Outcome.next.inj h).symm⟩

theorem execBlkTxFinish_cases (h : execBlkTxFinish u s = .next t) :
    t = s ∨ ((∃ c, s.app = .blkTx u c 0#32 .waitTc) ∧ (s.usart u).tc = true ∧ t = (afterReadSR s u).setApp .idle) := by
  unfold execBlkTxFinish at h
  split at h
  · rename_i he
    obtain ⟨ha, hc⟩ := blkTxFinishEnabled_true.1 he
    exact .inr ⟨ha, hc, (Host.Outcome.next.inj h).symm⟩
  · exact .inl (Host.Outcome.next.inj h).symm

theorem execBlkRxUnit_cases (h : execBlkRxUnit u s = .next t) :
    t = s ∨ ∃ c r, s.app = .blkRx u c r ∧ r ≠ 0#32 ∧ (s.usart u).rxne = true ∧
      ((∃ f, t = (afterReadSR s u).raise f) ∨
        (∃ f, t = (rdrTaken (afterReadSR s u) u).raise f) ∨
        ∃ v n, n = (s.usart u).nextSize r ∧ t = (written (rdrTaken (afterReadSR s u) u) c n v).setApp
          (if r - n.word = 0#32 then .idle else .blkRx u (c + n.word) (r - n.word))) := by
  unfold execBlkRxUnit at h
  split at h
  · exact .inl (Host.Outcome.next.inj h).symm
  · rename_i c r he
    obtain ⟨ha, hr, hx⟩ := blkRxUnitEnabled_some.1 he
    refine .inr ⟨c, r, ha, hr, hx, ?_⟩
    obtain ⟨_, hd⟩ | ⟨d, _, hd⟩ := readDR_cases (afterReadSR s u) u
    · rw [hd] at h; exact .inl ⟨_, (Host.Outcome.next.inj h).symm⟩
    · refine .inr ?_
      rw [hd] at h
      simp only at h
      obtain ⟨x, _, hf⟩ | ⟨_, hf⟩ := storeUnit_cases (rdrTaken (afterReadSR s u) u) u c r d
      · rw [hf] at h; exact .inl ⟨_, (Host.Outcome.next.inj h).symm⟩
      · rw [hf] at h
        exact .inr ⟨_, _, by simp [Inst.nextSize, Inst.format], (Host.Outcome.next.inj h).symm⟩

/-- The state after the two reads of SR of ON_IRQ with nothing in between is the state after one, but for the count. -/
theorem afterReadSR_twice_usart (s : State) (u : InstIx) :
    (afterReadSR (afterReadSR s u) u).usart u = (afterReadSR s u).usart u := by
  simp

theorem irqTxPhase_cases (s : State) (u : InstIx) :
    ((s.usart u).txe = true ∧ (s.usart u).txeie = true ∧ irqTxPhase s u = txCallback (afterReadSR s u) u) ∨
    (((s.usart u).txe = false ∨ (s.usart u).txeie = false) ∧ irqTxPhase s u = .ok () (afterReadSR s u)) := by
  have hv : (srView s u).txe = (s.usart u).txe := rfl
  have he : ((afterReadSR s u).usart u).txeie = (s.usart u).txeie := by simp [Inst.txeie]
  unfold irqTxPhase
  simp only [hv, he]
  cases (s.usart u).txe <;> cases (s.usart u).txeie <;> simp

theorem irqRxPhase_cases (s : State) (u : InstIx) :
    ((s.usart u).rxne = true ∧ (s.usart u).rxneie = true ∧ irqRxPhase s u = rxCallback (afterReadSR s u) u) ∨
    (((s.usart u).rxne = false ∨ (s.usart u).rxneie = false) ∧ irqRxPhase s u = .ok () (afterReadSR s u)) := by
  have hv : (srView s u).rxne = (s.usart u).rxne := rfl
  have he : ((afterReadSR s u).usart u).rxneie = (s.usart u).rxneie := by simp [Inst.rxneie]
  unfold irqRxPhase
  simp only [hv, he]
  cases (s.usart u).rxne <;> cases (s.usart u).rxneie <;> simp

/-- Everything one pass of the handler can do. -/
theorem serviceIrq_cases (s : State) (u : InstIx) :
    (∃ f s1, irqTxPhase s u = .raised f s1 ∧ serviceIrq s u = .raised f s1) ∨
    (∃ s1, irqTxPhase s u = .ok () s1 ∧ serviceIrq s u = irqRxPhase s1 u) := by
  unfold serviceIrq
  cases h : irqTxPhase s u with
  | raised f s1 => exact .inl ⟨f, s1, rfl, rfl⟩
  | ok a s1 => exact .inr ⟨s1, rfl, rfl⟩

theorem execOnIrq_cases (h : execOnIrq u s = .next t) :
    TurnedAway (.onIrq u) s t ∨ (s.irqRouted u = true ∧ irqLine s u = false ∧ t = s) ∨
    (((s.irqRouted u = true ∧ irqLine s u = true) ∨ (s.irqRouted u = false ∧ s.app = .idle)) ∧
      finish (serviceIrq s u) = .next t) := by
  unfold execOnIrq at h
  split at h
  · split at h
    · exact .inr (.inr ⟨.inl ⟨‹_›, ‹_›⟩, h⟩)
    · rename_i hl
      exact .inr (.inl ⟨‹_›, by simpa using hl, (Host.Outcome.next.inj h).symm⟩)
  · rename_i hr
    obtain ⟨ha, h⟩ | h := asHost_cases h
    · exact .inr (.inr ⟨.inr ⟨by simpa using hr, ha⟩, h⟩)
    · exact .inl h

theorem execEvTxLoad_cases (h : execEvTxLoad u s = .next t) :
    t = s ∨ ((s.usart u).txLoadEnabled = true ∧ t = s.setUsart u { s.usart u with
      shifter := some ((s.usart u).tdr &&& (s.usart u).frameMask), txe := true }) := by
  unfold execEvTxLoad at h
  simp only at h
  split at h
  · exact .inr ⟨‹_›, (Host.Outcome.next.inj h).symm⟩
  · exact .inl (Host.Outcome.next.inj h).symm

theorem execEvTxDone_cases (h : execEvTxDone u s = .next t) :
    t = s ∨ ∃ v, (s.usart u).shifter = some v ∧
      ((s.loopback u = .register ∧ (s.usart u).re = true ∧ t = s.setUsart u (((s.usart u).sent v).receive v)) ∨
        t = s.setUsart u ((s.usart u).sent v)) := by
  unfold execEvTxDone at h
  simp only at h
  split at h
  · split at h
    · exact .inl (Host.Outcome.next.inj h).symm
    · rename_i v hv
      refine .inr ⟨v, hv, ?_⟩
      split at h
      · rename_i hl
        exact .inl ⟨hl.1, hl.2, (Host.Outcome.next.inj h).symm⟩
      · exact .inr (Host.Outcome.next.inj h).symm
  · exact .inl (Host.Outcome.next.inj h).symm

/-- An enabled EV_TX_LOAD leaves TXE set. -/
theorem execEvTxLoad_enabled (he : (s.usart u).txLoadEnabled = true) :
    ∃ i : Inst, i.txe = true ∧ execEvTxLoad u s = .next (s.setUsart u i) :=
  ⟨{ s.usart u with shifter := some ((s.usart u).tdr &&& (s.usart u).frameMask), txe := true }, rfl,
    by simp [execEvTxLoad, he]⟩

/-- An enabled EV_TX_DONE leaves the shift register idle. -/
theorem execEvTxDone_enabled (he : (s.usart u).txDoneEnabled = true) :
    ∃ i : Inst, i.shifter = none ∧ execEvTxDone u s = .next (s.setUsart u i) := by
  simp only [Inst.txDoneEnabled, Bool.and_eq_true, Option.isSome_iff_exists] at he
  obtain ⟨⟨hu, ht⟩, v, hv⟩ := he
  by_cases hl : s.loopback u = .register ∧ (s.usart u).re = true
  · exact ⟨((s.usart u).sent v).receive v, by unfold Inst.receive; split <;> rfl, by
      simp [execEvTxDone, hu, ht, hv, hl]⟩
  · exact ⟨(s.usart u).sent v, rfl, by simp only [execEvTxDone, hu, ht, hv, hl]; simp⟩

theorem execEvRxFrame_cases {v : Frame} (h : execEvRxFrame u v s = .next t) :
    t = s ∨ (rxFrameEnabled s u = true ∧ t = s.setUsart u ((s.usart u).receive v)) := by
  unfold execEvRxFrame at h
  split at h
  · exact .inr ⟨‹_›, (Host.Outcome.next.inj h).symm⟩
  · exact .inl (Host.Outcome.next.inj h).symm

theorem execTxStep_cases (h : execTxStep u s = .next t) :
    t = s ∨ (∃ f, t = s.raise f) ∨ ∃ c r raw, (s.usart u).tx.callback = .installed ∧
      (s.usart u).tx.pending = some (c, r) ∧ t = txMovedState s u c raw ((s.usart u).nextSize r) := by
  unfold execTxStep at h
  obtain ⟨_, he⟩ | ⟨_, _, he⟩ | ⟨_, _, _, _, _, _, he⟩ | ⟨c, r, raw, hc, hp, _, _, he⟩ := txCallback_cases s u <;>
    rw [he] at h
  · exact .inr (.inl ⟨_, (Host.Outcome.next.inj h).symm⟩)
  · exact .inl (Host.Outcome.next.inj h).symm
  · exact .inr (.inl ⟨_, (Host.Outcome.next.inj h).symm⟩)
  · exact .inr (.inr ⟨c, r, raw, hc, hp, (Host.Outcome.next.inj h).symm⟩)

theorem execRxStep_cases (h : execRxStep u s = .next t) :
    t = s ∨ (∃ f, t = s.raise f) ∨ (∃ f, t = (rdrTaken s u).raise f) ∨
      ∃ c r d, (s.usart u).rx.callback = .installed ∧ (s.usart u).rx.pending = some (c, r) ∧
        (s.usart u).rdr = some d ∧ t = rxMovedState s u c d ((s.usart u).nextSize r) := by
  unfold execRxStep at h
  obtain ⟨_, he⟩ | ⟨_, _, he⟩ | ⟨_, _, _, _, _, he⟩ | ⟨_, _, _, _, _, _, _, _, he⟩ | ⟨c, r, d, hc, hp, hd, _, he⟩ :=
    rxCallback_cases s u <;> rw [he] at h
  · exact .inr (.inl ⟨_, (Host.Outcome.next.inj h).symm⟩)
  · exact .inl (Host.Outcome.next.inj h).symm
  · exact .inr (.inl ⟨_, (Host.Outcome.next.inj h).symm⟩)
  · exact .inr (.inr (.inl ⟨_, (Host.Outcome.next.inj h).symm⟩))
  · exact .inr (.inr (.inr ⟨c, r, d, hc, hp, hd, (Host.Outcome.next.inj h).symm⟩))

/-- A finished pass of the handler, as the two phases: the transmit phase stopped on a fault, or it went on to a state
from which the receive phase ran. -/
theorem finish_serviceIrq_cases (h : finish (serviceIrq s u) = .next t) :
    (∃ f, (s.usart u).txe = true ∧ (s.usart u).txeie = true ∧ t = (afterReadSR s u).raise f) ∨
    ∃ s1, (((s.usart u).txe = true ∧ (s.usart u).txeie = true ∧ execTxStep u (afterReadSR s u) = .next s1) ∨
        (((s.usart u).txe = false ∨ (s.usart u).txeie = false) ∧ s1 = afterReadSR s u)) ∧
      (((s1.usart u).rxne = true ∧ (s1.usart u).rxneie = true ∧ execRxStep u (afterReadSR s1 u) = .next t) ∨
        (((s1.usart u).rxne = false ∨ (s1.usart u).rxneie = false) ∧ t = afterReadSR s1 u)) := by
  have rest : ∀ s1, finish (irqRxPhase s1 u) = .next t →
      ((s1.usart u).rxne = true ∧ (s1.usart u).rxneie = true ∧ execRxStep u (afterReadSR s1 u) = .next t) ∨
        (((s1.usart u).rxne = false ∨ (s1.usart u).rxneie = false) ∧ t = afterReadSR s1 u) := by
    intro s1 h1
    obtain ⟨a, b, he⟩ | ⟨a, he⟩ := irqRxPhase_cases s1 u <;> rw [he] at h1
    · exact .inl ⟨a, b, h1⟩
    · exact .inr ⟨a, (Host.Outcome.next.inj h1).symm⟩
  obtain ⟨hx, hi, hp⟩ | ⟨hx, hp⟩ := irqTxPhase_cases s u
  · cases hc : txCallback (afterReadSR s u) u with
    | raised f s1 =>
      simp only [serviceIrq, hp, hc, finish_raised] at h
      have hs : s1 = afterReadSR s u := by
        obtain ⟨_, he⟩ | ⟨_, _, he⟩ | ⟨_, _, _, _, _, _, he⟩ | ⟨_, _, _, _, _, _, _, he⟩ :=
          txCallback_cases (afterReadSR s u) u <;> rw [he] at hc <;> cases hc <;> rfl
      subst hs
      exact .inl ⟨f, hx, hi, (Host.Outcome.next.inj h).symm⟩
    | ok a s1 =>
      simp only [serviceIrq, hp, hc] at h
      exact .inr ⟨s1, .inl ⟨hx, hi, by rw [execTxStep, hc]; rfl⟩, rest s1 h⟩
  · simp only [serviceIrq, hp] at h
    exact .inr ⟨_, .inr ⟨hx, rfl⟩, rest _ h⟩

end Sys2Proof.Machine
end

