-- ==== Sys2Proof/Laws/PerInstr.lean ====
section
/-! SUPPORT. Statements about every operation as syntax, one lemma per constructor. Family WordFields: the encoded
operation word holds the operation's own opcode and USART, and zeros in every field its format does not use
(spec/30_encoding.md R91, R93, R94). -/

namespace Sys2Proof.Laws.WordFields

/-- The operation word of `i` holds its opcode and its USART, and nothing outside its format's fields. -/
def Statement (i : Instr) : Prop :=
  opcField (encode i).op = i.opcode.code ∧ instField (encode i).op = i.inst ∧
    (encode i).op &&& i.opcode.format.notUsedMask = 0#32

theorem mask_plain : ∀ u : InstIx, ∀ o ∈ Opcode.all, packOp o u 0#4 0#4 0#1 &&& 0x000FFFFF#32 = 0#32 := by decide

theorem init (u : InstIx) : Statement (.init u) :=
  ⟨by simp [encode, Instr.opcode], by simp [encode, Instr.inst], mask_plain u .init (by decide)⟩
theorem txBlock (u : InstIx) (buf len : Word) : Statement (.txBlock u buf len) :=
  ⟨by simp [encode, Instr.opcode], by simp [encode, Instr.inst], mask_plain u .txBlock (by decide)⟩
theorem rxBlock (u : InstIx) (buf len : Word) : Statement (.rxBlock u buf len) :=
  ⟨by simp [encode, Instr.opcode], by simp [encode, Instr.inst], mask_plain u .rxBlock (by decide)⟩
theorem txAsync (u : InstIx) (buf len : Word) : Statement (.txAsync u buf len) :=
  ⟨by simp [encode, Instr.opcode], by simp [encode, Instr.inst], mask_plain u .txAsync (by decide)⟩
theorem rxAsync (u : InstIx) (buf len : Word) : Statement (.rxAsync u buf len) :=
  ⟨by simp [encode, Instr.opcode], by simp [encode, Instr.inst], mask_plain u .rxAsync (by decide)⟩
theorem setEnabled (u : InstIx) (en : Bool) : Statement (.setEnabled u en) :=
  ⟨by simp [encode, Instr.opcode], by simp [encode, Instr.inst], by revert u en; decide⟩
theorem readFlag (u : InstIx) (flag : Flag) : Statement (.readFlag u flag) :=
  ⟨by simp [encode, Instr.opcode], by simp [encode, Instr.inst], by cases flag <;> revert u <;> decide⟩
theorem onIrq (u : InstIx) : Statement (.onIrq u) :=
  ⟨by simp [encode, Instr.opcode], by simp [encode, Instr.inst], mask_plain u .onIrq (by decide)⟩
theorem regRead (u : InstIx) (reg : RegName) : Statement (.regRead u reg) :=
  ⟨by simp [encode, Instr.opcode], by simp [encode, Instr.inst], by cases reg <;> revert u <;> decide⟩
theorem regWrite (u : InstIx) (reg : RegName) (value : Word) : Statement (.regWrite u reg value) := by
  refine ⟨by simp [encode, Instr.opcode], by simp [encode, Instr.inst], ?_⟩
  show packOp .regWrite u reg.index 0#4 0#1 &&& 0x0000FFFF#32 = 0#32
  cases reg <;> revert u <;> decide
theorem txStep (u : InstIx) : Statement (.txStep u) :=
  ⟨by simp [encode, Instr.opcode], by simp [encode, Instr.inst], mask_plain u .txStep (by decide)⟩
theorem rxStep (u : InstIx) : Statement (.rxStep u) :=
  ⟨by simp [encode, Instr.opcode], by simp [encode, Instr.inst], mask_plain u .rxStep (by decide)⟩
theorem rmwCommit (u : InstIx) : Statement (.rmwCommit u) :=
  ⟨by simp [encode, Instr.opcode], by simp [encode, Instr.inst], mask_plain u .rmwCommit (by decide)⟩
theorem blkTxUnit (u : InstIx) : Statement (.blkTxUnit u) :=
  ⟨by simp [encode, Instr.opcode], by simp [encode, Instr.inst], mask_plain u .blkTxUnit (by decide)⟩
theorem blkTxFinish (u : InstIx) : Statement (.blkTxFinish u) :=
  ⟨by simp [encode, Instr.opcode], by simp [encode, Instr.inst], mask_plain u .blkTxFinish (by decide)⟩
theorem blkRxUnit (u : InstIx) : Statement (.blkRxUnit u) :=
  ⟨by simp [encode, Instr.opcode], by simp [encode, Instr.inst], mask_plain u .blkRxUnit (by decide)⟩
theorem evTxLoad (u : InstIx) : Statement (.evTxLoad u) :=
  ⟨by simp [encode, Instr.opcode], by simp [encode, Instr.inst], mask_plain u .evTxLoad (by decide)⟩
theorem evTxDone (u : InstIx) : Statement (.evTxDone u) :=
  ⟨by simp [encode, Instr.opcode], by simp [encode, Instr.inst], mask_plain u .evTxDone (by decide)⟩
theorem evRxFrame (u : InstIx) (frame : Frame) : Statement (.evRxFrame u frame) :=
  ⟨by simp [encode, Instr.opcode], by simp [encode, Instr.inst], mask_plain u .evRxFrame (by decide)⟩

end Sys2Proof.Laws.WordFields
end

