-- ==== Sys2Proof/Laws/Step.lean ====
section
/-! SUPPORT. One step: every next state it can answer, by the turn it takes. -/

namespace Sys2Proof.Machine

theorem hostWriteByte_cases {s t : State} {a : Word} {b : Byte} (h : hostWriteByte s a b = .next t) :
    t = s ∨ (s.app = .idle ∧ ((∃ f, t = s.raise f) ∨ t = s.setByte a b)) := by
  unfold hostWriteByte at h
  split at h
  · refine .inr ⟨‹_›, ?_⟩
    obtain ⟨x, _, e⟩ | ⟨_, e⟩ := memWrite_cases s a .one (b.setWidth 16) <;> rw [e] at h
    · exact .inl ⟨_, (Host.Outcome.next.inj h).symm⟩
    · refine .inr ?_
      rw [← Host.Outcome.next.inj h]
      simp only [written]
      congr 1
      apply BitVec.eq_of_getLsbD_eq
      intro j hj
      simp [hj]
      intro
      omega
  · exact .inl (Host.Outcome.next.inj h).symm

/-- A read of the host changes nothing but to raise a fault. -/
theorem hostReadByte_cases {s t : State} {a : Word} (h : hostReadByte s a = .next t) :
    t = s ∨ (s.app = .idle ∧ ∃ f, t = s.raise f) := by
  unfold hostReadByte at h
  split at h
  · split at h
    · exact .inr ⟨‹_›, _, (Host.Outcome.next.inj h).symm⟩
    · exact .inl (Host.Outcome.next.inj h).symm
  · exact .inl (Host.Outcome.next.inj h).symm

/-- A turn of the schedule, once its words decode: what the issuer checks make of it. -/
theorem step_issue {s : State} {a : Agent} {ws : OpWords} {rest : List Turn} {i : Instr} (h : Running s)
    (hq : s.schedule = .issue a ws :: rest) (hd : decode s.params.nInst ws = .ok i) :
    step s = match issueVerdict (s.setSchedule rest) a i ws.op with
      | .run i => exec i (s.setSchedule rest)
      | .wait => hold (s.setSchedule rest)
      | .reject r => .next ((s.setSchedule rest).refuse r) := by
  simp only [step, h.1, h.2, hq, takeTurn, turnVerdict, State.setSchedule_params, hd]
  try rfl

@[simp] theorem irqRouted_setSchedule (s : State) (q : List Turn) (u : InstIx) :
    (s.setSchedule q).irqRouted u = s.irqRouted u := rfl

/-- The verdict `run` is given only for the decoded operation and an agent that may issue it. -/
theorem issueVerdict_run {s : State} {a : Agent} {i j : Instr} {w : Word} (h : issueVerdict s a i w = .run j) :
    j = i ∧ mayIssue a i = true := by
  unfold issueVerdict at h
  split at h
  · cases h
  · split at h
    · cases h
    · rename_i hm
      split at h
      · cases h
      · exact ⟨(Verdict.run.inj h).symm, by simpa using hm⟩

/-- Every next state a step can answer: the same state with no turn left; a refusal, a wait, a host write of memory, the
fault of a host read, or the decoded operation of an agent that may issue it, each after the turn left the schedule. -/
theorem step_next_cases {s t : State} (h : step s = .next t) :
    Running s ∧ ((s.schedule = [] ∧ t = s) ∨ ∃ tn rest, s.schedule = tn :: rest ∧
      ((∃ r, t = (s.setSchedule rest).refuse r) ∨ t = s.setSchedule rest ∨
        (∃ a b, tn = .hostWrite a b ∧ s.app = .idle ∧
          ((∃ f, t = (s.setSchedule rest).raise f) ∨ t = (s.setSchedule rest).setByte a b)) ∨
        (∃ a f, tn = .hostRead a ∧ s.app = .idle ∧ t = (s.setSchedule rest).raise f) ∨
        ∃ ag ws i, tn = .issue ag ws ∧ decode s.params.nInst ws = .ok i ∧ mayIssue ag i = true ∧
          exec i (s.setSchedule rest) = .next t)) := by
  obtain ⟨f, _, h'⟩ | ⟨r, _, _, h'⟩ | ⟨hr, hq, h'⟩ | ⟨tn, rest, hr, hq, h'⟩ := step_cases s <;> rw [h'] at h
  · cases h
  · cases h
  · exact ⟨hr, .inl ⟨hq, (Host.Outcome.next.inj h).symm⟩⟩
  · refine ⟨hr, .inr ⟨tn, rest, hq, ?_⟩⟩
    cases tn with
    | hostWrite a b =>
      obtain rfl | ⟨ha, h⟩ := hostWriteByte_cases h
      · exact .inr (.inl rfl)
      · exact .inr (.inr (.inl ⟨a, b, rfl, ha, h⟩))
    | hostRead a =>
      obtain rfl | ⟨ha, f, rfl⟩ := hostReadByte_cases h
      · exact .inr (.inl rfl)
      · exact .inr (.inr (.inr (.inl ⟨a, f, rfl, ha, rfl⟩)))
    | issue ag ws =>
      cases hd : decode s.params.nInst ws with
      | error e =>
        simp only [takeTurn, turnVerdict, State.setSchedule_params, hd] at h
        exact .inl ⟨_, (Host.Outcome.next.inj h).symm⟩
      | ok i =>
        rw [← h', step_issue hr hq hd] at h
        split at h
        · rename_i hv
          obtain ⟨rfl, hm⟩ := issueVerdict_run hv
          exact .inr (.inr (.inr (.inr ⟨ag, ws, _, rfl, hd, hm, h⟩)))
        · exact .inr (.inl (Host.Outcome.next.inj h).symm)
        · exact .inl ⟨_, (Host.Outcome.next.inj h).symm⟩

/-! ### Runs -/

/-- In a run, a turn with an operation that LINE(u) may take runs it. -/
theorem IsRun.line_exec {σ : Nat → State} {τ : Nat → Turn} {u : InstIx} {m : Nat} {i : Instr} (h : IsRun σ τ)
    (ht : Takes (σ m) (τ m) (.line u) i) (hi : mayIssue (.line u) i = true) :
    exec i ((σ m).setSchedule []) = .next ((σ (m + 1)).setSchedule []) := by
  obtain ⟨ws, ht, hd⟩ := ht
  have hs := h m
  have hr := (step_next_cases hs).1
  rw [step_issue hr (congrArg (· :: []) ht) hd] at hs
  simpa [issueVerdict, hi, State.setSchedule] using hs

/-- LINE_FAIR has its meaning (R234): in a fair run no EV_TX_LOAD stays enabled for ever. -/
theorem LineFairRun.load_not_stuck {σ : Nat → State} {τ : Nat → Turn} {u : InstIx} (h : IsRun σ τ)
    (hf : LineFairRun u σ τ) (n : Nat) : ∃ m, n ≤ m ∧ ((σ m).usart u).txLoadEnabled = false := by
  by_contra hc
  have he : ∀ m, n ≤ m → ((σ m).usart u).txLoadEnabled = true := fun m hm => by
    by_contra hx
    exact hc ⟨m, hm, by simpa using hx⟩
  obtain ⟨m, hm, ht⟩ := (hf n).1 he
  obtain ⟨i, hi, hx⟩ := execEvTxLoad_enabled (s := (σ m).setSchedule []) (u := u) (he m hm)
  have hs := Host.Outcome.next.inj (hx.symm.trans (h.line_exec ht (by simp [mayIssue])))
  have h1 := congrArg (fun s => (s.usart u).txe) hs
  have h2 := he (m + 1) (by omega)
  simp only [State.usart_setUsart_same, State.usart_setSchedule, hi] at h1
  simp [Inst.txLoadEnabled, ← h1] at h2

/-- In a fair run no EV_TX_DONE stays enabled for ever (R234). -/
theorem LineFairRun.done_not_stuck {σ : Nat → State} {τ : Nat → Turn} {u : InstIx} (h : IsRun σ τ)
    (hf : LineFairRun u σ τ) (n : Nat) : ∃ m, n ≤ m ∧ ((σ m).usart u).txDoneEnabled = false := by
  by_contra hc
  have he : ∀ m, n ≤ m → ((σ m).usart u).txDoneEnabled = true := fun m hm => by
    by_contra hx
    exact hc ⟨m, hm, by simpa using hx⟩
  obtain ⟨m, hm, ht⟩ := (hf n).2 he
  obtain ⟨i, hi, hx⟩ := execEvTxDone_enabled (s := (σ m).setSchedule []) (u := u) (he m hm)
  have hs := Host.Outcome.next.inj (hx.symm.trans (h.line_exec ht (by simp [mayIssue])))
  have h1 := congrArg (fun s => (s.usart u).shifter) hs
  have h2 := he (m + 1) (by omega)
  simp only [State.usart_setUsart_same, State.usart_setSchedule, hi] at h1
  simp [Inst.txDoneEnabled, ← h1] at h2

end Sys2Proof.Machine
end

