-- ==== Sys2Proof/Laws/Wf.lean ====
section
/-! SUPPORT. Well-formed USARTs and the invariant: the conditions spelled out, and each shared operation keeps them. -/

namespace Sys2Proof.Machine

/-- Inst.wf as a conjunction. -/
theorem Inst.wf_iff (p : Params) (i : Inst) :
    Inst.wf p i = true ↔
      i.cfg.wf = true ∧ i.tx.wf = true ∧ i.rx.wf = true ∧ i.cr1 &&& ~~~cr1Modelled = 0#32 ∧
        i.cr2 &&& ~~~cr2Modelled = 0#32 ∧ i.cr3 &&& ~~~cr3Modelled = 0#32 ∧ brrFits p i.brr = true ∧
        (i.rxne = true → i.rdr.isSome = true) ∧ (i.tcArmed = true → i.tc = true) := by
  unfold Inst.wf
  cases i.rxne <;> cases i.tcArmed <;> simp [and_assoc]

theorem brrFits_brrStored (p : Params) (v : Nat) : brrFits p (brrStored p v) = true := by
  unfold brrFits
  split
  · rename_i h
    simp [brrStored, h]
    omega
  · rfl

theorem cr1Init_modelled (c : Config) : cr1Init c &&& ~~~cr1Modelled = 0#32 := by
  obtain ⟨_, wl, pa, sb, ov, mo, fl⟩ := c
  cases wl <;> cases pa <;> cases ov <;> cases mo <;> simp [cr1Init, cr1Modelled, maskIf]

theorem cr2Init_modelled (c : Config) : cr2Init c &&& ~~~cr2Modelled = 0#32 := by
  unfold cr2Init
  cases c.stopBits <;> simp [cr2Modelled, stopCode]

theorem cr3Init_modelled (c : Config) : cr3Init c &&& ~~~cr3Modelled = 0#32 := by
  unfold cr3Init
  cases c.flow <;> simp [cr3Modelled, maskIf]

theorem and_inside {x m : Word} (k : Word) (h : x &&& ~~~m = 0#32) : (x &&& k) &&& ~~~m = 0#32 := by
  rw [BitVec.and_assoc, BitVec.and_comm k, ← BitVec.and_assoc, h]
  simp

theorem or_inside {x m k : Word} (h : x &&& ~~~m = 0#32) (h' : k &&& ~~~m = 0#32) : (x ||| k) &&& ~~~m = 0#32 := by
  apply BitVec.eq_of_getLsbD_eq
  intro j hj
  have a := congrArg (fun x => BitVec.getLsbD x j) h
  have b := congrArg (fun x => BitVec.getLsbD x j) h'
  simp at a b ⊢
  grind

theorem rmwValue_modelled {x a : Word} (c : Word) (h : x &&& ~~~cr1Modelled = 0#32) (h' : a &&& ~~~cr1Modelled = 0#32) :
    rmwValue x a c &&& ~~~cr1Modelled = 0#32 := and_inside _ (or_inside h h')

/-- A unit is never larger than the bytes to go. -/
theorem Inst.nextSize_le (i : Inst) {r : Word} (hr : r ≠ 0#32) : (i.nextSize r).bytes ≤ r.toNat := by
  have h' : r.toNat ≠ 0 := fun h0 => hr (BitVec.eq_of_toNat_eq (by simpa using h0))
  have h1 : r.toNat = 1 ↔ r = 1#32 := by
    rw [← BitVec.toNat_inj]
    simp
  simp only [Inst.nextSize, unitSize]
  cases i.format.unitBytes <;> simp only
  · simp [UnitSize.bytes]
    omega
  · by_cases h : r = 1#32 <;> simp [h, UnitSize.bytes]
    rw [← h1] at h
    omega

theorem rangeFits_advance {c r : Word} {n : UnitSize} (h : rangeFits c r = true) (hn : n.bytes ≤ r.toNat)
    (hne : r - n.word ≠ 0#32) : rangeFits (c + n.word) (r - n.word) = true := by
  simp only [rangeFits, decide_eq_true_eq] at *
  have hw : n.word.toNat = n.bytes := by cases n <;> rfl
  have hne' : (r - n.word).toNat ≠ 0 := fun h0 => hne (BitVec.eq_of_toNat_eq (by simpa using h0))
  rw [BitVec.toNat_add, BitVec.toNat_sub, hw] at *
  have hb : n.bytes ≤ 2 := by cases n <;> simp [UnitSize.bytes]
  have := r.isLt
  have := c.isLt
  omega

theorem rangeFits_of_not_wraps {buf len : Word} (h : bufferWraps buf len = false) (hl : len ≠ 0#32) :
    rangeFits buf len = true := by
  have h' : len.toNat ≠ 0 := fun h0 => hl (BitVec.eq_of_toNat_eq (by simpa using h0))
  simp [bufferWraps, rangeFits] at *
  have := h (by omega)
  omega

theorem DirState.wf_advance {d : DirState} {c : Word} {n : UnitSize} (h : d.wf = true) (hc : d.cursor = some c)
    (hn : n.bytes ≤ d.remaining.toNat) (hne : d.remaining - n.word ≠ 0#32) : (d.advance c n).wf = true := by
  obtain ⟨st, cu, re, cb⟩ := d
  simp at hc hn hne
  subst hc
  cases st <;> cases cb <;> simp [DirState.wf] at h
  simp [DirState.wf, DirState.advance, hne, rangeFits_advance h.2 hn hne]

/-- A well-formed direction with a callback has a unit to move. -/
theorem DirState.pending_of_installed {d : DirState} (h : d.wf = true) (hc : d.callback = .installed) :
    ∃ c, d.cursor = some c ∧ d.remaining ≠ 0#32 ∧ d.pending = some (c, d.remaining) := by
  obtain ⟨st, cu, re, cb⟩ := d
  simp at hc
  subst hc
  cases st <;> cases cu <;> simp [DirState.wf] at h
  exact ⟨_, rfl, h.1, by simp [DirState.pending, h]⟩

theorem Inst.wf_receive {p : Params} {i : Inst} (v : Frame) (h : Inst.wf p i = true) :
    Inst.wf p (i.receive v) = true := by
  rw [Inst.wf_iff] at h
  obtain ⟨a, b, c, d, e, f, g, k, l⟩ := h
  unfold Inst.receive
  split <;> rw [Inst.wf_iff]
  · exact ⟨a, b, c, d, e, f, g, k, l⟩
  · exact ⟨a, b, c, d, e, f, g, fun _ => rfl, l⟩

theorem Inst.wf_sent {p : Params} {i : Inst} (v : Frame) (h : Inst.wf p i = true) : Inst.wf p (i.sent v) = true := by
  unfold Inst.sent
  rw [Inst.wf_iff] at h ⊢
  obtain ⟨a, b, c, d, e, f, g, k, l⟩ := h
  exact ⟨a, b, c, d, e, f, g, k, by simp; intro h _; exact .inl (l h)⟩

theorem Inv.setUsart {s : State} (h : Inv s) (u : InstIx) {i : Inst} (hi : Inst.wf s.params i = true) :
    Inv (s.setUsart u i) := by
  refine ⟨h.1, h.2.1, fun v => ?_⟩
  rw [State.usart_setUsart]
  split
  · exact hi
  · exact h.2.2 v

theorem Inv.setApp {s : State} (h : Inv s) {a : AppState} (ha : a.wf = true) : Inv (s.setApp a) :=
  ⟨h.1, ha, h.2.2⟩

theorem Inv.written {s : State} (h : Inv s) (a : Word) (n : UnitSize) (v : Half) : Inv (written s a n v) :=
  ⟨written_wf _ _ _ _ h.1, by simpa using h.2.1, fun u => by simpa using h.2.2 u⟩

theorem Inv.afterReadSR {s : State} (h : Inv s) (u : InstIx) : Inv (afterReadSR s u) := by
  refine Inv.setUsart (s := s) h u ?_
  have hi := h.2.2 u
  rw [Inst.wf_iff] at hi ⊢
  obtain ⟨a, b, c, d, e, f, g, k, l⟩ := hi
  exact ⟨a, b, c, d, e, f, g, k, by simp; intro h; exact h.elim l id⟩

theorem Inv.writeDR {s : State} (h : Inv s) (u : InstIx) (x : Frame) : Inv (writeDR s u x) := by
  refine h.setUsart u ?_
  have hi := h.2.2 u
  rw [Inst.wf_iff] at hi ⊢
  obtain ⟨a, b, c, d, e, f, g, k, l⟩ := hi
  exact ⟨a, b, c, d, e, f, g, k, by simp [Inst.writeDR]⟩

theorem Inv.rdrTaken {s : State} (h : Inv s) (u : InstIx) : Inv (rdrTaken s u) := by
  refine h.setUsart u ?_
  have hi := h.2.2 u
  rw [Inst.wf_iff] at hi ⊢
  obtain ⟨a, b, c, d, e, f, g, k, l⟩ := hi
  exact ⟨a, b, c, d, e, f, g, by simp, l⟩

theorem Inv.rmwCr1 {s : State} (h : Inv s) (u : InstIx) {x : Word} (c : Word) (hx : x &&& ~~~cr1Modelled = 0#32) :
    Inv (rmwCr1 s u x c) := by
  have hi := h.2.2 u
  rw [Inst.wf_iff] at hi
  obtain ⟨a, b, c', d, e, f, g, k, l⟩ := hi
  obtain ⟨_, hh⟩ | ⟨_, hh⟩ := rmwCr1_cases s u x c <;> rw [hh]
  · refine h.setUsart u ?_
    rw [Inst.wf_iff]
    exact ⟨a, b, c', rmwValue_modelled _ d hx, e, f, g, k, l⟩
  · exact h.setApp (by simp [AppState.wf, rmwValue_modelled _ d hx])

end Sys2Proof.Machine
end

