-- ==== Sys2Proof/Tests/Slice0.lean ====
section
/-! SUPPORT. Tests, with expected results from spec/95_test_vectors.md (V-..., P...) and the worked encodings of
spec/30_encoding.md R103, and for every obligation with hypotheses a witness that meets them. -/

namespace Sys2Proof.Tests

open Sys2Proof.Machine

/-! ### Small states -/

/-- A record: word length and parity free, the rest as the vectors' default. -/
def cfgOf (wl : Nat) (pa : Parity) : LaunchConfig := { defaultLaunchConfig with wordLength := wl, parity := pa }

/-- The vectors' default parameters, with four buffer bytes at 0x20000000 and nothing else. -/
def small : Params := { defaultParams with memMap := [⟨0x20000000, 4⟩] }

/-- A launch with one record for every USART, then USART 0 changed by `f` and the application context set. -/
def mk (p : Params) (c : LaunchConfig) (f : Inst → Inst) (app : AppState) (m : Memory) : State :=
  let s := (State.launch p (Vector.replicate 16 c) m []).setApp app
  s.setUsart 0 (f (s.usart 0))

/-- The answer is a next state of which `f` holds. -/
def gives (o : Out) (f : State → Bool) : Bool :=
  match o with
  | .next t => f t
  | .fault _ => false
  | .refused _ => false

/-- The parameters with the read-modify-write of CR1 atomic. -/
def atomic : Params := { defaultParams with atomicCr1Rmw := true }

/-- The parameters with no interrupt routed. -/
def unrouted : Params :=
  { defaultParams with perInst := Vector.replicate 16 ⟨.zero, 0x40000000#32, false, false, .off⟩ }

/-- The parameters with every USART's sent frames looped back. -/
def looped : Params :=
  { defaultParams with perInst := Vector.replicate 16 ⟨.zero, 0x40000000#32, true, false, .register⟩ }

/-! ### WellFormed and the launch checks refuse ill-formed terms -/

theorem test_wellFormed_instance : WellFormed 2 (.init 1) = true ∧ WellFormed 2 (.init 2) = false := by decide

theorem test_config_baud : Config.wf { defaultConfig with baud := 0 } = false ∧
    Config.wf { defaultConfig with baud := 2 ^ 32 } = false ∧ Config.wf defaultConfig = true := by decide

theorem test_params_wf : Params.wf defaultParams = true ∧
    Params.wf { defaultParams with perInst := Vector.replicate 16 ⟨.zero, 2#32, true, false, .off⟩ } = false := by
  decide

/-- V-EXC-01, V-EXC-02. -/
theorem test_launch_check : (cfgOf 8 .none).check = some defaultConfig ∧ (cfgOf 7 .none).check = none ∧
    { cfgOf 8 .none with baud := 0 }.check = none ∧ { cfgOf 8 .none with baud := 2 ^ 32 }.check = none ∧
    { cfgOf 8 .none with oversampling := 12 }.check = none := by decide

/-! ### Decoding (V-DEC-01 to V-DEC-24, R103) -/

theorem test_decode_refusals :
    decode 2 ⟨0x00000000#32, 0#32, 0#32⟩ = .error (.illegalOpcode 0x00000000#32) ∧
    decode 2 ⟨0x0B000000#32, 0#32, 0#32⟩ = .error (.illegalOpcode 0x0B000000#32) ∧
    decode 2 ⟨0x23000000#32, 0#32, 0#32⟩ = .error (.illegalOpcode 0x23000000#32) ∧
    decode 2 ⟨0x01F00000#32, 0#32, 0#32⟩ = .error (.badInstance 0x01F00000#32) ∧
    decode 2 ⟨0x01000001#32, 0#32, 0#32⟩ = .error (.reservedField 0x01000001#32) ∧
    decode 2 ⟨0x06000002#32, 0#32, 0#32⟩ = .error (.reservedField 0x06000002#32) ∧
    decode 2 ⟨0x07000300#32, 0#32, 0#32⟩ = .error (.badFlag 0x07000300#32) ∧
    decode 2 ⟨0x07030100#32, 0#32, 0#32⟩ = .error (.reservedField 0x07030100#32) ∧
    decode 2 ⟨0x09060000#32, 0#32, 0#32⟩ = .error (.badRegister 0x09060000#32) ∧
    decode 2 ⟨0x09031000#32, 0#32, 0#32⟩ = .error (.reservedField 0x09031000#32) ∧
    decode 2 ⟨0x0900000F#32, 0#32, 0#32⟩ = .error (.reservedField 0x0900000F#32) ∧
    decode 2 ⟨0x22000000#32, 0x200#32, 0#32⟩ = .error (.reservedField 0x22000000#32) := by decide

theorem test_decode_host :
    decode 2 ⟨0x01100000#32, 0#32, 0#32⟩ = .ok (.init 1) ∧
    decode 2 ⟨0x02000000#32, 0x20000000#32, 2#32⟩ = .ok (.txBlock 0 0x20000000#32 2#32) ∧
    decode 2 ⟨0x03000000#32, 0x20000100#32, 1#32⟩ = .ok (.rxBlock 0 0x20000100#32 1#32) ∧
    decode 2 ⟨0x04000000#32, 0x20000000#32, 3#32⟩ = .ok (.txAsync 0 0x20000000#32 3#32) ∧
    decode 2 ⟨0x05000000#32, 0x20000100#32, 3#32⟩ = .ok (.rxAsync 0 0x20000100#32 3#32) ∧
    decode 2 ⟨0x06000001#32, 0#32, 0#32⟩ = .ok (.setEnabled 0 true) ∧
    decode 2 ⟨0x07000100#32, 0#32, 0#32⟩ = .ok (.readFlag 0 .tc) ∧
    decode 2 ⟨0x08000000#32, 0#32, 0#32⟩ = .ok (.onIrq 0) ∧
    decode 2 ⟨0x09030000#32, 0#32, 0#32⟩ = .ok (.regRead 0 .cr1) ∧
    decode 2 ⟨0x0A020000#32, 0x683#32, 0#32⟩ = .ok (.regWrite 0 .brr 0x683#32) := by decide

/-- The other rows of R94, words from its OPC column; P1 and P2 name 0x12, 0x13, 0x14, 0x20 and 0x21. -/
theorem test_decode_internal_and_line :
    decode 4 ⟨0x10000000#32, 0#32, 0#32⟩ = .ok (.txStep 0) ∧
    decode 4 ⟨0x11100000#32, 0#32, 0#32⟩ = .ok (.rxStep 1) ∧
    decode 4 ⟨0x12000000#32, 0#32, 0#32⟩ = .ok (.rmwCommit 0) ∧
    decode 4 ⟨0x13000000#32, 0#32, 0#32⟩ = .ok (.blkTxUnit 0) ∧
    decode 4 ⟨0x14000000#32, 0#32, 0#32⟩ = .ok (.blkTxFinish 0) ∧
    decode 4 ⟨0x15300000#32, 0#32, 0#32⟩ = .ok (.blkRxUnit 3) ∧
    decode 4 ⟨0x20000000#32, 0#32, 0#32⟩ = .ok (.evTxLoad 0) ∧
    decode 4 ⟨0x21000000#32, 0#32, 0#32⟩ = .ok (.evTxDone 0) ∧
    decode 4 ⟨0x22000000#32, 0x1FF#32, 0#32⟩ = .ok (.evRxFrame 0 0x1FF#9) := by decide

/-- R91, R93: the operand words of a table row's bits. -/
theorem test_decodeTableWord :
    decodeTableWord 32 0x07000200 = some (.readFlag 0 .rxne) ∧
    decodeTableWord 96 (0x02F00000 + 2 ^ 32 * 0x20000000 + 2 ^ 64 * 5) = some (.txBlock 15 0x20000000#32 5#32) ∧
    decodeTableWord 32 0x00000000 = none := by decide

/-! ### Steps -/

/-- P1 step 1 as the first step after reset: INIT 0 leaves CR1 = 0x000C and BRR = 0x683. -/
theorem test_step_from_reset :
    gives (step (State.reset.withFetchWord 32 0x01000000)) (fun t =>
      (t.usart 0).cr1 == 0xC#32 && (t.usart 0).brr == 0x683#32 && t.schedule == []) = true := by decide

/-- V-DEC-19, V-DEC-20, V-DEC-23, V-LINE-13: refused NOT_ISSUABLE. -/
theorem test_step_not_issuable :
    gives (step (State.reset.setSchedule [.issue .host ⟨0x22000000#32, 0x1FF#32, 0#32⟩])) (fun t =>
      t.refused == some (.notIssuable 0x22000000#32)) = true ∧
    gives (step (State.reset.setSchedule [.issue .host ⟨0x12000000#32, 0#32, 0#32⟩])) (fun t =>
      t.refused == some (.notIssuable 0x12000000#32)) = true ∧
    gives (step ((State.reset.setApp (.blkTx 0 0#32 1#32 .units)).setSchedule
      [.issue .host ⟨0x02000000#32, 0x20000000#32, 1#32⟩])) (fun t =>
        t.refused == some (.notIssuable 0x02000000#32)) = true := by decide

/-- R95, R96, R250: an illegal word of any agent is refused, and nothing else changes. -/
theorem test_step_illegal :
    gives (step (State.reset.setSchedule [.issue .irq ⟨0#32, 0#32, 0#32⟩])) (fun t =>
      t == State.reset.refuse (.illegalOpcode 0#32)) = true := by decide

/-- V-EXC-03, V-EXC-04: the run stops with the mark. -/
theorem test_step_stops : step (State.reset.raise (.busFault 5#32)) = .fault (.busFault 5#32) ∧
    step (State.reset.refuse .srWrite) = .refused .srWrite := ⟨rfl, rfl⟩

/-- R71, R81: a host read of a missing byte raises BUS_FAULT, and of a byte that exists changes only the schedule. -/
theorem test_step_hostRead :
    gives (step ((mk small (cfgOf 8 .none) id .idle []).setSchedule [.hostRead 0x20000004#32])) (fun t =>
      t.fault == some (.busFault 0x20000004#32)) = true ∧
    gives (step ((mk small (cfgOf 8 .none) id .idle []).setSchedule [.hostRead 0x20000003#32])) (fun t =>
      t == mk small (cfgOf 8 .none) id .idle []) = true := by decide

/-! ### INIT and the divisor -/

/-- V-BRR-05, V-BRR-15, V-BRR-16, V-BRR-17, V-BRR-21 under NEAREST, and V-BRR-05 under FLOOR. -/
theorem test_brrValue : brrValue .nearest 42000000 115200 .by16 = 0x16D ∧ brrValue .nearest 788 25 .by16 = 0x10 ∧
    brrValue .nearest 45000000 9600 .by16 = 0x1240 ∧ brrValue .nearest 45000000 9600 .by8 = 0x2490 ∧
    brrValue .nearest 16000000 100 .by16 = 0x27100 ∧ brrValue .floor 42000000 115200 .by16 = 0x16C := by decide

/-- V-INIT-14. -/
theorem test_init_all_fields :
    gives (exec (.init 0) (mk { defaultParams with clockHzZero := ⟨42000000, by decide⟩ }
      ⟨115200, 8, .odd, .stop2, 8, .tx, .rtsCts⟩ id .idle [])) (fun t =>
        (t.usart 0).cr1 == 0x8608#32 && (t.usart 0).cr2 == 0x2000#32 && (t.usart 0).cr3 == 0x300#32
          && (t.usart 0).brr == 0x2D5#32) = true := by decide

/-- V-INIT-15: the enable bits are cleared, and the directions keep their status. -/
theorem test_init_clears_enables :
    gives (exec (.init 0) (mk defaultParams (cfgOf 8 .none)
      (fun i => { i with cr1 := 0x20AC#32, rx := ⟨.busy, some 0#32, 1#32, .installed⟩ }) .idle [])) (fun t =>
        (t.usart 0).cr1 == 0xC#32 && (t.usart 0).rx.status == .busy) = true := by decide

/-! ### The polled port -/

/-- V-BLK-04 and V-BLK-05. -/
theorem test_txBlock_range :
    gives (exec (.txBlock 0 0xFFFFFFFF#32 2#32) State.reset) (fun t => t.refused == some .bufferWrap) = true ∧
    gives (exec (.txBlock 0 0xFFFFFFFF#32 1#32) State.reset) (fun t =>
      t.app == .blkTx 0 0xFFFFFFFF#32 1#32 .units) = true := by decide

/-- V-BLK-06 and the example of R151. -/
theorem test_rxBlock :
    gives (exec (.rxBlock 0 0x20000100#32 0#32) State.reset) (fun t => t.app == .idle) = true ∧
    gives (exec (.rxBlock 0 0x20000100#32 1#32) State.reset) (fun t => t.app == .blkRx 0 0x20000100#32 1#32) = true := by
  decide

/-- V-BLK-07. -/
theorem test_blkTxUnit :
    gives (exec (.blkTxUnit 0) (mk defaultParams (cfgOf 8 .none) id (.blkTx 0 0x20000000#32 1#32 .units)
      [(0x20000000, 0x48#8)])) (fun t =>
        (t.usart 0).tdr == 0x48#9 && !(t.usart 0).txe && !(t.usart 0).tc && !(t.usart 0).tcArmed
          && t.app == .blkTx 0 0x20000001#32 0#32 .waitTc) = true := by decide

/-- V-BLK-09. -/
theorem test_blkTxUnit_busFault :
    gives (exec (.blkTxUnit 0) (mk small (cfgOf 8 .none) id (.blkTx 0 0x20000004#32 1#32 .units) [])) (fun t =>
      t.fault == some (.busFault 0x20000004#32) && (t.usart 0).tdr == 0#9 && (t.usart 0).txe) = true := by decide

/-- V-BLK-03. -/
theorem test_blkTxFinish :
    gives (exec (.blkTxFinish 0) (mk defaultParams (cfgOf 8 .none) id (.blkTx 0 0x20000000#32 0#32 .waitTc) [])) (fun t =>
      t.app == .idle && (t.usart 0).tcArmed) = true := by decide

/-- V-BLK-11. -/
theorem test_blkRxUnit :
    gives (exec (.blkRxUnit 0) (mk defaultParams (cfgOf 9 .none) (fun i => { i with rxne := true, rdr := some 0x1A5#9 })
      (.blkRx 0 0x20000000#32 3#32) [])) (fun t =>
        t.byteAt 0x20000000#32 == 0xA5#8 && t.byteAt 0x20000001#32 == 0x01#8 && !(t.usart 0).rxne
          && t.app == .blkRx 0 0x20000002#32 1#32) = true := by decide

/-- V-BLK-12. -/
theorem test_blkRxUnit_busFault :
    gives (exec (.blkRxUnit 0) (mk small (cfgOf 8 .none) (fun i => { i with rxne := true, rdr := some 0x41#9 })
      (.blkRx 0 0x1FFFFFFF#32 1#32) [])) (fun t =>
        t.fault == some (.busFault 0x1FFFFFFF#32) && !(t.usart 0).rxne && t.mem == []) = true := by decide

/-! ### The interrupt-driven machines -/

/-- V-ASY-05. -/
theorem test_txAsync :
    gives (exec (.txAsync 0 0x20000000#32 3#32) (mk defaultParams (cfgOf 8 .none) (fun i => { i with cr1 := 0x200C#32 })
      .idle [])) (fun t =>
        (t.usart 0).tx == ⟨.busy, some 0x20000000#32, 3#32, .installed⟩ && (t.usart 0).cr1 == 0x200C#32
          && t.app == .rmw 0 0x200C#32 0x80#32 0#32) = true := by decide

/-- V-ASY-01: a BUSY direction keeps its transfer. -/
theorem test_txAsync_busy :
    gives (exec (.txAsync 0 0x20000100#32 5#32) (mk defaultParams (cfgOf 8 .none)
      (fun i => { i with tx := ⟨.busy, some 0x20000000#32, 3#32, .installed⟩ }) .idle [])) (fun t =>
        (t.usart 0).tx == ⟨.busy, some 0x20000000#32, 3#32, .installed⟩ && t.app == .idle && t.refused == none) =
      true := by decide

/-- P2 step 4, and V-ASY-02 for the receive direction. -/
theorem test_rxAsync :
    gives (exec (.rxAsync 0 0x20000100#32 3#32) (mk defaultParams (cfgOf 8 .none) (fun i => { i with cr1 := 0x200C#32 })
      .idle [])) (fun t =>
        (t.usart 0).rx == ⟨.busy, some 0x20000100#32, 3#32, .installed⟩
          && t.app == .rmw 0 0x200C#32 0x20#32 0#32) = true ∧
    gives (exec (.rxAsync 0 0x20000100#32 0#32) State.reset) (fun t => t.refused == some .zeroLength) = true := by decide

/-- V-ASY-09: a 9N unit of two bytes completes the transfer. -/
theorem test_txStep :
    gives (exec (.txStep 0) (mk defaultParams (cfgOf 9 .none) (fun i =>
      { i with cr1 := 0x80#32, tx := ⟨.busy, some 0x20000000#32, 2#32, .installed⟩ }) .idle
      [(0x20000000, 0x01#8), (0x20000001, 0x01#8)])) (fun t =>
        (t.usart 0).tdr == 0x101#9 && (t.usart 0).tx == .freed && (t.usart 0).cr1 == 0#32) = true := by decide

/-- The example of R174. -/
theorem test_rxStep :
    gives (exec (.rxStep 0) (mk defaultParams (cfgOf 8 .even) (fun i =>
      { i with cr1 := 0x20#32, rxne := true, rdr := some 0xC1#9, rx := ⟨.busy, some 0x20000100#32, 1#32, .installed⟩ })
      .idle [])) (fun t =>
        t.byteAt 0x20000100#32 == 0xC1#8 && (t.usart 0).rx == .freed && (t.usart 0).cr1 == 0#32
          && !(t.usart 0).rxne) = true := by decide

/-! ### The demultiplexer -/

/-- Both sources pending: a transmit of one byte and a receive of one byte in progress, as in P5. -/
def bothPending : State :=
  mk defaultParams (cfgOf 8 .none) (fun i =>
    { i with cr1 := 0x20AC#32, rxne := true, rdr := some 0x41#9
             tx := ⟨.busy, some 0x20000000#32, 1#32, .installed⟩
             rx := ⟨.busy, some 0x20000100#32, 1#32, .installed⟩ }) .idle [(0x20000000, 0x58#8)]

/-- V-IRQ-04. -/
theorem test_onIrq_both :
    gives (exec (.onIrq 0) bothPending) (fun t =>
      (t.usart 0).tdr == 0x58#9 && t.byteAt 0x20000100#32 == 0x41#8 && (t.usart 0).cr1 == 0x200C#32
        && (t.usart 0).tx == .freed && (t.usart 0).rx == .freed && !irqLine t 0) = true := by decide

/-- V-IRQ-06: the fault of the transmit phase ends the step. -/
theorem test_onIrq_null :
    gives (exec (.onIrq 0) (bothPending.setUsart 0 { bothPending.usart 0 with tx := .freed })) (fun t =>
      t.fault == some (.nullCallback 0 .tx) && (t.usart 0).rxne && (t.usart 0).rx.status == .busy) = true := by decide

/-! ### Control and register access -/

/-- V-CTL-01 and V-CTL-02. -/
theorem test_setEnabled :
    gives (exec (.setEnabled 0 false) (mk atomic (cfgOf 8 .none) (fun i => { i with cr1 := 0x200C#32 }) .idle []))
      (fun t => (t.usart 0).cr1 == 0xC#32) = true ∧
    gives (exec (.setEnabled 0 true) (mk defaultParams (cfgOf 8 .none) (fun i => { i with cr1 := 0xC#32 }) .idle []))
      (fun t => (t.usart 0).cr1 == 0xC#32 && t.app == .rmw 0 0xC#32 0x2000#32 0#32) = true := by decide

/-- V-CTL-04's commit: the latch wins over what CR1 holds by then. -/
theorem test_rmwCommit :
    gives (exec (.rmwCommit 0) (mk defaultParams (cfgOf 8 .none) (fun i => { i with cr1 := 0x8C#32 })
      (.rmw 0 0xAC#32 0x2000#32 0#32) [])) (fun t => (t.usart 0).cr1 == 0x20AC#32 && t.app == .idle) = true := by decide

/-- V-CTL-05. -/
theorem test_readFlag :
    gives (exec (.readFlag 0 .tc) State.reset) (fun t => t.results == [1#32] && (t.usart 0).tcArmed) = true ∧
    gives (exec (.readFlag 0 .rxne) State.reset) (fun t => t.results == [0#32]) = true := by decide

/-- V-CTL-07 and the first read of V-CTL-08. -/
theorem test_regRead_dr :
    gives (exec (.regRead 0 .dr) State.reset) (fun t => t.fault == some (.unwrittenRdr 0)) = true ∧
    gives (exec (.regRead 0 .dr) (mk defaultParams (cfgOf 8 .none) (fun i => { i with rxne := true, rdr := some 0x41#9 })
      .idle [])) (fun t => t.results == [0x41#32] && !(t.usart 0).rxne && (t.usart 0).rdr == some 0x41#9) = true := by
  decide

/-- V-CTL-16, V-CTL-17 and V-CTL-18. -/
theorem test_regWrite_dr :
    gives (exec (.regWrite 0 .dr 0x3FF#32) State.reset) (fun t =>
      (t.usart 0).tdr == 0x1FF#9 && !(t.usart 0).txe && (t.usart 0).tc && (t.usart 0).tdrLost == 0) = true ∧
    gives (exec (.regWrite 0 .dr 0x42#32) (mk defaultParams (cfgOf 8 .none) (fun i => { i with txe := false }) .idle []))
      (fun t => (t.usart 0).tdr == 0x42#9 && (t.usart 0).tdrLost == 1) = true := by decide

/-- V-CTL-09, V-CTL-10, V-CTL-12, V-CTL-13 and V-CTL-15. -/
theorem test_regWrite_others :
    gives (exec (.regWrite 0 .sr 0#32) State.reset) (fun t => t.refused == some .srWrite) = true ∧
    gives (exec (.regWrite 0 .cr1 1#32) State.reset) (fun t => t.refused == some .unmodelledBit) = true ∧
    gives (exec (.regWrite 0 .cr1 0xB6AC#32) State.reset) (fun t => (t.usart 0).cr1 == 0xB6AC#32) = true ∧
    gives (exec (.regWrite 0 .cr2 0x4000#32) State.reset) (fun t => t.refused == some .unmodelledBit) = true ∧
    gives (exec (.regWrite 0 .brr 0x12345#32) State.reset) (fun t => (t.usart 0).brr == 0x2345#32) = true := by decide

/-! ### The line side -/

/-- A USART enabled both ways, 8 data bits. -/
def enabled (i : Inst) : Inst := { i with cr1 := 0x200C#32 }

/-- V-LINE-01 and V-LINE-02. -/
theorem test_evTxLoad :
    gives (exec (.evTxLoad 0) (mk defaultParams (cfgOf 8 .none) (fun i => { i with cr1 := 8#32, txe := false }) .idle []))
      (fun t => (t.usart 0).shifter == none) = true ∧
    gives (exec (.evTxLoad 0) (mk defaultParams (cfgOf 8 .none)
      (fun i => { enabled i with txe := false, tdr := 0x1FF#9 }) .idle []))
      (fun t => (t.usart 0).shifter == some 0xFF#9 && (t.usart 0).txe) = true := by decide

/-- V-LINE-05 and V-LINE-11. -/
theorem test_evTxDone :
    gives (exec (.evTxDone 0) (mk defaultParams (cfgOf 8 .none)
      (fun i => { enabled i with txe := false, tc := false, shifter := some 0x48#9 }) .idle []))
      (fun t => (t.usart 0).lineOut == [0x48#9] && !(t.usart 0).tc && (t.usart 0).txLoadEnabled) = true ∧
    gives (exec (.evTxDone 0) (mk looped (cfgOf 8 .none)
      (fun i => { enabled i with tc := false, shifter := some 0xC1#9 }) .idle []))
      (fun t => (t.usart 0).lineOut == [0xC1#9] && (t.usart 0).tc && (t.usart 0).rdr == some 0xC1#9
        && (t.usart 0).rxne) = true := by decide

/-- V-LINE-06 and V-LINE-08. -/
theorem test_evRxFrame :
    gives (exec (.evRxFrame 0 0x1C1#9) (mk defaultParams (cfgOf 8 .none) enabled .idle []))
      (fun t => (t.usart 0).rdr == some 0xC1#9 && (t.usart 0).rxne) = true ∧
    gives (exec (.evRxFrame 0 0x42#9) (mk defaultParams (cfgOf 8 .none)
      (fun i => { enabled i with rxne := true, rdr := some 0x41#9 }) .idle []))
      (fun t => (t.usart 0).rdr == some 0x41#9 && (t.usart 0).rxLost == 1) = true := by decide

/-! ### Witnesses: for each obligation with hypotheses, values that meet them all -/

/-- `s` is running and the first turn of its schedule is an issue of `ws` by `a`. -/
def issuing (s : State) (a : Agent) (ws : OpWords) : State := s.setSchedule [.issue a ws]

theorem witness_DecodeOfEncode : WellFormed 16 (.regWrite 15 .cr3 0xFFFFFFFF#32) = true ∧
    WellFormed 1 (.evRxFrame 0 0x1FF#9) = true := by decide

theorem witness_EncodeOfDecode : decode 16 ⟨0x0AF50000#32, 0xFFFFFFFF#32, 0#32⟩ = .ok (.regWrite 15 .cr3 0xFFFFFFFF#32) := by
  decide

/-- One word per branch: a reserved field, an instance equal to `n`, register 6, flag 3, a 10-bit frame, and words that
pass. -/
theorem witness_FieldChecksRefuse :
    ((0x01000001#32 : Word).extractLsb' 24 8 = Opcode.init.code ∧
      0x01000001#32 &&& Opcode.init.format.notUsedMask ≠ 0#32) ∧
    ((0x01200000#32 : Word).extractLsb' 24 8 = Opcode.init.code ∧
      0x01200000#32 &&& Opcode.init.format.notUsedMask = 0#32 ∧ 2 ≤ ((0x01200000#32 : Word).extractLsb' 20 4).toNat) ∧
    ((0x09160000#32 : Word).extractLsb' 24 8 = Opcode.regRead.code ∧
      0x09160000#32 &&& Opcode.regRead.format.notUsedMask = 0#32 ∧
      ((0x09160000#32 : Word).extractLsb' 20 4).toNat < 2 ∧ 6 ≤ ((0x09160000#32 : Word).extractLsb' 16 4).toNat) ∧
    ((0x07000300#32 : Word).extractLsb' 24 8 = Opcode.readFlag.code ∧
      0x07000300#32 &&& Opcode.readFlag.format.notUsedMask = 0#32 ∧
      3 ≤ ((0x07000300#32 : Word).extractLsb' 8 4).toNat) ∧
    ((0x22000000#32 : Word).extractLsb' 24 8 = Opcode.evRxFrame.code ∧
      0x22000000#32 &&& Opcode.evRxFrame.format.notUsedMask = 0#32 ∧ 2 ^ 9 ≤ (0x200#32 : Word).toNat) ∧
    ((0x09150000#32 : Word).extractLsb' 24 8 = Opcode.regRead.code ∧
      0x09150000#32 &&& Opcode.regRead.format.notUsedMask = 0#32 ∧
      ((0x09150000#32 : Word).extractLsb' 20 4).toNat < 2 ∧ ¬6 ≤ ((0x09150000#32 : Word).extractLsb' 16 4).toNat) := by
  decide

/-- An INIT of the host, an ON_IRQ of each of its agents, the words 0x00000000 and 0x06000002, which do not decode, a host
write and a host read, and no turn left. -/
theorem witness_StepRunsDecodedOperation :
    (Running (issuing State.reset .host ⟨0x01000000#32, 0#32, 0#32⟩) ∧
      decode State.reset.params.nInst ⟨0x01000000#32, 0#32, 0#32⟩ = .ok (.init 0) ∧ mayIssue .host (.init 0) = true) ∧
    (decode State.reset.params.nInst ⟨0x08000000#32, 0#32, 0#32⟩ = .ok (.onIrq 0) ∧ mayIssue .irq (.onIrq 0) = true ∧
      State.reset.irqRouted 0 = true) ∧
    (Running (issuing (mk unrouted (cfgOf 8 .none) id .idle []) .host ⟨0x08000000#32, 0#32, 0#32⟩) ∧
      mayIssue .host (.onIrq 0) = true ∧ (mk unrouted (cfgOf 8 .none) id .idle []).irqRouted 0 = false) ∧
    (Running (issuing State.reset .host ⟨0#32, 0#32, 0#32⟩) ∧
      decode State.reset.params.nInst ⟨0#32, 0#32, 0#32⟩ = .error (.illegalOpcode 0#32) ∧
      decode State.reset.params.nInst ⟨0x06000002#32, 0#32, 0#32⟩ = .error (.reservedField 0x06000002#32)) ∧
    Running (State.reset.setSchedule [.hostWrite 0#32 0#8]) ∧ Running (State.reset.setSchedule [.hostRead 0#32]) ∧
    Running State.reset ∧ State.reset.schedule = [] := by
  decide

theorem witness_MarkedStateStops : (State.reset.raise (.busFault 0#32)).fault = some (.busFault 0#32) ∧
    (State.reset.refuse .srWrite).fault = none ∧ (State.reset.refuse .srWrite).refused = some .srWrite ∧
    step State.reset = .next State.reset := ⟨rfl, rfl, rfl, rfl⟩

theorem witness_HostIrqOnlyWhileNotRouted :
    (Running State.reset ∧ decode State.reset.params.nInst ⟨0x08F00000#32, 0#32, 0#32⟩ = .ok (.onIrq 15) ∧
      State.reset.irqRouted 15 = true) ∧
    Running (mk unrouted (cfgOf 8 .none) id .idle []) ∧ (mk unrouted (cfgOf 8 .none) id .idle []).irqRouted 15 = false ∧
      (mk unrouted (cfgOf 8 .none) id .idle []).app = .idle := by decide

/-- A host line event, an application host command, another LINE's event, and a host command outside IDLE. -/
theorem witness_OnlyListedIssuers :
    (Running (issuing State.reset .host ⟨0x22000000#32, 0#32, 0#32⟩) ∧
      decode State.reset.params.nInst ⟨0x22000000#32, 0#32, 0#32⟩ = .ok (.evRxFrame 0 0#9) ∧
      Agent.host ≠ .irq ∧ Agent.host ≠ .app ∧ Agent.host ≠ .line 0 ∧
      ¬((Instr.evRxFrame 0 0#9).opcode.code.toNat ≤ 0x0A)) ∧
    (decode State.reset.params.nInst ⟨0x12000000#32, 0#32, 0#32⟩ = .ok (.rmwCommit 0) ∧
      ¬((Instr.rmwCommit 0).opcode.code.toNat ≤ 0x0A)) ∧
    (Running (issuing State.reset (.line 0) ⟨0x20100000#32, 0#32, 0#32⟩) ∧
      decode State.reset.params.nInst ⟨0x20100000#32, 0#32, 0#32⟩ = .ok (.evTxLoad 1) ∧ Agent.line 0 ≠ .host ∧
      Agent.line 0 ≠ .irq ∧ Agent.line 0 ≠ .app ∧ Agent.line 0 ≠ .line (Instr.evTxLoad 1).inst) ∧
    (Running ((State.reset.setApp (.blkRx 0 0#32 1#32)).setSchedule [.issue .host ⟨0x0A000000#32, 0#32, 0#32⟩]) ∧
      decode State.reset.params.nInst ⟨0x0A000000#32, 0#32, 0#32⟩ = .ok (.regWrite 0 .sr 0#32) ∧
      0x01 ≤ (Instr.regWrite 0 .sr 0#32).opcode.code.toNat ∧ (Instr.regWrite 0 .sr 0#32).opcode.code.toNat ≤ 0x0A ∧
      (State.reset.setApp (.blkRx 0 0#32 1#32)).app ≠ .idle ∧ (Instr.regWrite 0 .sr 0#32).opcode.code.toNat ≠ 0x08) := by
  decide

theorem witness_InternalStepsNeedTheirState :
    decode 16 ⟨0x10000000#32, 0#32, 0#32⟩ = .ok (.txStep 0) ∧ decode 16 ⟨0x11F00000#32, 0#32, 0#32⟩ = .ok (.rxStep 15) ∧
    Running State.reset ∧ (∀ l x c, State.reset.app ≠ .rmw 0 l x c) ∧ (∀ c r, State.reset.app ≠ .blkTx 0 c r .units) ∧
    (∀ c r, State.reset.app ≠ .blkTx 0 c r .waitTc) ∧ ∀ c r, State.reset.app ≠ .blkRx 0 c r :=
  ⟨by decide, by decide, by decide, nofun, nofun, nofun, nofun⟩

theorem witness_PolledHoldChangesNothing :
    ((mk defaultParams (cfgOf 8 .none) (fun i => { i with txe := false }) (.blkTx 0 0#32 1#32 .units) []).usart 0).txe =
      false ∧
    ((mk defaultParams (cfgOf 8 .none) (fun i => { i with tc := false }) (.blkTx 0 0#32 0#32 .waitTc) []).usart 0).tc =
      false ∧
    ((mk defaultParams (cfgOf 8 .none) id (.blkRx 0 0#32 1#32) []).usart 0).rxne = false := by decide

theorem witness_LaunchResetState :
    ((Vector.replicate 16 defaultLaunchConfig).get (0 : Fin 16)).check = some defaultConfig := by decide

/-- A record bad in each of the four ways, at the edge of each set, and one good at both edges of `baud`. -/
theorem witness_BadConfigRefusesLaunch :
    badConfigs defaultParams (Vector.replicate 16 { cfgOf 8 .none with baud := 0 }) = true ∧
    badConfigs defaultParams (Vector.replicate 16 { cfgOf 8 .none with baud := 2 ^ 32 }) = true ∧
    badConfigs defaultParams (Vector.replicate 16 (cfgOf 10 .none)) = true ∧
    badConfigs defaultParams (Vector.replicate 16 { cfgOf 8 .none with oversampling := 4 }) = true ∧
    badConfigs defaultParams (Vector.replicate 16 { cfgOf 9 .none with baud := 2 ^ 32 - 1 }) = false ∧
    badConfigs defaultParams (Vector.replicate 16 { cfgOf 9 .none with baud := 1 }) = false := by decide

theorem witness_LaunchMeetsInvariant : Memory.wf [(0, 1#8), (2 ^ 32 - 1, 0#8)] = true := by decide

theorem witness_InitWritesControlWords : State.reset.app = .idle := rfl

theorem witness_InitStoresDivisor : (mk defaultParams { cfgOf 8 .none with oversampling := 8 } id .idle []).app = .idle ∧
    ((mk defaultParams { cfgOf 8 .none with oversampling := 8 } id .idle []).usart 0).cfg.oversampling = .by8 := by decide

/-- V-BRR-17 and V-BRR-15, at the edge of each range. -/
theorem witness_FractionCarryLost : 94 = div100 .nearest 45000000 9600 8 % 100 ∧
    97 = div100 .nearest 788 25 16 % 100 := by decide

/-- The four bytes of `small`: an access inside, one whose first byte is missing, one whose second byte is. -/
theorem witness_MemoryAccessLaws :
    let s := mk small (cfgOf 9 .none) id .idle []
    Memory.wf s.mem = true ∧ memValid s 0x20000002#32 = true ∧ memValid s 0x20000003#32 = true ∧
      memValid s 0x1FFFFFFF#32 = false ∧ memValid s 0x20000004#32 = false := by decide

theorem witness_SelectorTable : (Inst.atReset { defaultConfig with wordLength := .nine }).cfg.parity = .none ∧
    (Inst.atReset { defaultConfig with wordLength := .nine, parity := .odd }).cfg.parity ≠ .none ∧
    (Inst.atReset defaultConfig).cfg.wordLength = .eight ∧
    (Inst.atReset { defaultConfig with parity := .even }).cfg.parity ≠ .none := by decide

/-- V-SEL-05 and V-SEL-06: a whole 9N unit and a final partial one at the last byte. -/
theorem witness_FetchUnitGivesMaskedUnit :
    let s := mk small (cfgOf 9 .none) id .idle []
    (3#32 : Word) ≠ 0#32 ∧ memValid s 0x20000000#32 = true ∧ memValid s (0x20000000#32 + 1#32) = true ∧
      min (s.usart 0).format.unitBytes.bytes (3#32 : Word).toNat = 2 ∧
      (1#32 : Word) ≠ 0#32 ∧ memValid s 0x20000003#32 = true ∧
      min (s.usart 0).format.unitBytes.bytes (1#32 : Word).toNat ≠ 2 := by decide

theorem witness_StoreUnitWritesMaskedUnit :
    let s := mk small (cfgOf 9 .none) id .idle []
    Memory.wf s.mem = true ∧ (2#32 : Word) ≠ 0#32 ∧ memValid s 0x20000002#32 = true ∧
      memValid s (0x20000002#32 + 1#32) = true ∧ memValid s 0x20000003#32 = true ∧
      min (s.usart 0).format.unitBytes.bytes (1#32 : Word).toNat ≠ 2 := by decide

/-- The edges of the range: 2^32 + 1, 2^32 and an empty range. -/
theorem witness_PolledRequestsStart : State.reset.app = .idle ∧
    ((2#32 : Word) ≠ 0#32 ∧ 2 ^ 32 < (0xFFFFFFFF#32 : Word).toNat + (2#32 : Word).toNat) ∧
    ((1#32 : Word) ≠ 0#32 ∧ (0xFFFFFFFF#32 : Word).toNat + (1#32 : Word).toNat ≤ 2 ^ 32) := by decide

theorem witness_BlkTxUnitSends :
    let s := mk defaultParams (cfgOf 8 .none) id (.blkTx 0 0x20000000#32 1#32 .units) [(0x20000000, 0x48#8)]
    s.app = .blkTx 0 0x20000000#32 1#32 .units ∧ (s.usart 0).txe = true ∧
      memRead s 0x20000000#32 ((s.usart 0).nextSize 1#32) = .ok 0x48#16 := ⟨rfl, rfl, rfl⟩

theorem witness_BlkTxFinishReturns :
    let s := mk defaultParams (cfgOf 8 .none) id (.blkTx 0 0x20000000#32 0#32 .waitTc) []
    s.app = .blkTx 0 0x20000000#32 0#32 .waitTc ∧ (s.usart 0).tc = true := by decide

/-- The last byte of an odd 9N receive, and a whole unit. -/
theorem witness_BlkRxUnitStores :
    let s := mk small (cfgOf 9 .none) (fun i => { i with rxne := true, rdr := some 0x1A5#9 }) (.blkRx 0 0x20000003#32 1#32) []
    let v := mk small (cfgOf 9 .none) (fun i => { i with rxne := true, rdr := some 0x1A5#9 }) (.blkRx 0 0x20000002#32 2#32) []
    (s.app = .blkRx 0 0x20000003#32 1#32 ∧ (s.usart 0).rxne = true ∧ (s.usart 0).rdr = some 0x1A5#9 ∧
      firstMissing s 0x20000003#32 ((s.usart 0).nextSize 1#32) = none ∧ Memory.wf s.mem = true) ∧
    firstMissing v 0x20000002#32 ((v.usart 0).nextSize 2#32) = none ∧ (v.usart 0).nextSize 2#32 = .two := by decide

theorem witness_PolledBusFaults :
    let s := mk small (cfgOf 9 .none) id (.blkTx 0 0x20000003#32 2#32 .units) []
    let v := mk small (cfgOf 9 .none) (fun i => { i with rxne := true, rdr := some 0#9 }) (.blkRx 0 0x20000003#32 2#32) []
    (firstMissing s 0x20000003#32 ((s.usart 0).nextSize 2#32) = some 0x20000004#32 ∧
      s.app = .blkTx 0 0x20000003#32 2#32 .units ∧ (s.usart 0).txe = true) ∧
    (firstMissing v 0x20000003#32 ((v.usart 0).nextSize 2#32) = some 0x20000004#32 ∧
      v.app = .blkRx 0 0x20000003#32 2#32 ∧ (v.usart 0).rxne = true ∧ (v.usart 0).rdr = some 0#9) := by decide

theorem witness_AsyncRequestAccepted : State.reset.app = .idle ∧ (State.reset.usart 0).tx.status = .free ∧
    (State.reset.usart 0).rx.status = .free ∧ (0xFFFFFFFF#32 : Word).toNat + (1#32 : Word).toNat ≤ 2 ^ 32 := by decide

theorem witness_AsyncRequestTurnedAway : bothPending.app = .idle ∧ (bothPending.usart 0).tx.status = .busy ∧
    (bothPending.usart 0).rx.status = .busy ∧ (State.reset.usart 0).tx.status = .free ∧
    (State.reset.usart 0).rx.status = .free ∧ 2 ^ 32 < (0xFFFFFFFF#32 : Word).toNat + (2#32 : Word).toNat := by decide

/-- A 9N transfer of three bytes: a whole unit, not the last. -/
def nineBusy : State :=
  mk defaultParams (cfgOf 9 .none) (fun i => { i with rdr := some 0x1A5#9, rxne := true, cr1 := 0x30AC#32
                                                      tx := ⟨.busy, some 0x20000000#32, 3#32, .installed⟩
                                                      rx := ⟨.busy, some 0x20000100#32, 3#32, .installed⟩ }) .idle
    [(0x20000000, 0xFF#8), (0x20000001, 0x01#8)]

theorem witness_TxStepMovesUnit :
    ((nineBusy.usart 0).tx.callback = .installed ∧ (nineBusy.usart 0).tx.cursor = some 0x20000000#32 ∧
      (nineBusy.usart 0).tx.remaining ≠ 0#32 ∧
      memRead nineBusy 0x20000000#32 ((nineBusy.usart 0).nextSize (nineBusy.usart 0).tx.remaining) = .ok 0x1FF#16) ∧
    memRead bothPending 0x20000000#32 ((bothPending.usart 0).nextSize (bothPending.usart 0).tx.remaining) =
      .ok 0x58#16 := ⟨⟨rfl, rfl, by decide, rfl⟩, rfl⟩

theorem witness_RxStepMovesUnit :
    (nineBusy.usart 0).rx.callback = .installed ∧ (nineBusy.usart 0).rx.cursor = some 0x20000100#32 ∧
      (nineBusy.usart 0).rx.remaining ≠ 0#32 ∧ (nineBusy.usart 0).rdr = some 0x1A5#9 ∧
      firstMissing nineBusy 0x20000100#32 ((nineBusy.usart 0).nextSize (nineBusy.usart 0).rx.remaining) = none ∧
      Memory.wf nineBusy.mem = true ∧
      (bothPending.usart 0).rx.remaining = ((bothPending.usart 0).nextSize (bothPending.usart 0).rx.remaining).word := by
  decide

/-- Both directions of an enabled USART, each cursor as given, 8 data bits, buffer bytes as in `small`. -/
def cursors (p : Params) (c e : Word) (tx rx : Callback) : State :=
  mk p (cfgOf 8 .none) (fun i => { i with cr1 := 0x20AC#32, rxne := true, rdr := some 0x41#9
                                          tx := ⟨.busy, some c, 1#32, tx⟩
                                          rx := ⟨.busy, some e, 1#32, rx⟩ }) .idle [(0x20000003, 0x58#8)]

/-- Both directions at a byte outside `small`, one only, and the receive direction after a transmit unit at its last
byte. -/
theorem witness_CallbackBusFaults :
    let s := cursors small 0x20000004#32 0x1FFFFFFF#32 .installed .installed
    let v := s.setUsart 0 { s.usart 0 with txe := false }
    let w := cursors small 0x20000003#32 0x20000004#32 .installed .installed
    (s.irqRouted 0 = true ∧ (s.usart 0).txe = true ∧ (s.usart 0).cr1.getLsbD 7 = true ∧
      (s.usart 0).tx.callback = .installed ∧ (s.usart 0).tx.cursor = some 0x20000004#32 ∧
      (s.usart 0).tx.remaining ≠ 0#32 ∧
      firstMissing s 0x20000004#32 ((s.usart 0).nextSize (s.usart 0).tx.remaining) = some 0x20000004#32) ∧
    (v.irqRouted 0 = true ∧ (v.usart 0).txe = false ∧ (v.usart 0).rxne = true ∧ (v.usart 0).cr1.getLsbD 5 = true ∧
      (v.usart 0).rx.callback = .installed ∧ (v.usart 0).rx.cursor = some 0x1FFFFFFF#32 ∧
      (v.usart 0).rx.remaining ≠ 0#32 ∧ (v.usart 0).rdr = some 0x41#9 ∧
      firstMissing v 0x1FFFFFFF#32 ((v.usart 0).nextSize (v.usart 0).rx.remaining) = some 0x1FFFFFFF#32) ∧
    (w.irqRouted 0 = true ∧ (w.usart 0).txe = true ∧ (w.usart 0).cr1.getLsbD 7 = true ∧ (w.usart 0).rxne = true ∧
      (w.usart 0).cr1.getLsbD 5 = true ∧ (w.usart 0).rx.callback = .installed ∧
      (w.usart 0).rx.cursor = some 0x20000004#32 ∧ (w.usart 0).rx.remaining ≠ 0#32 ∧
      (w.usart 0).rdr = some 0x41#9 ∧ (w.usart 0).tx.callback = .installed ∧
      (w.usart 0).tx.cursor = some 0x20000003#32 ∧ (w.usart 0).tx.remaining ≠ 0#32 ∧
      firstMissing w 0x20000004#32 ((w.usart 0).nextSize (w.usart 0).rx.remaining) = some 0x20000004#32) ∧
    memRead w 0x20000003#32 ((w.usart 0).nextSize (w.usart 0).tx.remaining) = .ok 0x58#16 :=
  ⟨by decide, by decide, by decide, rfl⟩

/-- A 9N transfer of three bytes in a memory of exactly those three. -/
def nineSmall : State :=
  mk { defaultParams with memMap := [⟨0x20000000, 3⟩] } (cfgOf 9 .none) (fun i =>
    { i with rdr := some 0x1A5#9
             tx := ⟨.busy, some 0x20000000#32, 3#32, .installed⟩
             rx := ⟨.busy, some 0x20000000#32, 3#32, .installed⟩ }) .idle []

/-- Three bytes in 9N are two units, and the byte behind them does not exist. -/
theorem witness_TransmitCallbackCount :
    (nineSmall.usart 0).tx = ⟨.busy, some 0x20000000#32, 3#32, .installed⟩ ∧ (3#32 : Word) ≠ 0#32 ∧
      nineSmall.fault = none ∧ (0x20000000#32 : Word).toNat + (3#32 : Word).toNat ≤ 2 ^ 32 ∧
      (∀ j, j < 3 → memValid nineSmall (0x20000000#32 + BitVec.ofNat 32 j) = true) ∧
      memValid nineSmall 0x20000003#32 = false ∧
      ((3#32 : Word).toNat + (nineSmall.usart 0).format.unitBytes.bytes - 1) /
        (nineSmall.usart 0).format.unitBytes.bytes = 2 := by decide

theorem witness_ReceiveCallbackCount :
    (nineSmall.usart 0).rx = ⟨.busy, some 0x20000000#32, 3#32, .installed⟩ ∧ nineSmall.fault = none ∧
      (nineSmall.usart 0).rdr = some 0x1A5#9 ∧
      ∀ j, j < 3 → memValid nineSmall (0x20000000#32 + BitVec.ofNat 32 j) = true := by decide

/-- A high routed line, and a low one. -/
theorem witness_IrqDelivery : Running nineBusy ∧
    decode nineBusy.params.nInst ⟨0x08000000#32, 0#32, 0#32⟩ = .ok (.onIrq 0) ∧ nineBusy.irqRouted 0 = true ∧
    irqLine nineBusy 0 = true ∧ irqLine State.reset 0 = false ∧
    (mk unrouted (cfgOf 8 .none) id .idle []).irqRouted 0 = false := by decide

theorem witness_OnIrqServicesBoth :
    (bothPending.irqRouted 0 = true ∧ (bothPending.usart 0).txe = true ∧ (bothPending.usart 0).cr1.getLsbD 7 = true ∧
      (bothPending.usart 0).rxne = true ∧ (bothPending.usart 0).cr1.getLsbD 5 = true ∧
      (bothPending.usart 0).tx.callback = .installed ∧ (bothPending.usart 0).tx.cursor = some 0x20000000#32 ∧
      (bothPending.usart 0).tx.remaining ≠ 0#32 ∧ (bothPending.usart 0).rx.callback = .installed ∧
      (bothPending.usart 0).rx.cursor = some 0x20000100#32 ∧ (bothPending.usart 0).rx.remaining ≠ 0#32 ∧
      (bothPending.usart 0).rdr = some 0x41#9 ∧
      firstMissing bothPending 0x20000100#32 ((bothPending.usart 0).nextSize (bothPending.usart 0).rx.remaining) = none ∧
      Memory.wf bothPending.mem = true) ∧
    memRead bothPending 0x20000000#32 ((bothPending.usart 0).nextSize (bothPending.usart 0).tx.remaining) =
      .ok 0x58#16 := ⟨by decide, rfl⟩

/-- `bothPending` with one enable bit cleared serves one direction only. -/
theorem witness_OnIrqServicesOne :
    let s := bothPending.setUsart 0 { bothPending.usart 0 with cr1 := 0x208C#32 }
    let v := bothPending.setUsart 0 { bothPending.usart 0 with cr1 := 0x202C#32 }
    (s.irqRouted 0 = true ∧ (s.usart 0).txe = true ∧ (s.usart 0).cr1.getLsbD 7 = true ∧
      (s.usart 0).cr1.getLsbD 5 = false ∧ (s.usart 0).tx.callback = .installed ∧
      (s.usart 0).tx.cursor = some 0x20000000#32 ∧ (s.usart 0).tx.remaining ≠ 0#32 ∧
      memRead s 0x20000000#32 ((s.usart 0).nextSize (s.usart 0).tx.remaining) = .ok 0x58#16) ∧
    (v.irqRouted 0 = true ∧ (v.usart 0).rxne = true ∧ (v.usart 0).cr1.getLsbD 5 = true ∧
      (v.usart 0).cr1.getLsbD 7 = false ∧ (v.usart 0).rx.callback = .installed ∧
      (v.usart 0).rx.cursor = some 0x20000100#32 ∧ (v.usart 0).rx.remaining ≠ 0#32 ∧
      (v.usart 0).rdr = some 0x41#9 ∧
      firstMissing v 0x20000100#32 ((v.usart 0).nextSize (v.usart 0).rx.remaining) = none ∧
      Memory.wf v.mem = true) :=
  ⟨⟨by decide, by decide, by decide, by decide, by decide, by decide, by decide, rfl⟩, by decide⟩

/-- V-IRQ-03. -/
theorem witness_OnIrqNothingPending :
    let s := mk unrouted (cfgOf 8 .none) id .idle []
    s.app = .idle ∧ s.irqRouted 0 = false ∧ irqLine s 0 = false := by decide

/-- V-IRQ-05, P6 step 12, and a receive source with no callback behind a transmit unit that is sent. -/
theorem witness_NullCallbackFaults :
    let s := mk defaultParams (cfgOf 8 .none) (fun i => { i with cr1 := 0x208C#32 }) .idle []
    let v := mk defaultParams (cfgOf 8 .none) (fun i => { i with cr1 := 0x202C#32, rxne := true, rdr := some 0x42#9 })
      .idle []
    let w := cursors small 0x20000003#32 0#32 .installed .null
    (s.irqRouted 0 = true ∧ (s.usart 0).txe = true ∧ (s.usart 0).cr1.getLsbD 7 = true ∧
      (s.usart 0).tx.callback = .null) ∧
    (v.irqRouted 0 = true ∧ (v.usart 0).cr1.getLsbD 7 = false ∧ (v.usart 0).rxne = true ∧
      (v.usart 0).cr1.getLsbD 5 = true ∧ (v.usart 0).rx.callback = .null) ∧
    (w.irqRouted 0 = true ∧ (w.usart 0).rxne = true ∧ (w.usart 0).cr1.getLsbD 5 = true ∧
      (w.usart 0).rx.callback = .null ∧ (w.usart 0).txe = true ∧ (w.usart 0).cr1.getLsbD 7 = true ∧
      (w.usart 0).tx.callback = .installed ∧ (w.usart 0).tx.cursor = some 0x20000003#32 ∧
      (w.usart 0).tx.remaining ≠ 0#32) ∧
    memRead w 0x20000003#32 ((w.usart 0).nextSize (w.usart 0).tx.remaining) = .ok 0x58#16 :=
  ⟨by decide, by decide, by decide, rfl⟩

/-- A state that meets the invariant with its line high, whose ON_IRQ sets no mark. -/
theorem witness_ServicedLineIsLow : Inv bothPending ∧ irqLine bothPending 0 = true ∧
    gives (exec (.onIrq 0) bothPending) (fun t => t.fault == none && t.refused == none) = true := by decide

theorem witness_SetEnabledTogglesUe : State.reset.app = .idle ∧ State.reset.params.atomicCr1Rmw = false ∧
    (mk atomic (cfgOf 8 .none) id .idle []).params.atomicCr1Rmw = true := by decide

theorem witness_RmwCommitWritesLatch :
    (State.reset.setApp (.rmw 15 0xAC#32 0x2000#32 0#32)).app = .rmw 15 0xAC#32 0x2000#32 0#32 := rfl

theorem witness_SetEnabledIdempotent : State.reset.app = .idle := rfl

/-- V-CTL-04: the commit re-sets RXNEIE. The transmit of `bothPending` also ends in the same ON_IRQ. -/
def lostUpdate : State := bothPending.setApp (.rmw 0 0x20AC#32 0x2000#32 0#32)

/-- The same with last units of two bytes. -/
def lostUpdateNine : State :=
  (mk defaultParams (cfgOf 9 .none) (fun i => { i with cr1 := 0x30AC#32, rxne := true, rdr := some 0x141#9
                                                       tx := ⟨.busy, some 0x20000000#32, 2#32, .installed⟩
                                                       rx := ⟨.busy, some 0x20000100#32, 2#32, .installed⟩ }) .idle
    [(0x20000000, 0x58#8), (0x20000001, 0x01#8)]).setApp (.rmw 0 0x30AC#32 0x2000#32 0#32)

/-- `s` meets every premise of both halves of LostUpdateOfCr1. -/
def MeetsLostUpdate (s : State) (latch set clr : Word) : Prop :=
  let i := s.usart 0
  s.app = .rmw 0 latch set clr ∧ s.irqRouted 0 = true ∧ s.fault = none ∧
    (latch.getLsbD 5 = true ∧ clr.getLsbD 5 = false ∧ i.rxne = true ∧ i.rxneie = true ∧ i.rx.status = .busy ∧
      i.rx.callback = .installed ∧ i.rx.cursor ≠ none ∧ i.rx.remaining = (i.nextSize i.rx.remaining).word) ∧
    (latch.getLsbD 7 = true ∧ clr.getLsbD 7 = false ∧ i.txe = true ∧ i.txeie = true ∧ i.tx.status = .busy ∧
      i.tx.callback = .installed ∧ i.tx.cursor ≠ none ∧ i.tx.remaining = (i.nextSize i.tx.remaining).word) ∧
    gives (exec (.onIrq 0) s) (fun t =>
      t.fault == none && gives (exec (.rmwCommit 0) t) (fun v => (v.usart 0).rxneie && (v.usart 0).txeie)) = true

theorem witness_LostUpdateOfCr1 : MeetsLostUpdate lostUpdate 0x20AC#32 0x2000#32 0#32 := by
  unfold MeetsLostUpdate
  decide

theorem witness_LostUpdateOfCr1_twoBytes : MeetsLostUpdate lostUpdateNine 0x30AC#32 0x2000#32 0#32 := by
  unfold MeetsLostUpdate
  decide

theorem witness_ReadFlagAppendsFlag : State.reset.app = .idle := rfl

theorem witness_SrReadAppendsFlags : State.reset.app = .idle := rfl

theorem witness_RegReadAppendsRegister : State.reset.app = .idle ∧ (State.reset.usart 0).rdr = none ∧
    bothPending.app = .idle ∧ (bothPending.usart 0).rdr = some 0x41#9 ∧ RegName.cr1 ≠ .sr ∧ RegName.cr1 ≠ .dr := by decide

/-- A value at each edge of each mask. -/
theorem witness_RegWriteStores : State.reset.app = .idle ∧
    0xB6AC#32 &&& ~~~0xB6AC#32 = 0#32 ∧ 0x0800#32 &&& ~~~0xB6AC#32 ≠ 0#32 ∧
    0x3000#32 &&& ~~~0x3000#32 = 0#32 ∧ 0x4000#32 &&& ~~~0x3000#32 ≠ 0#32 ∧
    0x0300#32 &&& ~~~0x0300#32 = 0#32 ∧ 0x0400#32 &&& ~~~0x0300#32 ≠ 0#32 := by decide

theorem witness_TxLoadMovesFrame :
    let s := mk defaultParams (cfgOf 8 .none) (fun i => { enabled i with txe := false }) .idle []
    (s.usart 0).cr1.getLsbD 13 = true ∧ (s.usart 0).cr1.getLsbD 3 = true ∧ (s.usart 0).txe = false ∧
      (s.usart 0).shifter = none := by decide

/-- With and without loopback. -/
theorem witness_TxDoneFinishesFrame :
    let s := mk looped (cfgOf 8 .none) (fun i => { enabled i with shifter := some 0xC1#9 }) .idle []
    let v := mk defaultParams (cfgOf 8 .none) (fun i => { enabled i with shifter := some 0xC1#9 }) .idle []
    (s.usart 0).cr1.getLsbD 13 = true ∧ (s.usart 0).cr1.getLsbD 3 = true ∧ (s.usart 0).shifter = some 0xC1#9 ∧
      s.loopback 0 = .register ∧ (s.usart 0).cr1.getLsbD 2 = true ∧ v.loopback 0 = .off := by decide

theorem witness_RxFrameArrives :
    let s := mk defaultParams (cfgOf 8 .none) enabled .idle []
    (s.usart 0).cr1.getLsbD 13 = true ∧ (s.usart 0).cr1.getLsbD 2 = true ∧ s.loopback 0 = .off := by decide

/-- One state per reason a line step is not enabled. -/
theorem witness_GatedLineHolds :
    let s := State.reset
    let v := mk looped (cfgOf 8 .none) (fun i => { enabled i with shifter := some 0#9 }) .idle []
    ((s.usart 0).cr1.getLsbD 13 = false ∧ (s.usart 0).cr1.getLsbD 3 = false ∧ (s.usart 0).cr1.getLsbD 2 = false ∧
      (s.usart 0).txe = true ∧ (s.usart 0).shifter = none) ∧ (v.usart 0).shifter ≠ none ∧ v.loopback 0 = .register := by
  decide

/-- The reset state and a state in the middle of both transfers meet the invariant, and their step answers next. -/
theorem witness_EveryStepKeepsInvariant : Inv State.reset ∧ step State.reset = .next State.reset ∧ Inv nineBusy ∧
    gives (step (issuing nineBusy .irq ⟨0x08000000#32, 0#32, 0#32⟩)) (fun _ => true) = true :=
  ⟨by decide, rfl, by decide, by decide⟩

theorem witness_ConfigurationNeverChanges : step State.reset = .next State.reset := rfl

theorem witness_OneUsartPerOperation : gives (exec (.init 0) State.reset) (fun _ => true) = true ∧
    (15 : InstIx) ≠ (Instr.init 0).inst := by decide

/-- For each clause, an operation outside its list. -/
theorem witness_OnlyListedWriters :
    gives (exec (.init 0) State.reset) (fun _ => true) = true ∧
    ((.init 0 : Instr) ≠ .txStep 0 ∧ (.init 0 : Instr) ≠ .onIrq 0 ∧ ∀ b l, (.init 0 : Instr) ≠ .txAsync 0 b l) ∧
    ((.init 0 : Instr) ≠ .rxStep 0 ∧ ∀ b l, (.init 0 : Instr) ≠ .rxAsync 0 b l) ∧
    (∀ v, (.init 0 : Instr) ≠ .rxStep v ∧ (.init 0 : Instr) ≠ .onIrq v ∧ (.init 0 : Instr) ≠ .blkRxUnit v) ∧
    (∀ v f r, (.init 0 : Instr) ≠ .readFlag v f ∧ (.init 0 : Instr) ≠ .regRead v r) ∧
    (.init 0 : Instr) ≠ .evTxDone 0 ∧
    ((.onIrq 0 : Instr) ≠ .init 0 ∧ ∀ r x, (.onIrq 0 : Instr) ≠ .regWrite 0 r x) :=
  ⟨by decide, ⟨nofun, nofun, nofun⟩, ⟨nofun, nofun⟩, fun _ => ⟨nofun, nofun, nofun⟩, fun _ _ _ => ⟨nofun, nofun⟩, nofun,
    ⟨nofun, nofun⟩⟩

/-- V-CTL-17 as a step of the host. -/
theorem witness_OnlyRawWriteLosesUnit :
    gives (step (issuing (mk defaultParams (cfgOf 8 .none) (fun i => { i with txe := false }) .idle []) .host
      ⟨0x0A010000#32, 0x42#32, 0#32⟩)) (fun t => (t.usart 0).tdrLost == 1) = true := by decide

/-- A state of an atomic run with both directions BUSY and both enables set. -/
def atomicBusy : State :=
  mk atomic (cfgOf 8 .none) (fun i => { i with cr1 := 0x20AC#32
                                               tx := ⟨.busy, some 0x20000000#32, 2#32, .installed⟩
                                               rx := ⟨.busy, some 0x20000100#32, 2#32, .installed⟩ }) .idle []

theorem witness_BusyIffEnabledWithoutBypass :
    atomicBusy.params.atomicCr1Rmw = true ∧ Inv atomicBusy ∧ (∀ u l x c, atomicBusy.app ≠ .rmw u l x c) ∧
      (∀ u : InstIx, (atomicBusy.usart u).busyIffEnabled = true) ∧
      (∀ u x, (.setEnabled 0 false : Instr) ≠ .regWrite u .cr1 x) ∧ (∀ u, (.setEnabled 0 false : Instr) ≠ .init u) ∧
      gives (exec (.setEnabled 0 false) atomicBusy) (fun _ => true) = true :=
  ⟨by decide, by decide, nofun, by decide, nofun, nofun, by decide⟩

/-- INIT of a USART with both directions FREE. -/
theorem witness_BusyIffEnabledWithoutBypass_init :
    (atomicBusy.usart 1).tx.status = .free ∧ (atomicBusy.usart 1).rx.status = .free ∧
      gives (exec (.init 1) atomicBusy) (fun _ => true) = true := by decide

theorem witness_LoopbackRoundTrip : (Inst.atReset defaultConfig).m = decide (defaultConfig.wordLength = .nine) ∧
    ({ Inst.atReset { defaultConfig with wordLength := .nine } with cr1 := 0x1000#32 } : Inst).m = true := by decide

/-- An access of the host inside `small`, one just past it, and one outside IDLE. -/
theorem witness_HostAccessesMemory :
    let s := mk small (cfgOf 8 .none) id .idle []
    Running (s.setSchedule [.hostWrite 0x20000003#32 5#8]) ∧ Running (s.setSchedule [.hostRead 0x20000003#32]) ∧
      Memory.wf s.mem = true ∧ s.app = .idle ∧ memValid s 0x20000003#32 = true ∧ memValid s 0x20000004#32 = false ∧
      (s.setApp (.blkRx 0 0#32 1#32)).app ≠ .idle := by decide

end Sys2Proof.Tests
end

section
/-! One step of a running machine, by the turn at the head of its schedule (O6). -/

namespace Sys2Proof.Machine

/-- With no turn left, every agent waits (R11). -/
theorem step_of_schedule_nil {s : State} (h : Running s) (hq : s.schedule = []) : step s = .next s := by
  simp only [step, h.1, h.2, hq]

/-- A running machine takes the first turn of the schedule out of it (R7). -/
theorem step_of_schedule_cons {s : State} {t : Turn} {rest : List Turn} (h : Running s)
    (hq : s.schedule = t :: rest) : step s = takeTurn t (s.setSchedule rest) := by
  simp only [step, h.1, h.2, hq]

/-- ON_IRQ is the one operation of the IRQ agent (R99). -/
theorem eq_onIrq_of_mayIssue_irq {i : Instr} (h : mayIssue .irq i = true) : i = .onIrq i.inst := by
  cases i with
  | onIrq u => rfl
  | _ => cases h

/-- The issuer checks of R95 pass an operation its agent may issue, when an ON_IRQ belongs to the IRQ agent exactly
while the line is routed (R193, R196). -/
theorem issueVerdict_eq_run {s : State} {a : Agent} {i : Instr} {w : Word} (hm : mayIssue a i = true)
    (hroute : ∀ u, i = .onIrq u → (a = .irq ↔ s.irqRouted u = true)) : issueVerdict s a i w = .run i := by
  have hhost : ¬(a = .host ∧ i = .onIrq i.inst ∧ s.irqRouted i.inst = true) := by
    rintro ⟨rfl, hi, hr⟩
    cases (hroute _ hi).mpr hr
  have hirq : ¬(a = .irq ∧ s.irqRouted i.inst = false) := by
    rintro ⟨rfl, hr⟩
    have hi := (hroute _ (eq_onIrq_of_mayIssue_irq hm)).mp rfl
    exact Bool.false_ne_true (hr.symm.trans hi)
  rw [issueVerdict, if_neg hhost, if_neg (by simp [hm]), if_neg hirq]

theorem turnVerdict_of_decode_error {s : State} {a : Agent} {ws : OpWords} {e : DecodeError}
    (hd : decode s.params.nInst ws = .error e) : turnVerdict s a ws = .reject (refusalOf e) := by
  simp only [turnVerdict, hd]

/-- Words that do not decode are refused, whoever issues them (R95, R250). -/
theorem step_of_decode_error {s : State} {a : Agent} {ws : OpWords} {rest : List Turn} {e : DecodeError}
    (h : Running s) (hq : s.schedule = .issue a ws :: rest) (hd : decode s.params.nInst ws = .error e) :
    step s = .next ((s.setSchedule rest).refuse (refusalOf e)) := by
  have hv : turnVerdict (s.setSchedule rest) a ws = .reject (refusalOf e) := turnVerdict_of_decode_error hd
  simp only [step_of_schedule_cons h hq, takeTurn, hv]

/-- An operation whose agent may issue it, and whose routing lets it, runs. -/
theorem step_of_decode_ok {s : State} {a : Agent} {ws : OpWords} {rest : List Turn} {i : Instr} (h : Running s)
    (hq : s.schedule = .issue a ws :: rest) (hd : decode s.params.nInst ws = .ok i) (hm : mayIssue a i = true)
    (hroute : ∀ u, i = .onIrq u → (a = .irq ↔ s.irqRouted u = true)) : step s = exec i (s.setSchedule rest) := by
  have hv : issueVerdict (s.setSchedule rest) a i ws.op = .run i := issueVerdict_eq_run hm hroute
  rw [step_issue h hq hd, hv]

/-- Settles O6, by the kind of turn at the head of the schedule. -/
theorem stepRunsDecodedOperation : Obligations.StepRunsDecodedOperation := by
  unfold Obligations.StepRunsDecodedOperation
  refine ⟨?run, ?undecoded, ?reasons, ?hostWrite, ?hostRead, ?empty⟩
  case run => exact fun _ _ _ _ _ => step_of_decode_ok
  case undecoded => exact fun _ _ _ _ _ => step_of_decode_error
  case reasons => exact fun _ => ⟨rfl, rfl, rfl, rfl, rfl⟩
  case hostWrite => exact fun _ _ _ _ => step_of_schedule_cons
  case hostRead => exact fun _ _ _ => step_of_schedule_cons
  case empty => exact fun _ => step_of_schedule_nil

end Sys2Proof.Machine
end

section
/-! Marked states (O7), the launch (O12, O14) and the IRQ line (O34). -/

namespace Sys2Proof.Machine

/-- Settles O7, by what a step can do. -/
theorem markedStateStops : Obligations.MarkedStateStops := by
  unfold Obligations.MarkedStateStops
  refine fun s => ⟨fun f hf => ?fault, fun r hf hr => ?refused, fun t ht => (step_next_cases ht).1⟩
  case fault => simp only [step, hf]
  case refused => simp only [step, hf, hr]

/-- The launch puts every USART in its reset state (R59), the default record standing in for a refused one. -/
@[simp] theorem State.usart_launch (p : Params) (cfgs : Vector LaunchConfig 16) (m : Memory) (q : List Turn)
    (u : InstIx) :
    (State.launch p cfgs m q).usart u = Inst.atReset ((cfgs.get u).check.getD defaultConfig) := by
  simp [State.usart, State.launch, Vector.get_eq_getElem]

/-- Settles O12, from the reset state of one USART. -/
theorem launchResetState : Obligations.LaunchResetState := by
  unfold Obligations.LaunchResetState
  intro p cfgs m q u
  simp only [State.usart_launch]
  refine ⟨rfl, rfl, rfl, rfl, rfl, rfl, rfl, rfl, rfl, rfl, rfl, rfl, rfl, rfl, rfl, rfl, rfl, rfl, rfl, rfl, rfl, ?_⟩
  intro c hc
  rw [hc]
  rfl

/-- A record that passes the launch check lies inside its sets (R31, R271). -/
theorem LaunchConfig.wf_of_check {c : LaunchConfig} {d : Config} (h : c.check = some d) : d.wf = true := by
  unfold LaunchConfig.check at h
  split at h
  · cases h
  · rename_i hb
    split at h
    · cases h
      simp only [Config.wf, Bool.and_eq_true, decide_eq_true_eq]
      omega
    · cases h

/-- The record a USART is launched with lies inside its sets, whatever was offered. -/
theorem launchedConfig_wf (c : LaunchConfig) : (c.check.getD defaultConfig).wf = true := by
  cases hc : c.check with
  | none => rfl
  | some d => exact LaunchConfig.wf_of_check hc

theorem Inst.wf_atReset (p : Params) {c : Config} (hc : c.wf = true) : Inst.wf p (Inst.atReset c) = true := by
  rw [Inst.wf_iff]
  have hbrr : brrFits p 0#32 = true := by
    unfold brrFits
    split <;> rfl
  exact ⟨hc, rfl, rfl, BitVec.zero_and, BitVec.zero_and, BitVec.zero_and, hbrr, nofun, nofun⟩

/-- Settles O14: every USART starts well formed, in IDLE. -/
theorem launchMeetsInvariant : Obligations.LaunchMeetsInvariant := by
  unfold Obligations.LaunchMeetsInvariant
  refine fun p cfgs m q hm => ⟨hm, rfl, fun u => ?_⟩
  rw [State.usart_launch]
  exact Inst.wf_atReset _ (launchedConfig_wf _)

/-- Settles O34: the line is the disjunction of its two sources, TXEIE and RXNEIE being bits 7 and 5 of CR1. -/
theorem irqLineIsLevel : Obligations.IrqLineIsLevel := by
  unfold Obligations.IrqLineIsLevel
  simp [irqLine, Inst.irq, Inst.txeie, Inst.rxneie]

end Sys2Proof.Machine
end

section
/-! ON_IRQ and the step-callbacks as their parts: the layer under O53, O58 and O56, whatever it is that is kept. -/

namespace Sys2Proof.Machine

variable {s t : State} {u : InstIx}

/-- What holds before ON_IRQ holds after it, when a read of SR, a mark and the two step-callbacks keep it (R193). -/
theorem execOnIrq_keeps {P : State → Prop} (read : ∀ s, P s → P (afterReadSR s u)) (raise : ∀ s f, P s → P (s.raise f))
    (refuse : ∀ s r, P s → P (s.refuse r)) (txStep : ∀ s t, P s → execTxStep u s = .next t → P t)
    (rxStep : ∀ s t, P s → execRxStep u s = .next t → P t) (hs : P s) (h : execOnIrq u s = .next t) : P t := by
  obtain ⟨-, rfl⟩ | ⟨-, -, rfl⟩ | ⟨-, h⟩ := execOnIrq_cases h
  · exact refuse _ _ hs
  · exact hs
  · obtain ⟨f, -, -, rfl⟩ | ⟨s1, hTx, hRx⟩ := finish_serviceIrq_cases h
    · exact raise _ _ (read _ hs)
    · have h1 : P s1 := by
        obtain ⟨-, -, hTx⟩ | ⟨-, rfl⟩ := hTx
        · exact txStep _ _ (read _ hs) hTx
        · exact read _ hs
      obtain ⟨-, -, hRx⟩ | ⟨-, rfl⟩ := hRx
      · exact rxStep _ _ (read _ h1) hRx
      · exact read _ h1

/-- A transmit callback that moves a unit writes DR and moves the direction on (R172). -/
theorem txMovedState_eq (s : State) (u : InstIx) (c : Word) (raw : Half) (n : UnitSize) :
    txMovedState s u c raw n =
      (writeDR s u ((s.usart u).sentFrame raw)).setUsart u
        (((writeDR s u ((s.usart u).sentFrame raw)).usart u).txMoved c n) := by
  simp [txMovedState, writeDR]

/-- A receive callback that moves a unit reads RDR, stores the unit and moves the direction on (R174). -/
theorem rxMovedState_eq (s : State) (u : InstIx) (c : Word) (d : Frame) (n : UnitSize) :
    rxMovedState s u c d n =
      (written (rdrTaken s u) c n ((s.usart u).storedUnit d)).setUsart u
        (((written (rdrTaken s u) c n ((s.usart u).storedUnit d)).usart u).rxMoved c n) := by
  simp [rxMovedState]

end Sys2Proof.Machine
end

section
/-! Every step keeps the invariant (O53). -/

namespace Sys2Proof.Machine

/-! ### One USART: a well-formed value in one field -/

section
variable {p : Params} {i : Inst}

theorem Inst.wf_setTx (h : Inst.wf p i = true) {d : DirState} (hd : d.wf = true) :
    Inst.wf p { i with tx := d } = true := by
  rw [Inst.wf_iff] at h ⊢
  exact ⟨h.1, hd, h.2.2⟩

theorem Inst.wf_setRx (h : Inst.wf p i = true) {d : DirState} (hd : d.wf = true) :
    Inst.wf p { i with rx := d } = true := by
  rw [Inst.wf_iff] at h ⊢
  obtain ⟨hcfg, htx, -, hrest⟩ := h
  exact ⟨hcfg, htx, hd, hrest⟩

theorem Inst.wf_setCr1 (h : Inst.wf p i = true) {x : Word} (hx : x &&& ~~~cr1Modelled = 0#32) :
    Inst.wf p { i with cr1 := x } = true := by
  rw [Inst.wf_iff] at h ⊢
  obtain ⟨hcfg, htx, hrx, -, hrest⟩ := h
  exact ⟨hcfg, htx, hrx, hx, hrest⟩

theorem Inst.wf_setCr2 (h : Inst.wf p i = true) {x : Word} (hx : x &&& ~~~cr2Modelled = 0#32) :
    Inst.wf p { i with cr2 := x } = true := by
  rw [Inst.wf_iff] at h ⊢
  obtain ⟨hcfg, htx, hrx, h1, -, hrest⟩ := h
  exact ⟨hcfg, htx, hrx, h1, hx, hrest⟩

theorem Inst.wf_setCr3 (h : Inst.wf p i = true) {x : Word} (hx : x &&& ~~~cr3Modelled = 0#32) :
    Inst.wf p { i with cr3 := x } = true := by
  rw [Inst.wf_iff] at h ⊢
  obtain ⟨hcfg, htx, hrx, h1, h2, -, hrest⟩ := h
  exact ⟨hcfg, htx, hrx, h1, h2, hx, hrest⟩

theorem Inst.wf_setBrr (h : Inst.wf p i = true) {x : Word} (hx : brrFits p x = true) :
    Inst.wf p { i with brr := x } = true := by
  rw [Inst.wf_iff] at h ⊢
  obtain ⟨hcfg, htx, hrx, h1, h2, h3, -, hrest⟩ := h
  exact ⟨hcfg, htx, hrx, h1, h2, h3, hx, hrest⟩

theorem Inst.tx_wf (h : Inst.wf p i = true) : i.tx.wf = true := ((Inst.wf_iff p i).mp h).2.1

theorem Inst.rx_wf (h : Inst.wf p i = true) : i.rx.wf = true := ((Inst.wf_iff p i).mp h).2.2.1

theorem Inst.cr1_modelled (h : Inst.wf p i = true) : i.cr1 &&& ~~~cr1Modelled = 0#32 :=
  ((Inst.wf_iff p i).mp h).2.2.2.1

/-- A transmit direction that moved no more than it had to go is well formed, completed or not (R137, R176). -/
theorem Inst.wf_txMoved (h : Inst.wf p i = true) {c : Word} {n : UnitSize} (hc : i.tx.cursor = some c)
    (hn : n.bytes ≤ i.tx.remaining.toNat) : Inst.wf p (i.txMoved c n) = true := by
  unfold Inst.txMoved
  split
  · exact Inst.wf_setTx (Inst.wf_setCr1 h (and_inside _ (Inst.cr1_modelled h))) rfl
  · exact Inst.wf_setTx h (DirState.wf_advance (Inst.tx_wf h) hc hn ‹_›)

/-- A receive direction that moved no more than it had to go is well formed, completed or not (R137, R176). -/
theorem Inst.wf_rxMoved (h : Inst.wf p i = true) {c : Word} {n : UnitSize} (hc : i.rx.cursor = some c)
    (hn : n.bytes ≤ i.rx.remaining.toNat) : Inst.wf p (i.rxMoved c n) = true := by
  unfold Inst.rxMoved
  split
  · exact Inst.wf_setRx (Inst.wf_setCr1 h (and_inside _ (Inst.cr1_modelled h))) rfl
  · exact Inst.wf_setRx h (DirState.wf_advance (Inst.rx_wf h) hc hn ‹_›)

end

/-- A direction that accepted a request of at least one byte inside the address space is well formed (R88, R170). -/
theorem DirState.wf_accepted {buf len : Word} (hl : len ≠ 0#32) (hb : bufferWraps buf len = false) :
    (DirState.accepted buf len).wf = true := by
  simp [DirState.wf, DirState.accepted, hl, rangeFits_of_not_wraps hb hl]

/-! ### The state: marks, results, the schedule and one byte -/

section
variable {s t : State} {u : InstIx}

theorem Inv.usart (h : Inv s) (u : InstIx) : Inst.wf s.params (s.usart u) = true := h.2.2 u

theorem Inv.app_wf (h : Inv s) : s.app.wf = true := h.2.1

theorem Inv.raise (h : Inv s) (f : Fault) : Inv (s.raise f) := h

theorem Inv.refuse (h : Inv s) (r : Refusal) : Inv (s.refuse r) := h

theorem Inv.emit (h : Inv s) (v : Word) : Inv (s.emit v) := h

theorem Inv.setSchedule (h : Inv s) (q : List Turn) : Inv (s.setSchedule q) := h

theorem Inv.setByte (h : Inv s) (a : Word) (b : Byte) : Inv (s.setByte a b) := ⟨State.setByte_wf s a b h.1, h.2⟩

/-! ### The step-callbacks and the polled units -/

theorem execTxStep_inv (h : Inv s) (hx : execTxStep u s = .next t) : Inv t := by
  obtain rfl | ⟨f, rfl⟩ | ⟨c, r, raw, -, hp, rfl⟩ := execTxStep_cases hx
  · exact h
  · exact h.raise f
  · obtain ⟨hc, rfl, hr⟩ := (pending_some_iff _ _ _).mp hp
    rw [txMovedState_eq]
    have hw := h.writeDR u ((s.usart u).sentFrame raw)
    refine hw.setUsart u (Inst.wf_txMoved (hw.usart u) ?cursor ?size)
    case cursor => simpa [Inst.writeDR] using hc
    case size => simpa [Inst.writeDR] using (s.usart u).nextSize_le hr

theorem execRxStep_inv (h : Inv s) (hx : execRxStep u s = .next t) : Inv t := by
  obtain rfl | ⟨f, rfl⟩ | ⟨f, rfl⟩ | ⟨c, r, d, -, hp, -, rfl⟩ := execRxStep_cases hx
  · exact h
  · exact h.raise f
  · exact (h.rdrTaken u).raise f
  · obtain ⟨hc, rfl, hr⟩ := (pending_some_iff _ _ _).mp hp
    rw [rxMovedState_eq]
    have hw := (h.rdrTaken u).written c ((s.usart u).nextSize (s.usart u).rx.remaining) ((s.usart u).storedUnit d)
    refine hw.setUsart u (Inst.wf_rxMoved (hw.usart u) ?cursor ?size)
    case cursor => simpa using hc
    case size => simpa using (s.usart u).nextSize_le hr

theorem execBlkTxUnit_inv (h : Inv s) (hx : execBlkTxUnit u s = .next t) : Inv t := by
  obtain rfl | ⟨c, r, ha, hr, -, ⟨f, rfl⟩ | ⟨v, n, rfl, rfl⟩⟩ := execBlkTxUnit_cases hx
  · exact h
  · exact (h.afterReadSR u).raise f
  · have hfit : rangeFits c r = true := by simpa [ha, AppState.wf, hr] using h.app_wf
    refine ((h.afterReadSR u).writeDR u v).setApp ?_
    split
    · simpa [AppState.wf] using ‹_›
    · simpa [AppState.wf, rangeFits_advance hfit ((s.usart u).nextSize_le hr) ‹_›] using ‹_›

theorem execBlkRxUnit_inv (h : Inv s) (hx : execBlkRxUnit u s = .next t) : Inv t := by
  obtain rfl | ⟨c, r, ha, hr, -, ⟨f, rfl⟩ | ⟨f, rfl⟩ | ⟨v, n, rfl, rfl⟩⟩ := execBlkRxUnit_cases hx
  · exact h
  · exact (h.afterReadSR u).raise f
  · exact ((h.afterReadSR u).rdrTaken u).raise f
  · have hfit : rangeFits c r = true := by simpa [ha, AppState.wf, hr] using h.app_wf
    refine (((h.afterReadSR u).rdrTaken u).written c _ v).setApp ?_
    split
    · rfl
    · simpa [AppState.wf, rangeFits_advance hfit ((s.usart u).nextSize_le hr) ‹_›] using ‹_›

/-! ### The host's commands and the line -/

theorem execInit_inv (h : Inv s) (hx : execInit u s = .next t) : Inv t := by
  obtain ⟨-, rfl⟩ | ⟨-, rfl⟩ := execInit_cases hx
  · exact h.refuse _
  · exact h.setUsart u (Inst.wf_setBrr (Inst.wf_setCr3 (Inst.wf_setCr2 (Inst.wf_setCr1 (h.usart u)
      (cr1Init_modelled _)) (cr2Init_modelled _)) (cr3Init_modelled _)) (brrFits_brrStored _ _))

theorem execTxBlock_inv {buf len : Word} (h : Inv s) (hx : execTxBlock u buf len s = .next t) : Inv t := by
  obtain ⟨-, rfl⟩ | ⟨-, ⟨-, rfl⟩ | ⟨-, -, rfl⟩ | ⟨hb, hl, rfl⟩⟩ := execTxBlock_cases hx
  · exact h.refuse _
  · exact h.refuse _
  · exact h.setApp rfl
  · exact h.setApp (by simp [AppState.wf, hl, rangeFits_of_not_wraps hb hl])

theorem execRxBlock_inv {buf len : Word} (h : Inv s) (hx : execRxBlock u buf len s = .next t) : Inv t := by
  obtain ⟨-, rfl⟩ | ⟨-, ⟨-, rfl⟩ | ⟨-, -, rfl⟩ | ⟨hb, hl, rfl⟩⟩ := execRxBlock_cases hx
  · exact h.refuse _
  · exact h.refuse _
  · exact h
  · exact h.setApp (by simp [AppState.wf, hl, rangeFits_of_not_wraps hb hl])

theorem execTxAsync_inv {buf len : Word} (h : Inv s) (hx : execTxAsync u buf len s = .next t) : Inv t := by
  obtain ⟨-, rfl⟩ | ⟨-, ⟨-, rfl⟩ | ⟨-, -, rfl⟩ | ⟨-, -, -, rfl⟩ | ⟨-, hl, hb, rfl⟩⟩ := execTxAsync_cases hx
  · exact h.refuse _
  · exact h
  · exact h.refuse _
  · exact h.refuse _
  · exact (h.setUsart u (Inst.wf_setTx (h.usart u) (DirState.wf_accepted hl hb))).rmwCr1 u _ (by decide)

theorem execRxAsync_inv {buf len : Word} (h : Inv s) (hx : execRxAsync u buf len s = .next t) : Inv t := by
  obtain ⟨-, rfl⟩ | ⟨-, ⟨-, rfl⟩ | ⟨-, -, rfl⟩ | ⟨-, -, -, rfl⟩ | ⟨-, hl, hb, rfl⟩⟩ := execRxAsync_cases hx
  · exact h.refuse _
  · exact h
  · exact h.refuse _
  · exact h.refuse _
  · exact (h.setUsart u (Inst.wf_setRx (h.usart u) (DirState.wf_accepted hl hb))).rmwCr1 u _ (by decide)

theorem execSetEnabled_inv {en : Bool} (h : Inv s) (hx : execSetEnabled u en s = .next t) : Inv t := by
  obtain ⟨-, rfl⟩ | ⟨-, ⟨-, rfl⟩ | ⟨-, rfl⟩⟩ := execSetEnabled_cases hx
  · exact h.refuse _
  · exact h.rmwCr1 u _ (by decide)
  · exact h.rmwCr1 u _ (by decide)

theorem execReadFlag_inv {f : Flag} (h : Inv s) (hx : execReadFlag u f s = .next t) : Inv t := by
  obtain ⟨-, rfl⟩ | ⟨-, rfl⟩ := execReadFlag_cases hx
  · exact h.refuse _
  · exact (h.afterReadSR u).emit _

theorem execRegRead_inv {r : RegName} (h : Inv s) (hx : execRegRead u r s = .next t) : Inv t := by
  obtain ⟨-, rfl⟩ | ⟨-, ⟨-, rfl⟩ | ⟨-, -, rfl⟩ | ⟨-, d, -, rfl⟩ | ⟨-, -, v, rfl⟩⟩ := execRegRead_cases hx
  · exact h.refuse _
  · exact (h.afterReadSR u).emit _
  · exact h.raise _
  · exact (h.rdrTaken u).emit _
  · exact h.emit v

theorem execRegWrite_inv {r : RegName} {x : Word} (h : Inv s) (hx : execRegWrite u r x s = .next t) : Inv t := by
  obtain ⟨-, rfl⟩ | ⟨-, ⟨q, rfl⟩ | ⟨-, rfl⟩ | ⟨-, rfl⟩ | ⟨-, hm, rfl⟩ | ⟨-, hm, rfl⟩ | ⟨-, hm, rfl⟩⟩ :=
    execRegWrite_cases hx
  · exact h.refuse _
  · exact h.refuse q
  · exact h.writeDR u _
  · exact h.setUsart u (Inst.wf_setBrr (h.usart u) (brrFits_brrStored _ _))
  · exact h.setUsart u (Inst.wf_setCr1 (h.usart u) hm)
  · exact h.setUsart u (Inst.wf_setCr2 (h.usart u) hm)
  · exact h.setUsart u (Inst.wf_setCr3 (h.usart u) hm)

/-- The write half sets no not-modelled bit, because the invariant holds of the latched word (R40, R282). -/
theorem execRmwCommit_inv (h : Inv s) (hx : execRmwCommit u s = .next t) : Inv t := by
  obtain rfl | ⟨latch, set, clr, ha, rfl⟩ := execRmwCommit_cases hx
  · exact h
  · have hm : rmwValue latch set clr &&& ~~~cr1Modelled = 0#32 := by simpa [ha, AppState.wf] using h.app_wf
    exact (h.setUsart u (Inst.wf_setCr1 (h.usart u) hm)).setApp rfl

theorem execEvTxDone_inv (h : Inv s) (hx : execEvTxDone u s = .next t) : Inv t := by
  obtain rfl | ⟨v, -, ⟨-, -, rfl⟩ | rfl⟩ := execEvTxDone_cases hx
  · exact h
  · exact h.setUsart u (Inst.wf_receive v (Inst.wf_sent v (h.usart u)))
  · exact h.setUsart u (Inst.wf_sent v (h.usart u))

/-- Every operation keeps the invariant. -/
theorem exec_inv {i : Instr} (h : Inv s) (hx : exec i s = .next t) : Inv t := by
  cases i with
  | init u => exact execInit_inv h hx
  | txBlock u buf len => exact execTxBlock_inv h hx
  | rxBlock u buf len => exact execRxBlock_inv h hx
  | txAsync u buf len => exact execTxAsync_inv h hx
  | rxAsync u buf len => exact execRxAsync_inv h hx
  | setEnabled u en => exact execSetEnabled_inv h hx
  | readFlag u f => exact execReadFlag_inv h hx
  | onIrq u =>
    exact execOnIrq_keeps (P := Inv) (fun _ h => h.afterReadSR u) (fun _ f h => h.raise f) (fun _ r h => h.refuse r)
      (fun _ _ => execTxStep_inv) (fun _ _ => execRxStep_inv) h hx
  | regRead u r => exact execRegRead_inv h hx
  | regWrite u r x => exact execRegWrite_inv h hx
  | txStep u => exact execTxStep_inv h hx
  | rxStep u => exact execRxStep_inv h hx
  | rmwCommit u => exact execRmwCommit_inv h hx
  | blkTxUnit u => exact execBlkTxUnit_inv h hx
  | blkTxFinish u =>
    obtain rfl | ⟨-, -, rfl⟩ := execBlkTxFinish_cases hx
    · exact h
    · exact (h.afterReadSR u).setApp rfl
  | blkRxUnit u => exact execBlkRxUnit_inv h hx
  | evTxLoad u =>
    obtain rfl | ⟨-, rfl⟩ := execEvTxLoad_cases hx
    · exact h
    · exact h.setUsart u (h.usart u)
  | evTxDone u => exact execEvTxDone_inv h hx
  | evRxFrame u v =>
    obtain rfl | ⟨-, rfl⟩ := execEvRxFrame_cases hx
    · exact h
    · exact h.setUsart u (Inst.wf_receive v (h.usart u))

end

/-- Settles O53: a turn either runs an operation, which keeps the invariant, or only marks, waits or writes a byte. -/
theorem everyStepKeepsInvariant : Obligations.EveryStepKeepsInvariant := by
  unfold Obligations.EveryStepKeepsInvariant
  intro s t h hs
  obtain ⟨-, ⟨-, rfl⟩ | ⟨tn, rest, -, hturn⟩⟩ := step_next_cases hs
  · exact h
  · have hq : Inv (s.setSchedule rest) := h.setSchedule rest
    obtain ⟨r, rfl⟩ | rfl | ⟨a, b, -, -, ⟨f, rfl⟩ | rfl⟩ | ⟨a, f, -, -, rfl⟩ | ⟨ag, ws, i, -, -, -, hx⟩ := hturn
    · exact hq.refuse r
    · exact hq
    · exact hq.raise f
    · exact hq.setByte a b
    · exact hq.raise f
    · exact exec_inv hq hx

end Sys2Proof.Machine
end

section
/-! BUSY iff its interrupt is enabled, with an atomic read-modify-write of CR1 (O58). -/

namespace Sys2Proof.Machine

/-! ### One USART -/

theorem Inst.busyIffEnabled_iff (i : Inst) :
    i.busyIffEnabled = true ↔
      (i.tx.status = .busy ↔ i.cr1.getLsbD 7 = true) ∧ (i.rx.status = .busy ↔ i.cr1.getLsbD 5 = true) := by
  rw [Inst.busyIffEnabled, Bool.and_eq_true, beq_iff_eq, beq_iff_eq, Bool.eq_iff_iff,
    Bool.eq_iff_iff (a := i.rx.status == .busy)]
  simp only [beq_iff_eq, Inst.txeie, Inst.rxneie]

/-- INIT leaves both interrupts disabled (R119). -/
theorem cr1Init_interrupts_clear (c : Config) :
    (cr1Init c)[7] = false ∧ (cr1Init c)[5] = false := by
  obtain ⟨_, wl, pa, sb, ov, mo, fl⟩ := c
  cases wl <;> cases pa <;> cases ov <;> cases mo <;> simp [cr1Init, maskIf]

section
variable {i : Inst}

theorem Inst.busyIffEnabled_init (htx : i.tx.status = .free) (hrx : i.rx.status = .free) (c : Config)
    (cr2 cr3 brr : Word) :
    ({ i with cr1 := cr1Init c, cr2 := cr2, cr3 := cr3, brr := brr } : Inst).busyIffEnabled = true := by
  rw [Inst.busyIffEnabled_iff]
  simp [htx, hrx, cr1Init_interrupts_clear c]

/-- Writing UE leaves the interrupts alone (R205). -/
theorem Inst.busyIffEnabled_setUE (h : i.busyIffEnabled = true) :
    ({ i with cr1 := rmwValue i.cr1 bitUE 0#32 } : Inst).busyIffEnabled = true ∧
      ({ i with cr1 := rmwValue i.cr1 0#32 bitUE } : Inst).busyIffEnabled = true := by
  simp only [Inst.busyIffEnabled_iff] at h ⊢
  simpa [rmwValue, bitUE] using h

/-- A transmit request makes the direction BUSY and sets TXEIE (R170). -/
theorem Inst.busyIffEnabled_txAccepted (h : i.busyIffEnabled = true) (buf len : Word) :
    ({ i with tx := DirState.accepted buf len, cr1 := rmwValue i.cr1 bitTXEIE 0#32 } : Inst).busyIffEnabled =
      true := by
  rw [Inst.busyIffEnabled_iff] at h ⊢
  simpa [rmwValue, bitTXEIE, DirState.accepted] using h.2

/-- A receive request makes the direction BUSY and sets RXNEIE (R173). -/
theorem Inst.busyIffEnabled_rxAccepted (h : i.busyIffEnabled = true) (buf len : Word) :
    ({ i with rx := DirState.accepted buf len, cr1 := rmwValue i.cr1 bitRXNEIE 0#32 } : Inst).busyIffEnabled =
      true := by
  rw [Inst.busyIffEnabled_iff] at h ⊢
  simpa [rmwValue, bitRXNEIE, DirState.accepted] using h.1

/-- Complete clears TXEIE with the status, and until then neither changes (R176). -/
theorem Inst.busyIffEnabled_txMoved (h : i.busyIffEnabled = true) (c : Word) (n : UnitSize) :
    (i.txMoved c n).busyIffEnabled = true := by
  unfold Inst.txMoved
  split
  · rw [Inst.busyIffEnabled_iff] at h ⊢
    simpa [bitTXEIE, DirState.freed] using h.2
  · exact h

/-- Complete clears RXNEIE with the status, and until then neither changes (R176). -/
theorem Inst.busyIffEnabled_rxMoved (h : i.busyIffEnabled = true) (c : Word) (n : UnitSize) :
    (i.rxMoved c n).busyIffEnabled = true := by
  unfold Inst.rxMoved
  split
  · rw [Inst.busyIffEnabled_iff] at h ⊢
    simpa [bitRXNEIE, DirState.freed] using h.1
  · exact h

theorem Inst.busyIffEnabled_receive (h : i.busyIffEnabled = true) (v : Frame) :
    (i.receive v).busyIffEnabled = true := by
  unfold Inst.receive
  split <;> exact h

end

/-! ### The state -/

/-- I1 of every USART, in a state where no read-modify-write of CR1 is pending and none can become so. -/
structure AtomicBusyIff (s : State) : Prop where
  atomic : s.params.atomicCr1Rmw = true
  noRmw  : ∀ u l x c, s.app ≠ .rmw u l x c
  usart  : ∀ u : InstIx, (s.usart u).busyIffEnabled = true

section
variable {s t : State} {u : InstIx}

theorem AtomicBusyIff.setUsart (h : AtomicBusyIff s) (u : InstIx) {i : Inst} (hi : i.busyIffEnabled = true) :
    AtomicBusyIff (s.setUsart u i) := by
  refine ⟨h.atomic, h.noRmw, fun v => ?_⟩
  rw [State.usart_setUsart]
  split
  · exact hi
  · exact h.usart v

theorem AtomicBusyIff.setApp (h : AtomicBusyIff s) {a : AppState} (ha : ∀ u l x c, a ≠ .rmw u l x c) :
    AtomicBusyIff (s.setApp a) := ⟨h.atomic, ha, h.usart⟩

theorem AtomicBusyIff.raise (h : AtomicBusyIff s) (f : Fault) : AtomicBusyIff (s.raise f) :=
  ⟨h.atomic, h.noRmw, h.usart⟩

theorem AtomicBusyIff.refuse (h : AtomicBusyIff s) (r : Refusal) : AtomicBusyIff (s.refuse r) :=
  ⟨h.atomic, h.noRmw, h.usart⟩

theorem AtomicBusyIff.emit (h : AtomicBusyIff s) (v : Word) : AtomicBusyIff (s.emit v) :=
  ⟨h.atomic, h.noRmw, h.usart⟩

theorem AtomicBusyIff.written (h : AtomicBusyIff s) (a : Word) (n : UnitSize) (v : Half) :
    AtomicBusyIff (written s a n v) :=
  ⟨by simpa using h.atomic, by simpa using h.noRmw, by simpa using h.usart⟩

theorem AtomicBusyIff.afterReadSR (h : AtomicBusyIff s) (u : InstIx) : AtomicBusyIff (afterReadSR s u) := by
  have hread : AtomicBusyIff (s.setUsart u { s.usart u with tcArmed := (s.usart u).tcArmed || (s.usart u).tc }) :=
    h.setUsart u (h.usart u)
  exact ⟨h.atomic, h.noRmw, hread.usart⟩

theorem AtomicBusyIff.writeDR (h : AtomicBusyIff s) (u : InstIx) (x : Frame) : AtomicBusyIff (writeDR s u x) :=
  h.setUsart u (h.usart u)

theorem AtomicBusyIff.rdrTaken (h : AtomicBusyIff s) (u : InstIx) : AtomicBusyIff (rdrTaken s u) :=
  h.setUsart u (h.usart u)

/-- An atomic read-modify-write of CR1 is one write of it (R216). -/
theorem rmwCr1_of_atomic (h : s.params.atomicCr1Rmw = true) (u : InstIx) (set clr : Word) :
    rmwCr1 s u set clr = s.setUsart u { s.usart u with cr1 := rmwValue (s.usart u).cr1 set clr } := by
  simp [rmwCr1, h]

theorem execTxStep_atomicBusyIff (h : AtomicBusyIff s) (hx : execTxStep u s = .next t) : AtomicBusyIff t := by
  obtain rfl | ⟨f, rfl⟩ | ⟨c, r, raw, -, -, rfl⟩ := execTxStep_cases hx
  · exact h
  · exact h.raise f
  · rw [txMovedState_eq]
    have hw := h.writeDR u ((s.usart u).sentFrame raw)
    exact hw.setUsart u (Inst.busyIffEnabled_txMoved (hw.usart u) _ _)

theorem execRxStep_atomicBusyIff (h : AtomicBusyIff s) (hx : execRxStep u s = .next t) : AtomicBusyIff t := by
  obtain rfl | ⟨f, rfl⟩ | ⟨f, rfl⟩ | ⟨c, r, d, -, -, -, rfl⟩ := execRxStep_cases hx
  · exact h
  · exact h.raise f
  · exact (h.rdrTaken u).raise f
  · rw [rxMovedState_eq]
    have hw := (h.rdrTaken u).written c ((s.usart u).nextSize r) ((s.usart u).storedUnit d)
    exact hw.setUsart u (Inst.busyIffEnabled_rxMoved (hw.usart u) _ _)

theorem execTxAsync_atomicBusyIff {buf len : Word} (h : AtomicBusyIff s) (hx : execTxAsync u buf len s = .next t) :
    AtomicBusyIff t := by
  obtain ⟨-, rfl⟩ | ⟨-, ⟨-, rfl⟩ | ⟨-, -, rfl⟩ | ⟨-, -, -, rfl⟩ | ⟨-, -, -, rfl⟩⟩ := execTxAsync_cases hx
  · exact h.refuse _
  · exact h
  · exact h.refuse _
  · exact h.refuse _
  · rw [rmwCr1_of_atomic (s := txAcceptedState s u buf len) h.atomic, txAcceptedState, State.usart_setUsart_same,
      State.setUsart_setUsart]
    exact h.setUsart u (Inst.busyIffEnabled_txAccepted (h.usart u) buf len)

theorem execRxAsync_atomicBusyIff {buf len : Word} (h : AtomicBusyIff s) (hx : execRxAsync u buf len s = .next t) :
    AtomicBusyIff t := by
  obtain ⟨-, rfl⟩ | ⟨-, ⟨-, rfl⟩ | ⟨-, -, rfl⟩ | ⟨-, -, -, rfl⟩ | ⟨-, -, -, rfl⟩⟩ := execRxAsync_cases hx
  · exact h.refuse _
  · exact h
  · exact h.refuse _
  · exact h.refuse _
  · rw [rmwCr1_of_atomic (s := rxAcceptedState s u buf len) h.atomic, rxAcceptedState, State.usart_setUsart_same,
      State.setUsart_setUsart]
    exact h.setUsart u (Inst.busyIffEnabled_rxAccepted (h.usart u) buf len)

theorem execSetEnabled_atomicBusyIff {en : Bool} (h : AtomicBusyIff s) (hx : execSetEnabled u en s = .next t) :
    AtomicBusyIff t := by
  obtain ⟨hset, hclear⟩ := Inst.busyIffEnabled_setUE (h.usart u)
  obtain ⟨-, rfl⟩ | ⟨-, ⟨-, rfl⟩ | ⟨-, rfl⟩⟩ := execSetEnabled_cases hx
  · exact h.refuse _
  · exact rmwCr1_of_atomic h.atomic u _ _ ▸ h.setUsart u hset
  · exact rmwCr1_of_atomic h.atomic u _ _ ▸ h.setUsart u hclear

theorem execRegRead_atomicBusyIff {r : RegName} (h : AtomicBusyIff s) (hx : execRegRead u r s = .next t) :
    AtomicBusyIff t := by
  obtain ⟨-, rfl⟩ | ⟨-, ⟨-, rfl⟩ | ⟨-, -, rfl⟩ | ⟨-, d, -, rfl⟩ | ⟨-, -, v, rfl⟩⟩ := execRegRead_cases hx
  · exact h.refuse _
  · exact (h.afterReadSR u).emit _
  · exact h.raise _
  · exact (h.rdrTaken u).emit _
  · exact h.emit v

/-- A raw write of a register other than CR1 touches no interrupt enable. -/
theorem execRegWrite_atomicBusyIff {r : RegName} {x : Word} (h : AtomicBusyIff s) (hr : r ≠ .cr1)
    (hx : execRegWrite u r x s = .next t) : AtomicBusyIff t := by
  obtain ⟨-, rfl⟩ | ⟨-, ⟨q, rfl⟩ | ⟨-, rfl⟩ | ⟨-, rfl⟩ | ⟨hcr1, -, -⟩ | ⟨-, -, rfl⟩ | ⟨-, -, rfl⟩⟩ :=
    execRegWrite_cases hx
  · exact h.refuse _
  · exact h.refuse q
  · exact h.writeDR u _
  · exact h.setUsart u (h.usart u)
  · exact absurd hcr1 hr
  · exact h.setUsart u (h.usart u)
  · exact h.setUsart u (h.usart u)

theorem execTxBlock_atomicBusyIff {buf len : Word} (h : AtomicBusyIff s) (hx : execTxBlock u buf len s = .next t) :
    AtomicBusyIff t := by
  obtain ⟨-, rfl⟩ | ⟨-, ⟨-, rfl⟩ | ⟨-, -, rfl⟩ | ⟨-, -, rfl⟩⟩ := execTxBlock_cases hx
  · exact h.refuse _
  · exact h.refuse _
  · exact h.setApp nofun
  · exact h.setApp nofun

theorem execRxBlock_atomicBusyIff {buf len : Word} (h : AtomicBusyIff s) (hx : execRxBlock u buf len s = .next t) :
    AtomicBusyIff t := by
  obtain ⟨-, rfl⟩ | ⟨-, ⟨-, rfl⟩ | ⟨-, -, rfl⟩ | ⟨-, -, rfl⟩⟩ := execRxBlock_cases hx
  · exact h.refuse _
  · exact h.refuse _
  · exact h
  · exact h.setApp nofun

theorem execBlkTxUnit_atomicBusyIff (h : AtomicBusyIff s) (hx : execBlkTxUnit u s = .next t) : AtomicBusyIff t := by
  obtain rfl | ⟨c, r, -, -, -, ⟨f, rfl⟩ | ⟨v, n, -, rfl⟩⟩ := execBlkTxUnit_cases hx
  · exact h
  · exact (h.afterReadSR u).raise f
  · exact ((h.afterReadSR u).writeDR u v).setApp nofun

theorem execBlkRxUnit_atomicBusyIff (h : AtomicBusyIff s) (hx : execBlkRxUnit u s = .next t) : AtomicBusyIff t := by
  obtain rfl | ⟨c, r, -, -, -, ⟨f, rfl⟩ | ⟨f, rfl⟩ | ⟨v, n, -, rfl⟩⟩ := execBlkRxUnit_cases hx
  · exact h
  · exact (h.afterReadSR u).raise f
  · exact ((h.afterReadSR u).rdrTaken u).raise f
  · refine (((h.afterReadSR u).rdrTaken u).written c n v).setApp ?_
    split <;> exact nofun

theorem execEvTxDone_atomicBusyIff (h : AtomicBusyIff s) (hx : execEvTxDone u s = .next t) : AtomicBusyIff t := by
  have hsent : ∀ v, ((s.usart u).sent v).busyIffEnabled = true := fun _ => h.usart u
  obtain rfl | ⟨v, -, ⟨-, -, rfl⟩ | rfl⟩ := execEvTxDone_cases hx
  · exact h
  · exact h.setUsart u (Inst.busyIffEnabled_receive (hsent v) v)
  · exact h.setUsart u (hsent v)

/-- Every operation but the two bypasses of R45 keeps I1 under an atomic read-modify-write of CR1. -/
theorem exec_atomicBusyIff {i : Instr} (h : AtomicBusyIff s) (hraw : ∀ u x, i ≠ .regWrite u .cr1 x)
    (hinit : ∀ u, i = .init u → (s.usart u).tx.status = .free ∧ (s.usart u).rx.status = .free)
    (hx : exec i s = .next t) : AtomicBusyIff t := by
  cases i with
  | init u =>
    obtain ⟨htx, hrx⟩ := hinit u rfl
    obtain ⟨-, rfl⟩ | ⟨-, rfl⟩ := execInit_cases hx
    · exact h.refuse _
    · exact h.setUsart u (Inst.busyIffEnabled_init htx hrx _ _ _ _)
  | txBlock u buf len => exact execTxBlock_atomicBusyIff h hx
  | rxBlock u buf len => exact execRxBlock_atomicBusyIff h hx
  | txAsync u buf len => exact execTxAsync_atomicBusyIff h hx
  | rxAsync u buf len => exact execRxAsync_atomicBusyIff h hx
  | setEnabled u en => exact execSetEnabled_atomicBusyIff h hx
  | readFlag u f =>
    obtain ⟨-, rfl⟩ | ⟨-, rfl⟩ := execReadFlag_cases hx
    · exact h.refuse _
    · exact (h.afterReadSR u).emit _
  | onIrq u =>
    exact execOnIrq_keeps (P := AtomicBusyIff) (fun _ h => h.afterReadSR u) (fun _ f h => h.raise f)
      (fun _ r h => h.refuse r) (fun _ _ => execTxStep_atomicBusyIff) (fun _ _ => execRxStep_atomicBusyIff) h hx
  | regRead u r => exact execRegRead_atomicBusyIff h hx
  | regWrite u r x => exact execRegWrite_atomicBusyIff h (fun hr => hraw u x (hr ▸ rfl)) hx
  | txStep u => exact execTxStep_atomicBusyIff h hx
  | rxStep u => exact execRxStep_atomicBusyIff h hx
  | rmwCommit u =>
    obtain rfl | ⟨l, x, c, ha, -⟩ := execRmwCommit_cases hx
    · exact h
    · exact absurd ha (h.noRmw u l x c)
  | blkTxUnit u => exact execBlkTxUnit_atomicBusyIff h hx
  | blkTxFinish u =>
    obtain rfl | ⟨-, -, rfl⟩ := execBlkTxFinish_cases hx
    · exact h
    · exact (h.afterReadSR u).setApp nofun
  | blkRxUnit u => exact execBlkRxUnit_atomicBusyIff h hx
  | evTxLoad u =>
    obtain rfl | ⟨-, rfl⟩ := execEvTxLoad_cases hx
    · exact h
    · exact h.setUsart u (h.usart u)
  | evTxDone u => exact execEvTxDone_atomicBusyIff h hx
  | evRxFrame u v =>
    obtain rfl | ⟨-, rfl⟩ := execEvRxFrame_cases hx
    · exact h
    · exact h.setUsart u (Inst.busyIffEnabled_receive (h.usart u) v)

end

/-- Settles O58: a status and its interrupt enable change together (R170, R173, R176), and nothing else changes
either. -/
theorem busyIffEnabledWithoutBypass : Obligations.BusyIffEnabledWithoutBypass := by
  unfold Obligations.BusyIffEnabledWithoutBypass
  intro i s t hatomic _ hnoRmw hbusy hraw hinit hx
  have h : AtomicBusyIff t := exec_atomicBusyIff ⟨hatomic, hnoRmw, hbusy⟩ hraw hinit hx
  exact ⟨h.usart, h.noRmw⟩

end Sys2Proof.Machine
end

section
/-! Who writes what (O56): the pieces of the state that R54 gives writers, and the ones each operation may write. -/

namespace Sys2Proof.Machine

/-- A piece of the state whose writers R54 lists: of one USART its directions, its line and its words CR2, CR3 and BRR,
and buffer memory and the results. -/
inductive Piece where
  | tx (u : InstIx)
  | rx (u : InstIx)
  | line (u : InstIx)
  | control (u : InstIx)
  | mem
  | results

/-- CR2, CR3 and BRR, which R54 gives the same writers. -/
def Inst.controlWords (i : Inst) : Word × Word × Word := (i.cr2, i.cr3, i.brr)

/-- The piece is the same in both states. -/
def Piece.Kept (s t : State) (p : Piece) : Prop :=
  match p with
  | .tx u => (t.usart u).tx = (s.usart u).tx
  | .rx u => (t.usart u).rx = (s.usart u).rx
  | .line u => (t.usart u).lineOut = (s.usart u).lineOut
  | .control u => (t.usart u).controlWords = (s.usart u).controlWords
  | .mem => t.mem = s.mem
  | .results => t.results = s.results

/-- The pieces an operation may write (R54). -/
def writtenPieces (i : Instr) : List Piece :=
  match i with
  | .init u => [.control u]
  | .regWrite u _ _ => [.control u]
  | .txAsync u _ _ => [.tx u]
  | .rxAsync u _ _ => [.rx u]
  | .txStep u => [.tx u]
  | .rxStep u => [.rx u, .mem]
  | .onIrq u => [.tx u, .rx u, .mem]
  | .blkRxUnit _ => [.mem]
  | .readFlag _ _ => [.results]
  | .regRead _ _ => [.results]
  | .evTxDone u => [.line u]
  | .txBlock _ _ _ => []
  | .rxBlock _ _ _ => []
  | .setEnabled _ _ => []
  | .rmwCommit _ => []
  | .blkTxUnit _ => []
  | .blkTxFinish _ => []
  | .evTxLoad _ => []
  | .evRxFrame _ _ => []

/-- Every piece outside `W` is the same in both states. -/
def KeptOutside (W : List Piece) (s t : State) : Prop := ∀ p, p ∉ W → p.Kept s t

/-- What the pieces of one USART hold. -/
def Inst.pieces (i : Inst) : DirState × DirState × List Frame × Word × Word × Word :=
  (i.tx, i.rx, i.lineOut, i.controlWords)

/-! ### What each update of the state writes -/

section
variable {W : List Piece} {s t t' : State} {u : InstIx}

theorem KeptOutside.refl (W : List Piece) (s : State) : KeptOutside W s s := by
  intro p _
  cases p <;> rfl

/-- A field in which the new USART agrees with the one it replaces reads as before, in every USART. -/
theorem State.usart_setUsart_field {α : Type} (f : Inst → α) (t : State) {u v : InstIx} {i : Inst}
    (hi : v = u → f i = f (t.usart u)) : f ((t.setUsart u i).usart v) = f (t.usart v) := by
  by_cases hv : v = u
  · subst hv
    rw [State.usart_setUsart_same, hi rfl]
  · rw [State.usart_setUsart_other _ _ hv]

/-- Replacing one USART writes the pieces of it that differ. -/
theorem KeptOutside.setUsart (h : KeptOutside W s t) {i : Inst}
    (htx : .tx u ∈ W ∨ i.tx = (t.usart u).tx) (hrx : .rx u ∈ W ∨ i.rx = (t.usart u).rx)
    (hline : .line u ∈ W ∨ i.lineOut = (t.usart u).lineOut)
    (hcontrol : .control u ∈ W ∨ i.controlWords = (t.usart u).controlWords) : KeptOutside W s (t.setUsart u i) := by
  intro p hp
  have hkept := h p hp
  cases p with
  | mem => exact hkept
  | results => exact hkept
  | tx v => exact (State.usart_setUsart_field Inst.tx t fun hv => htx.resolve_left (hv ▸ hp)).trans hkept
  | rx v => exact (State.usart_setUsart_field Inst.rx t fun hv => hrx.resolve_left (hv ▸ hp)).trans hkept
  | line v => exact (State.usart_setUsart_field Inst.lineOut t fun hv => hline.resolve_left (hv ▸ hp)).trans hkept
  | control v =>
    exact (State.usart_setUsart_field Inst.controlWords t fun hv => hcontrol.resolve_left (hv ▸ hp)).trans hkept

/-- Replacing one USART by one with the same pieces writes none. -/
theorem KeptOutside.setUsart_same (h : KeptOutside W s t) {i : Inst} (hi : i.pieces = (t.usart u).pieces) :
    KeptOutside W s (t.setUsart u i) := by
  obtain ⟨htx, hrx, hline, hcontrol⟩ : i.tx = (t.usart u).tx ∧ i.rx = (t.usart u).rx ∧
      i.lineOut = (t.usart u).lineOut ∧ i.controlWords = (t.usart u).controlWords := by
    simpa only [Inst.pieces, Prod.mk.injEq] using hi
  exact h.setUsart (.inr htx) (.inr hrx) (.inr hline) (.inr hcontrol)

theorem KeptOutside.setApp (h : KeptOutside W s t) (a : AppState) : KeptOutside W s (t.setApp a) := h

theorem KeptOutside.nextDraw (h : KeptOutside W s t) : KeptOutside W s t.nextDraw := h

theorem KeptOutside.raise (h : KeptOutside W s t) (f : Fault) : KeptOutside W s (t.raise f) := h

theorem KeptOutside.refuse (h : KeptOutside W s t) (r : Refusal) : KeptOutside W s (t.refuse r) := h

theorem KeptOutside.emit (h : KeptOutside W s t) (hW : .results ∈ W) (v : Word) : KeptOutside W s (t.emit v) := by
  intro p hp
  cases p with
  | results => exact absurd hW hp
  | _ => exact h _ hp

theorem KeptOutside.written (h : KeptOutside W s t) (hW : .mem ∈ W) (a : Word) (n : UnitSize) (v : Half) :
    KeptOutside W s (written t a n v) := by
  intro p hp
  cases p with
  | mem => exact absurd hW hp
  | _ => simpa [Piece.Kept] using h _ hp

theorem KeptOutside.afterReadSR (h : KeptOutside W s t) : KeptOutside W s (afterReadSR t u) :=
  KeptOutside.nextDraw (h.setUsart_same (i := { t.usart u with tcArmed := (t.usart u).tcArmed || (t.usart u).tc }) rfl)

theorem KeptOutside.writeDR (h : KeptOutside W s t) (x : Frame) : KeptOutside W s (writeDR t u x) :=
  h.setUsart_same rfl

theorem KeptOutside.rdrTaken (h : KeptOutside W s t) : KeptOutside W s (rdrTaken t u) :=
  h.setUsart_same rfl

theorem KeptOutside.rmwCr1 (h : KeptOutside W s t) (set clr : Word) : KeptOutside W s (rmwCr1 t u set clr) := by
  obtain ⟨-, heq⟩ | ⟨-, heq⟩ := rmwCr1_cases t u set clr <;> rw [heq]
  · exact h.setUsart_same rfl
  · exact h.setApp _

theorem Inst.pieces_receive (i : Inst) (v : Frame) : (i.receive v).pieces = i.pieces := by
  unfold Inst.receive
  split <;> rfl

/-- A unit moved by the transmit callback, completed or not, changes the transmit direction and CR1 only (R172). -/
theorem KeptOutside.txMoved (h : KeptOutside W s t) (hW : .tx u ∈ W) (c : Word) (n : UnitSize) :
    KeptOutside W s (t.setUsart u ((t.usart u).txMoved c n)) := by
  unfold Inst.txMoved
  split <;> exact h.setUsart (.inl hW) (.inr rfl) (.inr rfl) (.inr rfl)

/-- A unit moved by the receive callback, completed or not, changes the receive direction and CR1 only (R174). -/
theorem KeptOutside.rxMoved (h : KeptOutside W s t) (hW : .rx u ∈ W) (c : Word) (n : UnitSize) :
    KeptOutside W s (t.setUsart u ((t.usart u).rxMoved c n)) := by
  unfold Inst.rxMoved
  split <;> exact h.setUsart (.inr rfl) (.inl hW) (.inr rfl) (.inr rfl)

theorem KeptOutside.receive (h : KeptOutside W s t) (v : Frame) :
    KeptOutside W s (t.setUsart u ((t.usart u).receive v)) :=
  h.setUsart_same (Inst.pieces_receive _ v)

/-! ### What each operation writes -/

theorem execTxStep_keeps (hW : .tx u ∈ W) (h : KeptOutside W s t) (hx : execTxStep u t = .next t') :
    KeptOutside W s t' := by
  obtain rfl | ⟨f, rfl⟩ | ⟨c, r, raw, -, -, rfl⟩ := execTxStep_cases hx
  · exact h
  · exact h.raise f
  · rw [txMovedState_eq]
    exact (h.writeDR _).txMoved hW _ _

theorem execRxStep_keeps (hrx : .rx u ∈ W) (hmem : .mem ∈ W) (h : KeptOutside W s t)
    (hx : execRxStep u t = .next t') : KeptOutside W s t' := by
  obtain rfl | ⟨f, rfl⟩ | ⟨f, rfl⟩ | ⟨c, r, d, -, -, -, rfl⟩ := execRxStep_cases hx
  · exact h
  · exact h.raise f
  · exact h.rdrTaken.raise f
  · rw [rxMovedState_eq]
    exact (h.rdrTaken.written hmem _ _ _).rxMoved hrx _ _

theorem execRegRead_keeps {r : RegName} (hx : execRegRead u r s = .next t) : KeptOutside [.results] s t := by
  have h := KeptOutside.refl [.results] s
  have hW : Piece.results ∈ [Piece.results] := List.mem_singleton_self _
  obtain ⟨-, rfl⟩ | ⟨-, ⟨-, rfl⟩ | ⟨-, -, rfl⟩ | ⟨-, d, -, rfl⟩ | ⟨-, -, v, rfl⟩⟩ := execRegRead_cases hx
  · exact h.refuse _
  · exact h.afterReadSR.emit hW _
  · exact h.raise _
  · exact h.rdrTaken.emit hW _
  · exact h.emit hW v

theorem execRegWrite_keeps {r : RegName} {x : Word} (hx : execRegWrite u r x s = .next t) :
    KeptOutside [.control u] s t := by
  have h := KeptOutside.refl [.control u] s
  have hW : Piece.control u ∈ [Piece.control u] := List.mem_singleton_self _
  obtain ⟨-, rfl⟩ | ⟨-, ⟨q, rfl⟩ | ⟨-, rfl⟩ | ⟨-, rfl⟩ | ⟨-, -, rfl⟩ | ⟨-, -, rfl⟩ | ⟨-, -, rfl⟩⟩ :=
    execRegWrite_cases hx
  · exact h.refuse _
  · exact h.refuse q
  · exact h.writeDR _
  · exact h.setUsart (.inr rfl) (.inr rfl) (.inr rfl) (.inl hW)
  · exact h.setUsart_same rfl
  · exact h.setUsart (.inr rfl) (.inr rfl) (.inr rfl) (.inl hW)
  · exact h.setUsart (.inr rfl) (.inr rfl) (.inr rfl) (.inl hW)

theorem execTxAsync_keeps {buf len : Word} (hx : execTxAsync u buf len s = .next t) : KeptOutside [.tx u] s t := by
  have h := KeptOutside.refl [.tx u] s
  obtain ⟨-, rfl⟩ | ⟨-, ⟨-, rfl⟩ | ⟨-, -, rfl⟩ | ⟨-, -, -, rfl⟩ | ⟨-, -, -, rfl⟩⟩ := execTxAsync_cases hx
  · exact h.refuse _
  · exact h
  · exact h.refuse _
  · exact h.refuse _
  · have haccepted : KeptOutside [.tx u] s (txAcceptedState s u buf len) :=
      h.setUsart (.inl (List.mem_singleton_self _)) (.inr rfl) (.inr rfl) (.inr rfl)
    exact haccepted.rmwCr1 _ _

theorem execRxAsync_keeps {buf len : Word} (hx : execRxAsync u buf len s = .next t) : KeptOutside [.rx u] s t := by
  have h := KeptOutside.refl [.rx u] s
  obtain ⟨-, rfl⟩ | ⟨-, ⟨-, rfl⟩ | ⟨-, -, rfl⟩ | ⟨-, -, -, rfl⟩ | ⟨-, -, -, rfl⟩⟩ := execRxAsync_cases hx
  · exact h.refuse _
  · exact h
  · exact h.refuse _
  · exact h.refuse _
  · have haccepted : KeptOutside [.rx u] s (rxAcceptedState s u buf len) :=
      h.setUsart (.inr rfl) (.inl (List.mem_singleton_self _)) (.inr rfl) (.inr rfl)
    exact haccepted.rmwCr1 _ _

theorem execTxBlock_keeps {buf len : Word} (hx : execTxBlock u buf len s = .next t) : KeptOutside [] s t := by
  have h := KeptOutside.refl [] s
  obtain ⟨-, rfl⟩ | ⟨-, ⟨-, rfl⟩ | ⟨-, -, rfl⟩ | ⟨-, -, rfl⟩⟩ := execTxBlock_cases hx
  · exact h.refuse _
  · exact h.refuse _
  · exact h.setApp _
  · exact h.setApp _

theorem execRxBlock_keeps {buf len : Word} (hx : execRxBlock u buf len s = .next t) : KeptOutside [] s t := by
  have h := KeptOutside.refl [] s
  obtain ⟨-, rfl⟩ | ⟨-, ⟨-, rfl⟩ | ⟨-, -, rfl⟩ | ⟨-, -, rfl⟩⟩ := execRxBlock_cases hx
  · exact h.refuse _
  · exact h.refuse _
  · exact h
  · exact h.setApp _

theorem execSetEnabled_keeps {en : Bool} (hx : execSetEnabled u en s = .next t) : KeptOutside [] s t := by
  have h := KeptOutside.refl [] s
  obtain ⟨-, rfl⟩ | ⟨-, ⟨-, rfl⟩ | ⟨-, rfl⟩⟩ := execSetEnabled_cases hx
  · exact h.refuse _
  · exact h.rmwCr1 _ _
  · exact h.rmwCr1 _ _

theorem execBlkTxUnit_keeps (hx : execBlkTxUnit u s = .next t) : KeptOutside [] s t := by
  have h := KeptOutside.refl [] s
  obtain rfl | ⟨c, r, -, -, -, ⟨f, rfl⟩ | ⟨v, n, -, rfl⟩⟩ := execBlkTxUnit_cases hx
  · exact h
  · exact h.afterReadSR.raise f
  · exact (h.afterReadSR.writeDR v).setApp _

theorem execBlkRxUnit_keeps (hx : execBlkRxUnit u s = .next t) : KeptOutside [.mem] s t := by
  have h := KeptOutside.refl [.mem] s
  obtain rfl | ⟨c, r, -, -, -, ⟨f, rfl⟩ | ⟨f, rfl⟩ | ⟨v, n, -, rfl⟩⟩ := execBlkRxUnit_cases hx
  · exact h
  · exact h.afterReadSR.raise f
  · exact h.afterReadSR.rdrTaken.raise f
  · exact (h.afterReadSR.rdrTaken.written (List.mem_singleton_self _) c n v).setApp _

theorem execEvTxDone_keeps (hx : execEvTxDone u s = .next t) : KeptOutside [.line u] s t := by
  have h := KeptOutside.refl [.line u] s
  have hsent : ∀ v, KeptOutside [.line u] s (s.setUsart u ((s.usart u).sent v)) := fun v =>
    h.setUsart (.inr rfl) (.inr rfl) (.inl (List.mem_singleton_self _)) (.inr rfl)
  obtain rfl | ⟨v, -, ⟨-, -, rfl⟩ | rfl⟩ := execEvTxDone_cases hx
  · exact h
  · simpa using (hsent v).receive (u := u) v
  · exact hsent v

/-- Every operation writes only its pieces (R54). -/
theorem exec_keeps {i : Instr} (hx : exec i s = .next t) : KeptOutside (writtenPieces i) s t := by
  have h := KeptOutside.refl (writtenPieces i) s
  cases i with
  | init u =>
    obtain ⟨-, rfl⟩ | ⟨-, rfl⟩ := execInit_cases hx
    · exact h.refuse _
    · exact h.setUsart (.inr rfl) (.inr rfl) (.inr rfl) (.inl (List.mem_singleton_self _))
  | txBlock u buf len => exact execTxBlock_keeps hx
  | rxBlock u buf len => exact execRxBlock_keeps hx
  | txAsync u buf len => exact execTxAsync_keeps hx
  | rxAsync u buf len => exact execRxAsync_keeps hx
  | setEnabled u en => exact execSetEnabled_keeps hx
  | readFlag u f =>
    obtain ⟨-, rfl⟩ | ⟨-, rfl⟩ := execReadFlag_cases hx
    · exact h.refuse _
    · exact h.afterReadSR.emit (List.mem_singleton_self _) _
  | onIrq u =>
    have htx : Piece.tx u ∈ writtenPieces (.onIrq u) := by simp [writtenPieces]
    have hrx : Piece.rx u ∈ writtenPieces (.onIrq u) := by simp [writtenPieces]
    have hmem : Piece.mem ∈ writtenPieces (.onIrq u) := by simp [writtenPieces]
    exact execOnIrq_keeps (P := KeptOutside _ s) (fun _ h => h.afterReadSR) (fun _ f h => h.raise f)
      (fun _ r h => h.refuse r) (fun _ _ => execTxStep_keeps htx) (fun _ _ => execRxStep_keeps hrx hmem) h hx
  | regRead u r => exact execRegRead_keeps hx
  | regWrite u r x => exact execRegWrite_keeps hx
  | txStep u => exact execTxStep_keeps (List.mem_singleton_self _) h hx
  | rxStep u => exact execRxStep_keeps (by simp [writtenPieces]) (by simp [writtenPieces]) h hx
  | rmwCommit u =>
    obtain rfl | ⟨l, x, c, -, rfl⟩ := execRmwCommit_cases hx
    · exact h
    · exact KeptOutside.setApp (t := s.setUsart u { s.usart u with cr1 := rmwValue l x c }) (h.setUsart_same rfl) _
  | blkTxUnit u => exact execBlkTxUnit_keeps hx
  | blkTxFinish u =>
    obtain rfl | ⟨-, -, rfl⟩ := execBlkTxFinish_cases hx
    · exact h
    · exact h.afterReadSR.setApp _
  | blkRxUnit u => exact execBlkRxUnit_keeps hx
  | evTxLoad u =>
    obtain rfl | ⟨-, rfl⟩ := execEvTxLoad_cases hx
    · exact h
    · exact h.setUsart_same rfl
  | evTxDone u => exact execEvTxDone_keeps hx
  | evRxFrame u v =>
    obtain rfl | ⟨-, rfl⟩ := execEvRxFrame_cases hx
    · exact h
    · exact h.receive v

end

/-! ### The writers of each piece -/

section
variable {i : Instr} {u : InstIx}

theorem tx_mem_writtenPieces (h : .tx u ∈ writtenPieces i) :
    i = .txStep u ∨ i = .onIrq u ∨ ∃ b l, i = .txAsync u b l := by
  cases i <;> simp_all [writtenPieces]

theorem rx_mem_writtenPieces (h : .rx u ∈ writtenPieces i) :
    i = .rxStep u ∨ i = .onIrq u ∨ ∃ b l, i = .rxAsync u b l := by
  cases i <;> simp_all [writtenPieces]

theorem mem_mem_writtenPieces (h : .mem ∈ writtenPieces i) :
    ∃ v, i = .rxStep v ∨ i = .onIrq v ∨ i = .blkRxUnit v := by
  cases i <;> simp_all [writtenPieces]

theorem results_mem_writtenPieces (h : .results ∈ writtenPieces i) :
    (∃ v f, i = .readFlag v f) ∨ ∃ v r, i = .regRead v r := by
  cases i <;> simp_all [writtenPieces]

theorem line_mem_writtenPieces (h : .line u ∈ writtenPieces i) : i = .evTxDone u := by
  cases i <;> simp_all [writtenPieces]

theorem control_mem_writtenPieces (h : .control u ∈ writtenPieces i) :
    i = .init u ∨ ∃ r x, i = .regWrite u r x := by
  cases i <;> simp_all [writtenPieces]

end

/-- Settles O56: what an operation writes lies among its pieces, and each piece is among those of its writers only. -/
theorem onlyListedWriters : Obligations.OnlyListedWriters := by
  unfold Obligations.OnlyListedWriters
  intro i s t u hx
  have hkept := exec_keeps hx
  refine ⟨?tx, ?rx, ?mem, ?results, fun hne => hkept (.line u) fun h => hne (line_mem_writtenPieces h), ?control⟩
  case tx =>
    rintro ⟨hstep, hirq, hasync⟩
    refine hkept (.tx u) fun h => ?_
    obtain h | h | ⟨b, l, h⟩ := tx_mem_writtenPieces h
    exacts [hstep h, hirq h, hasync b l h]
  case rx =>
    rintro ⟨hstep, hirq, hasync⟩
    refine hkept (.rx u) fun h => ?_
    obtain h | h | ⟨b, l, h⟩ := rx_mem_writtenPieces h
    exacts [hstep h, hirq h, hasync b l h]
  case mem =>
    intro hne
    refine byteAt_congr (hkept .mem fun h => ?_)
    obtain ⟨v, h⟩ := mem_mem_writtenPieces h
    obtain ⟨hstep, hirq, hunit⟩ := hne v
    obtain h | h | h := h
    exacts [hstep h, hirq h, hunit h]
  case results =>
    intro hne
    refine hkept .results fun h => ?_
    obtain ⟨v, f, h⟩ | ⟨v, r, h⟩ := results_mem_writtenPieces h
    · exact (hne v f .sr).1 h
    · exact (hne v .tc r).2 h
  case control =>
    rintro ⟨hinit, hwrite⟩
    have hwords : (t.usart u).controlWords = (s.usart u).controlWords := by
      refine hkept (.control u) fun h => ?_
      obtain h | ⟨r, x, h⟩ := control_mem_writtenPieces h
      exacts [hinit h, hwrite r x h]
    simpa only [Inst.controlWords, Prod.mk.injEq] using hwords

end Sys2Proof.Machine
end

section
/-! One access to buffer memory: what a read and a write give when their bytes exist, and when one does not (O18). -/

namespace Sys2Proof.Machine

variable {s : State} {a x : Word} {n : UnitSize}

/-! ### The lowest byte that does not exist (R71) -/

theorem firstMissing_of_first_missing (h : memValid s a = false) : firstMissing s a n = some a := by
  simp [firstMissing, h]

theorem firstMissing_of_second_missing (h : memValid s a = true) (h' : memValid s (a + 1#32) = false) :
    firstMissing s a .two = some (a + 1#32) := by
  simp [firstMissing, h, h']

theorem firstMissing_one_of_valid (h : memValid s a = true) : firstMissing s a .one = none :=
  (firstMissing_none_iff s a .one).mpr ⟨h, nofun⟩

theorem firstMissing_written (m : UnitSize) (v : Half) : firstMissing (written s a n v) x m = firstMissing s x m :=
  firstMissing_congr (written_params s a n v) x m

/-! ### A read (R72) -/

theorem memRead_of_missing (h : firstMissing s a n = some x) : memRead s a n = .error (.busFault x) := by
  simp only [memRead, h]

theorem memRead_one_of_present (h : firstMissing s a .one = none) :
    memRead s a .one = .ok ((s.byteAt a).setWidth 16) := by
  simp only [memRead, h]

theorem memRead_two_of_present (h : firstMissing s a .two = none) :
    memRead s a .two = .ok (s.byteAt (a + 1#32) ++ s.byteAt a) := by
  simp only [memRead, h]

/-! ### A write (R73) -/

theorem memWrite_of_missing (v : Half) (h : firstMissing s a n = some x) :
    memWrite s a n v = .raised (.busFault x) s := by
  simp only [memWrite, h]

theorem memWrite_of_present (v : Half) (h : firstMissing s a n = none) :
    memWrite s a n v = .ok () (written s a n v) := by
  cases n <;> simp only [memWrite, written, h]

/-- A write changes buffer memory and no other field of the state. -/
theorem written_frame (s : State) (a : Word) (n : UnitSize) (v : Half) :
    { written s a n v with mem := s.mem } = s := by
  cases n <;> rfl

/-! ### A write read back -/

/-- A unit is its high byte beside its low byte. -/
theorem highByte_append_lowByte (v : Half) : v.extractLsb' 8 8 ++ v.extractLsb' 0 8 = v := by
  rw [BitVec.extractLsb'_append_extractLsb'_eq_extractLsb' (by decide)]
  exact BitVec.extractLsb'_eq_self

theorem memRead_written_one (v : Half) (h : firstMissing s a .one = none) (hw : Memory.wf s.mem = true) :
    memRead (written s a .one v) a .one = .ok ((v.extractLsb' 0 8).setWidth 16) := by
  rw [memRead_one_of_present ((firstMissing_written _ _).trans h), written_byteAt_first _ _ _ _ hw]

theorem memRead_written_two (v : Half) (h : firstMissing s a .two = none) (hw : Memory.wf s.mem = true) :
    memRead (written s a .two v) a .two = .ok v := by
  rw [memRead_two_of_present ((firstMissing_written _ _).trans h), written_byteAt_first _ _ _ _ hw,
    written_byteAt_second _ _ _ hw, highByte_append_lowByte]

/-- Settles O18, by the first byte of the access that does not exist. -/
theorem memoryAccessLaws : Obligations.MemoryAccessLaws := by
  unfold Obligations.MemoryAccessLaws
  intro s a n v hw
  refine ⟨?present, ?firstMissing, ?secondMissing⟩
  case present =>
    intro hfirst hsecond
    have hnone : firstMissing s a n = none := (firstMissing_none_iff s a n).mpr ⟨hfirst, hsecond⟩
    refine ⟨written s a n v, memWrite_of_present v hnone, written_wf _ _ _ _ hw, written_frame _ _ _ _,
      written_byteAt_other _ _ _ _ hw, ?one, ?two⟩
    case one =>
      rintro rfl
      exact ⟨written_byteAt_first _ _ _ _ hw, memRead_written_one v hnone hw⟩
    case two =>
      rintro rfl
      exact ⟨written_byteAt_first _ _ _ _ hw, written_byteAt_second _ _ _ hw, memRead_written_two v hnone hw⟩
  case firstMissing =>
    intro hfirst
    have hmissing : firstMissing s a n = some a := firstMissing_of_first_missing hfirst
    exact ⟨memRead_of_missing hmissing, memWrite_of_missing v hmissing⟩
  case secondMissing =>
    rintro hfirst rfl hsecond
    have hmissing : firstMissing s a .two = some (a + 1#32) := firstMissing_of_second_missing hfirst hsecond
    exact ⟨memRead_of_missing hmissing, memWrite_of_missing v hmissing⟩

end Sys2Proof.Machine
end

section
/-! The host's own write and read of one byte between its commands (O60). -/

namespace Sys2Proof.Machine

variable {s : State} {a : Word} {b : Byte} {rest : List Turn}

/-! ### The write and the read, by the application context and the byte (R71, R81) -/

theorem written_one_setWidth (s : State) (a : Word) (b : Byte) :
    written s a .one (b.setWidth 16) = s.setByte a b := by
  have hb : (b.setWidth 16 : Half).extractLsb' 0 8 = b := by
    rw [← BitVec.setWidth_eq_extractLsb' (by decide), BitVec.setWidth_setWidth_of_le _ (by decide), BitVec.setWidth_eq]
  simp only [written, hb]

theorem hostWriteByte_of_valid (ha : s.app = .idle) (hv : memValid s a = true) :
    hostWriteByte s a b = .next (s.setByte a b) := by
  rw [hostWriteByte, if_pos ha, memWrite_of_present _ (firstMissing_one_of_valid hv), finish_ok, written_one_setWidth]

theorem hostWriteByte_of_missing (ha : s.app = .idle) (hv : memValid s a = false) :
    hostWriteByte s a b = .next (s.raise (.busFault a)) := by
  rw [hostWriteByte, if_pos ha, memWrite_of_missing _ (firstMissing_of_first_missing hv), finish_raised]

theorem hostWriteByte_of_not_idle (ha : s.app ≠ .idle) : hostWriteByte s a b = .next s := if_neg ha

theorem hostReadByte_of_valid (ha : s.app = .idle) (hv : memValid s a = true) : hostReadByte s a = .next s := by
  simp only [hostReadByte, if_pos ha, memRead_one_of_present (firstMissing_one_of_valid hv)]

theorem hostReadByte_of_missing (ha : s.app = .idle) (hv : memValid s a = false) :
    hostReadByte s a = .next (s.raise (.busFault a)) := by
  simp only [hostReadByte, if_pos ha, memRead_of_missing (firstMissing_of_first_missing hv)]

theorem hostReadByte_of_not_idle (ha : s.app ≠ .idle) : hostReadByte s a = .next s := if_neg ha

/-! ### The two turns -/

theorem step_of_hostWrite (h : Running s) (hq : s.schedule = .hostWrite a b :: rest) :
    step s = hostWriteByte (s.setSchedule rest) a b := step_of_schedule_cons h hq

theorem step_of_hostRead (h : Running s) (hq : s.schedule = .hostRead a :: rest) :
    step s = hostReadByte (s.setSchedule rest) a := step_of_schedule_cons h hq

/-- What a host's write of a byte that exists leaves: the byte, every other byte, and every other field but the
schedule. -/
theorem setByte_setSchedule_effect (s : State) (a : Word) (b : Byte) (rest : List Turn) (hw : Memory.wf s.mem = true) :
    ((s.setSchedule rest).setByte a b).byteAt a = b ∧
      (∀ x, x ≠ a → ((s.setSchedule rest).setByte a b).byteAt x = s.byteAt x) ∧
      { (s.setSchedule rest).setByte a b with mem := s.mem, schedule := s.schedule } = s := by
  have hbyte : ∀ x, ((s.setSchedule rest).setByte a b).byteAt x = if x = a then b else s.byteAt x := fun x =>
    State.byteAt_setByte (s.setSchedule rest) a x b hw
  exact ⟨(hbyte a).trans (if_pos rfl), fun x hx => (hbyte x).trans (if_neg hx), rfl⟩

/-- Settles O60, by the turn, the application context and the byte. -/
theorem hostAccessesMemory : Obligations.HostAccessesMemory := by
  unfold Obligations.HostAccessesMemory
  refine fun s a rest hrun => ⟨fun b hq hw => ?write, fun hq => ?read⟩
  case write =>
    rw [step_of_hostWrite hrun hq]
    exact ⟨fun ha hv => ⟨_, hostWriteByte_of_valid ha hv, setByte_setSchedule_effect s a b rest hw⟩,
      fun ha hv => hostWriteByte_of_missing ha hv, fun ha => hostWriteByte_of_not_idle ha⟩
  case read =>
    rw [step_of_hostRead hrun hq]
    exact ⟨fun ha hv => ⟨hostReadByte_of_valid ha hv, memRead_one_of_present (firstMissing_one_of_valid hv)⟩,
      fun ha hv => ⟨hostReadByte_of_missing ha hv, memRead_of_missing (firstMissing_of_first_missing hv)⟩,
      fun ha => hostReadByte_of_not_idle ha⟩

end Sys2Proof.Machine
end

section
/-! The decoder and the encoder, rule by rule: the layer under the statements on the encoding (R91 to R97). -/

namespace Sys2Proof

variable {n : Nat} {ws : OpWords} {o : Opcode} {i : Instr}

/-! ### The checks of R95 on an opcode that has a mnemonic -/

theorem decode_reservedField (hcode : opcField ws.op = o.code) (hmask : ws.op &&& o.format.notUsedMask ≠ 0#32) :
    decode n ws = .error (.reservedField ws.op) := by
  simp only [decode, hcode, ofCode_code, if_pos hmask]

theorem decode_badInstance (hcode : opcField ws.op = o.code) (hmask : ws.op &&& o.format.notUsedMask = 0#32)
    (hinst : n ≤ (instField ws.op).val) : decode n ws = .error (.badInstance ws.op) := by
  simp only [decode, hcode, ofCode_code, if_neg (not_not.mpr hmask), if_pos hinst]

/-- A word that passes the checks of the opcode, the mask and INST goes on to its operands. -/
theorem decode_eq_decodeOperands (hcode : opcField ws.op = o.code) (hmask : ws.op &&& o.format.notUsedMask = 0#32)
    (hinst : (instField ws.op).val < n) : decode n ws = decodeOperands o ws := by
  simp only [decode, hcode, ofCode_code, if_neg (not_not.mpr hmask), if_neg (Nat.not_le.mpr hinst)]

/-- What decodes has passed every check of R95, in its order. -/
theorem decode_ok (h : decode n ws = .ok i) :
    ∃ o : Opcode, opcField ws.op = o.code ∧ ws.op &&& o.format.notUsedMask = 0#32 ∧ (instField ws.op).val < n ∧
      decodeOperands o ws = .ok i := by
  unfold decode at h
  split at h
  · cases h
  · rename_i o hcode
    split at h
    · cases h
    · rename_i hmask
      split at h
      · cases h
      · rename_i hinst
        exact ⟨o, (code_of_ofCode hcode).symm, not_not.mp hmask, Nat.not_le.mp hinst, h⟩

/-! ### The operands -/

theorem decodeOperands_readFlag_none (h : Flag.ofSelector? (flagField ws.op) = none) :
    decodeOperands .readFlag ws = .error (.badFlag ws.op) := by
  simp only [decodeOperands, h]

theorem decodeOperands_readFlag_some {f : Flag} (h : Flag.ofSelector? (flagField ws.op) = some f) :
    decodeOperands .readFlag ws = .ok (.readFlag (instField ws.op) f) := by
  simp only [decodeOperands, h]

theorem decodeOperands_regRead_none (h : RegName.ofIndex? (regField ws.op) = none) :
    decodeOperands .regRead ws = .error (.badRegister ws.op) := by
  simp only [decodeOperands, h]

theorem decodeOperands_regRead_some {r : RegName} (h : RegName.ofIndex? (regField ws.op) = some r) :
    decodeOperands .regRead ws = .ok (.regRead (instField ws.op) r) := by
  simp only [decodeOperands, h]

theorem decodeOperands_regWrite_none (h : RegName.ofIndex? (regField ws.op) = none) :
    decodeOperands .regWrite ws = .error (.badRegister ws.op) := by
  simp only [decodeOperands, h]

theorem decodeOperands_regWrite_some {r : RegName} (h : RegName.ofIndex? (regField ws.op) = some r) :
    decodeOperands .regWrite ws = .ok (.regWrite (instField ws.op) r ws.arg0) := by
  simp only [decodeOperands, h]

theorem ofSelector_eq_none_iff : ∀ c : BitVec 4, Flag.ofSelector? c = none ↔ 3 ≤ c.toNat := by decide

theorem ofIndex_eq_none_iff : ∀ c : BitVec 4, RegName.ofIndex? c = none ↔ 6 ≤ c.toNat := by decide

/-- The bits of an argument word above a 9-bit frame (R93, R97) are 0 iff the word is below 2^9. -/
theorem aboveFrame_eq_zero_iff (w : Word) : w.extractLsb' 9 23 = 0#23 ↔ w.toNat < 2 ^ 9 := by
  rw [← BitVec.toNat_inj, BitVec.extractLsb'_toNat, Nat.shiftRight_eq_div_pow, BitVec.toNat_zero]
  omega

theorem decodeOperands_evRxFrame_of_lt (h : ws.arg0.toNat < 2 ^ 9) :
    decodeOperands .evRxFrame ws = .ok (.evRxFrame (instField ws.op) (ws.arg0.extractLsb' 0 9)) := by
  simp only [decodeOperands, if_pos ((aboveFrame_eq_zero_iff _).mpr h)]

theorem decodeOperands_evRxFrame_of_ge (h : 2 ^ 9 ≤ ws.arg0.toNat) :
    decodeOperands .evRxFrame ws = .error (.reservedField ws.op) := by
  simp only [decodeOperands, if_neg (mt (aboveFrame_eq_zero_iff _).mp (Nat.not_lt.mpr h))]

/-! The operation that the operands give and the field it was read from, for each of the four opcodes with an operand
check. Every other opcode gives its own operation with the fields as they are. -/

theorem decodeOperands_readFlag_ok (h : decodeOperands .readFlag ws = .ok i) :
    ∃ f : Flag, f.selector = flagField ws.op ∧ i = .readFlag (instField ws.op) f := by
  cases hf : Flag.ofSelector? (flagField ws.op) with
  | none => cases (decodeOperands_readFlag_none hf).symm.trans h
  | some f =>
    exact ⟨f, selector_of_ofSelector hf, (Except.ok.inj ((decodeOperands_readFlag_some hf).symm.trans h)).symm⟩

theorem decodeOperands_regRead_ok (h : decodeOperands .regRead ws = .ok i) :
    ∃ r : RegName, r.index = regField ws.op ∧ i = .regRead (instField ws.op) r := by
  cases hr : RegName.ofIndex? (regField ws.op) with
  | none => cases (decodeOperands_regRead_none hr).symm.trans h
  | some r => exact ⟨r, index_of_ofIndex hr, (Except.ok.inj ((decodeOperands_regRead_some hr).symm.trans h)).symm⟩

theorem decodeOperands_regWrite_ok (h : decodeOperands .regWrite ws = .ok i) :
    ∃ r : RegName, r.index = regField ws.op ∧ i = .regWrite (instField ws.op) r ws.arg0 := by
  cases hr : RegName.ofIndex? (regField ws.op) with
  | none => cases (decodeOperands_regWrite_none hr).symm.trans h
  | some r => exact ⟨r, index_of_ofIndex hr, (Except.ok.inj ((decodeOperands_regWrite_some hr).symm.trans h)).symm⟩

theorem decodeOperands_evRxFrame_ok (h : decodeOperands .evRxFrame ws = .ok i) :
    ws.arg0.toNat < 2 ^ 9 ∧ i = .evRxFrame (instField ws.op) (ws.arg0.extractLsb' 0 9) := by
  by_cases hv : ws.arg0.toNat < 2 ^ 9
  · exact ⟨hv, (Except.ok.inj ((decodeOperands_evRxFrame_of_lt hv).symm.trans h)).symm⟩
  · cases (decodeOperands_evRxFrame_of_ge (Nat.not_lt.mp hv)).symm.trans h

/-- The operands give an operation of the opcode, on the USART that INST names. -/
theorem decodeOperands_opcode_inst (h : decodeOperands o ws = .ok i) :
    i.opcode = o ∧ i.inst = instField ws.op := by
  cases o with
  | readFlag =>
    obtain ⟨f, -, rfl⟩ := decodeOperands_readFlag_ok h
    exact ⟨rfl, rfl⟩
  | regRead =>
    obtain ⟨r, -, rfl⟩ := decodeOperands_regRead_ok h
    exact ⟨rfl, rfl⟩
  | regWrite =>
    obtain ⟨r, -, rfl⟩ := decodeOperands_regWrite_ok h
    exact ⟨rfl, rfl⟩
  | evRxFrame =>
    obtain ⟨-, rfl⟩ := decodeOperands_evRxFrame_ok h
    exact ⟨rfl, rfl⟩
  | _ =>
    cases h
    exact ⟨rfl, rfl⟩

end Sys2Proof
end

section
/-! Decoding and encoding are inverse to each other (O1, O2). -/

namespace Sys2Proof

variable {n : Nat} {ws : OpWords} {o : Opcode} {i : Instr} {w : Word}

/-! ### An encoded operation is decoded -/

/-- The family WordFields over every operation. -/
theorem encode_wordFields (i : Instr) : Laws.WordFields.Statement i := by
  cases i with
  | init u => exact Laws.WordFields.init u
  | txBlock u buf len => exact Laws.WordFields.txBlock u buf len
  | rxBlock u buf len => exact Laws.WordFields.rxBlock u buf len
  | txAsync u buf len => exact Laws.WordFields.txAsync u buf len
  | rxAsync u buf len => exact Laws.WordFields.rxAsync u buf len
  | setEnabled u en => exact Laws.WordFields.setEnabled u en
  | readFlag u flag => exact Laws.WordFields.readFlag u flag
  | onIrq u => exact Laws.WordFields.onIrq u
  | regRead u reg => exact Laws.WordFields.regRead u reg
  | regWrite u reg value => exact Laws.WordFields.regWrite u reg value
  | txStep u => exact Laws.WordFields.txStep u
  | rxStep u => exact Laws.WordFields.rxStep u
  | rmwCommit u => exact Laws.WordFields.rmwCommit u
  | blkTxUnit u => exact Laws.WordFields.blkTxUnit u
  | blkTxFinish u => exact Laws.WordFields.blkTxFinish u
  | blkRxUnit u => exact Laws.WordFields.blkRxUnit u
  | evTxLoad u => exact Laws.WordFields.evTxLoad u
  | evTxDone u => exact Laws.WordFields.evTxDone u
  | evRxFrame u frame => exact Laws.WordFields.evRxFrame u frame

/-- The operands of an operation are read back from its words. -/
theorem decodeOperands_encode (i : Instr) : decodeOperands i.opcode (encode i) = .ok i := by
  cases i with
  | evRxFrame u frame =>
    have hlt : (frame.setWidth 32).toNat < 2 ^ 9 := by
      rw [BitVec.toNat_setWidth_of_le (by decide)]
      exact frame.isLt
    have hframe : (frame.setWidth 32).extractLsb' 0 9 = frame := by
      rw [BitVec.extractLsb'_setWidth_of_le (by decide), BitVec.extractLsb'_eq_self]
    have hread := decodeOperands_evRxFrame_of_lt (ws := encode (.evRxFrame u frame)) hlt
    simpa [encode, Instr.opcode, hframe] using hread
  | _ => simp [decodeOperands, encode, Instr.opcode]

/-- Settles O1: the fields of the encoded word pass the checks of R95, and its operands are read back. -/
theorem decodeOfEncode : Obligations.DecodeOfEncode := by
  unfold Obligations.DecodeOfEncode
  intro n i hwf
  obtain ⟨hcode, hinst, hmask⟩ := encode_wordFields i
  have hlt : (instField (encode i).op).val < n := hinst ▸ of_decide_eq_true hwf
  rw [decode_eq_decodeOperands hcode hmask hlt, decodeOperands_encode]

/-! ### A word whose unused bits are 0 is packed from its fields -/

/-- A field that the mask covers is 0. -/
theorem extractLsb'_eq_zero_of_masked {m : Word} {start len : Nat} (h : w &&& m = 0#32)
    (hm : m.extractLsb' start len = BitVec.allOnes len) : w.extractLsb' start len = 0#len := by
  calc w.extractLsb' start len
      = w.extractLsb' start len &&& m.extractLsb' start len := by rw [hm, BitVec.and_allOnes]
    _ = (w &&& m).extractLsb' start len := BitVec.extractLsb'_and.symm
    _ = 0#len := by rw [h, BitVec.extractLsb'_zero]

/-- An operation word is packed from its fields when a mask that covers bits 15:12 and 7:1 finds them 0 (R91). -/
theorem packOp_of_fields {m : Word} {reg flag : BitVec 4} {en : BitVec 1} (hcode : opcField w = o.code)
    (hmask : w &&& m = 0#32) (hmid : m.extractLsb' 12 4 = BitVec.allOnes 4) (hlow : m.extractLsb' 1 7 = BitVec.allOnes 7)
    (hreg : regField w = reg) (hflag : flagField w = flag) (hen : w.extractLsb' 0 1 = en) :
    packOp o (instField w) reg flag en = w := by
  have hinst : (BitVec.ofFin (instField w) : BitVec 4) = w.extractLsb' 20 4 := rfl
  rw [packOp, ← hcode, hinst, ← hreg, ← hflag, ← hen, ← extractLsb'_eq_zero_of_masked hmask hmid,
    ← extractLsb'_eq_zero_of_masked hmask hlow, opcField, regField, flagField]
  iterate 6 rw [BitVec.extractLsb'_append_extractLsb'_eq_extractLsb' (by rfl)]
  exact BitVec.extractLsb'_eq_self

/-- An operation with no operand in its word (formats C0, CB, IN, EV and ED of R93). -/
theorem packOp_plain (hcode : opcField w = o.code) (hmask : w &&& 0x000FFFFF#32 = 0#32) :
    packOp o (instField w) 0#4 0#4 0#1 = w :=
  packOp_of_fields hcode hmask rfl rfl (extractLsb'_eq_zero_of_masked hmask rfl)
    (extractLsb'_eq_zero_of_masked hmask rfl) (extractLsb'_eq_zero_of_masked hmask rfl)

theorem packOp_enable (hcode : opcField w = o.code) (hmask : w &&& 0x000FFFFE#32 = 0#32) :
    packOp o (instField w) 0#4 0#4 (BitVec.ofBool (enField w)) = w := by
  have hen : w.extractLsb' 0 1 = BitVec.ofBool (enField w) := by
    rw [enField, ← BitVec.setWidth_one, BitVec.setWidth_eq_extractLsb' (by decide)]
  exact packOp_of_fields hcode hmask rfl rfl (extractLsb'_eq_zero_of_masked hmask rfl)
    (extractLsb'_eq_zero_of_masked hmask rfl) hen

theorem packOp_flag (hcode : opcField w = o.code) (hmask : w &&& 0x000FF0FF#32 = 0#32) :
    packOp o (instField w) 0#4 (flagField w) 0#1 = w :=
  packOp_of_fields hcode hmask rfl rfl (extractLsb'_eq_zero_of_masked hmask rfl) rfl
    (extractLsb'_eq_zero_of_masked hmask rfl)

theorem packOp_register (hcode : opcField w = o.code) (hmask : w &&& 0x0000FFFF#32 = 0#32) :
    packOp o (instField w) (regField w) 0#4 0#1 = w :=
  packOp_of_fields hcode hmask rfl rfl rfl (extractLsb'_eq_zero_of_masked hmask rfl)
    (extractLsb'_eq_zero_of_masked hmask rfl)

/-! ### What decodes encodes to its words -/

theorem encode_op_of_decodeOperands (hcode : opcField ws.op = o.code) (hmask : ws.op &&& o.format.notUsedMask = 0#32)
    (h : decodeOperands o ws = .ok i) : (encode i).op = ws.op := by
  cases o with
  | setEnabled =>
    cases h
    exact packOp_enable hcode hmask
  | readFlag =>
    obtain ⟨f, hf, rfl⟩ := decodeOperands_readFlag_ok h
    rw [encode, hf, packOp_flag hcode hmask]
  | regRead =>
    obtain ⟨r, hr, rfl⟩ := decodeOperands_regRead_ok h
    rw [encode, hr, packOp_register hcode hmask]
  | regWrite =>
    obtain ⟨r, hr, rfl⟩ := decodeOperands_regWrite_ok h
    rw [encode, hr, packOp_register hcode hmask]
  | evRxFrame =>
    obtain ⟨-, rfl⟩ := decodeOperands_evRxFrame_ok h
    exact packOp_plain hcode hmask
  | _ =>
    cases h
    exact packOp_plain hcode hmask

/-- A word below 2^9 is its own low 9 bits. -/
theorem setWidth_extractLsb'_frame (h : w.toNat < 2 ^ 9) : (w.extractLsb' 0 9).setWidth 32 = w := by
  rw [← BitVec.setWidth_eq_extractLsb' (by decide)]
  apply BitVec.eq_of_toNat_eq
  rw [BitVec.toNat_setWidth_of_le (by decide), BitVec.toNat_setWidth, Nat.mod_eq_of_lt h]

/-- The argument words are kept, as far as the format has them (R93, R100). -/
theorem encode_args_of_decodeOperands (h : decodeOperands o ws = .ok i) :
    (1 ≤ o.format.argCount → (encode i).arg0 = ws.arg0) ∧ (2 ≤ o.format.argCount → (encode i).arg1 = ws.arg1) := by
  cases o with
  | txBlock | rxBlock | txAsync | rxAsync =>
    cases h
    exact ⟨fun _ => rfl, fun _ => rfl⟩
  | regWrite =>
    obtain ⟨r, -, rfl⟩ := decodeOperands_regWrite_ok h
    exact ⟨fun _ => rfl, fun harg => absurd harg (by decide)⟩
  | evRxFrame =>
    obtain ⟨hv, rfl⟩ := decodeOperands_evRxFrame_ok h
    exact ⟨fun _ => setWidth_extractLsb'_frame hv, fun harg => absurd harg (by decide)⟩
  | _ => exact ⟨fun harg => absurd harg (by decide), fun harg => absurd harg (by decide)⟩

theorem wellFormed_of_decode (h : decode n ws = .ok i) : WellFormed n i = true := by
  obtain ⟨o, -, -, hinst, hi⟩ := decode_ok h
  exact decide_eq_true ((decodeOperands_opcode_inst hi).2 ▸ hinst)

theorem encode_op_of_decode (h : decode n ws = .ok i) : (encode i).op = ws.op := by
  obtain ⟨o, hcode, hmask, -, hi⟩ := decode_ok h
  exact encode_op_of_decodeOperands hcode hmask hi

/-- Settles O2, by the checks the words have passed and the operands they give. -/
theorem encodeOfDecode : Obligations.EncodeOfDecode := by
  unfold Obligations.EncodeOfDecode
  intro n ws i h
  obtain ⟨o, -, -, -, hi⟩ := decode_ok h
  obtain ⟨rfl, -⟩ := decodeOperands_opcode_inst hi
  exact ⟨wellFormed_of_decode h, encode_op_of_decode h, encode_args_of_decodeOperands hi⟩

end Sys2Proof
end

section
/-! What the decoder refuses, and the worked encodings (O3, O4, O5). -/

namespace Sys2Proof

variable {n : Nat} {ws : OpWords} {o : Opcode}

/-! ### Illegal opcodes (R96) -/

/-- The operand checks never call a word's opcode illegal. -/
theorem decodeOperands_ne_illegalOpcode (w : Word) : decodeOperands o ws ≠ .error (.illegalOpcode w) := by
  cases o with
  | readFlag | regRead | regWrite | evRxFrame =>
    intro h
    simp only [decodeOperands] at h
    split at h <;> cases h
  | _ => nofun

theorem decode_illegalOpcode_iff :
    decode n ws = .error (.illegalOpcode ws.op) ↔ Opcode.ofCode? (opcField ws.op) = none := by
  constructor
  case mp =>
    intro h
    unfold decode at h
    split at h
    · assumption
    · split at h
      · cases h
      · split at h
        · cases h
        · exact absurd h (decodeOperands_ne_illegalOpcode _)
  case mpr =>
    intro h
    simp only [decode, h]

/-- The codes that R94 gives no mnemonic are the ones R96 lists. -/
theorem ofCode_eq_none_iff : ∀ c : BitVec 8, Opcode.ofCode? c = none ↔
    (c.toNat = 0 ∨ (0x0B ≤ c.toNat ∧ c.toNat ≤ 0x0F) ∨ (0x16 ≤ c.toNat ∧ c.toNat ≤ 0x1F) ∨ 0x23 ≤ c.toNat) := by
  decide

theorem opcField_toNat (w : Word) : (opcField w).toNat = w.toNat / 2 ^ 24 := by
  rw [opcField, BitVec.extractLsb'_toNat, Nat.shiftRight_eq_div_pow]
  omega

/-- Settles O4, from the codes with no row in R94. -/
theorem illegalOpcodesRefused : Obligations.IllegalOpcodesRefused := by
  unfold Obligations.IllegalOpcodesRefused
  intro n ws
  rw [decode_illegalOpcode_iff, ofCode_eq_none_iff, opcField_toNat]

/-! ### The field checks (R95, R97) -/

theorem decodeOperands_badRegister (hformat : o.format = .cr ∨ o.format = .cw) (hreg : 6 ≤ (regField ws.op).toNat) :
    decodeOperands o ws = .error (.badRegister ws.op) := by
  have hnone : RegName.ofIndex? (regField ws.op) = none := (ofIndex_eq_none_iff _).mpr hreg
  cases o with
  | regRead => exact decodeOperands_regRead_none hnone
  | regWrite => exact decodeOperands_regWrite_none hnone
  | _ => simp [Opcode.format] at hformat

theorem decodeOperands_badFlag (hformat : o.format = .cf) (hflag : 3 ≤ (flagField ws.op).toNat) :
    decodeOperands o ws = .error (.badFlag ws.op) := by
  cases o with
  | readFlag => exact decodeOperands_readFlag_none ((ofSelector_eq_none_iff _).mpr hflag)
  | _ => cases hformat

theorem decodeOperands_wideFrame (hformat : o.format = .ed) (hframe : 2 ^ 9 ≤ ws.arg0.toNat) :
    decodeOperands o ws = .error (.reservedField ws.op) := by
  cases o with
  | evRxFrame => exact decodeOperands_evRxFrame_of_ge hframe
  | _ => cases hformat

theorem exists_register_of_lt {c : BitVec 4} (h : ¬6 ≤ c.toNat) : ∃ r, RegName.ofIndex? c = some r :=
  Option.ne_none_iff_exists'.mp (mt (ofIndex_eq_none_iff c).mp h)

theorem exists_flag_of_lt {c : BitVec 4} (h : ¬3 ≤ c.toNat) : ∃ f, Flag.ofSelector? c = some f :=
  Option.ne_none_iff_exists'.mp (mt (ofSelector_eq_none_iff c).mp h)

/-- Operands that none of the three checks refuses give an operation. -/
theorem decodeOperands_passes (hreg : ¬((o.format = .cr ∨ o.format = .cw) ∧ 6 ≤ (regField ws.op).toNat))
    (hflag : ¬(o.format = .cf ∧ 3 ≤ (flagField ws.op).toNat)) (hframe : ¬(o.format = .ed ∧ 2 ^ 9 ≤ ws.arg0.toNat)) :
    ∃ i, decodeOperands o ws = .ok i := by
  cases o with
  | readFlag =>
    obtain ⟨f, hf⟩ := exists_flag_of_lt fun h => hflag ⟨rfl, h⟩
    exact ⟨_, decodeOperands_readFlag_some hf⟩
  | regRead =>
    obtain ⟨r, hr⟩ := exists_register_of_lt fun h => hreg ⟨.inl rfl, h⟩
    exact ⟨_, decodeOperands_regRead_some hr⟩
  | regWrite =>
    obtain ⟨r, hr⟩ := exists_register_of_lt fun h => hreg ⟨.inr rfl, h⟩
    exact ⟨_, decodeOperands_regWrite_some hr⟩
  | evRxFrame => exact ⟨_, decodeOperands_evRxFrame_of_lt (Nat.not_le.mp fun h => hframe ⟨rfl, h⟩)⟩
  | _ => exact ⟨_, rfl⟩

/-- Settles O5: the mask, then INST, then the operands. -/
theorem fieldChecksRefuse : Obligations.FieldChecksRefuse := by
  unfold Obligations.FieldChecksRefuse
  refine fun n ws o hcode => ⟨decode_reservedField hcode, fun hmask =>
    ⟨decode_badInstance hcode hmask, fun hinst => ?_⟩⟩
  rw [decode_eq_decodeOperands hcode hmask hinst]
  split_ifs with hreg hflag hframe
  · exact decodeOperands_badRegister hreg.1 hreg.2
  · exact decodeOperands_badFlag hflag.1 hflag.2
  · exact decodeOperands_wideFrame hframe.1 hframe.2
  · obtain ⟨i, hi⟩ := decodeOperands_passes hreg hflag hframe
    obtain ⟨hopcode, hinst⟩ := decodeOperands_opcode_inst hi
    exact ⟨i, hi, hopcode, congrArg Fin.val hinst⟩

/-- Settles O3, word by word of the table of R103. -/
theorem workedEncodingsDecode : Obligations.WorkedEncodingsDecode := by
  unfold Obligations.WorkedEncodingsDecode
  decide

end Sys2Proof
end

section
/-! Who may issue what, and the internal steps of the application context (O9, O10). -/

namespace Sys2Proof.Machine

variable {s : State} {a : Agent} {ws : OpWords} {rest : List Turn} {i : Instr} {u : InstIx} {w : Word}

/-! ### Refused issuers (R95, R99) -/

/-- The issuer column of R94 and R99 by opcode numbers, compared row by row. -/
theorem mayIssue_iff : mayIssue a i = true ↔
    (a = .host ∧ 0x01 ≤ i.opcode.code.toNat ∧ i.opcode.code.toNat ≤ 0x0A) ∨
    (a = .irq ∧ i.opcode.code.toNat = 0x08) ∨
    (a = .app ∧ 0x12 ≤ i.opcode.code.toNat ∧ i.opcode.code.toNat ≤ 0x15) ∨
    (a = .line i.inst ∧ 0x20 ≤ i.opcode.code.toNat ∧ i.opcode.code.toNat ≤ 0x22) := by
  cases i <;> simp [mayIssue, Instr.opcode, Opcode.code, Instr.inst]

/-- ON_IRQ may be issued by the host, so the check of the routing does not come before that of the issuer. -/
theorem issueVerdict_of_not_mayIssue (hm : mayIssue a i = false) : issueVerdict s a i w = .reject (.notIssuable w) := by
  have hroute : ¬(a = .host ∧ i = .onIrq i.inst ∧ s.irqRouted i.inst = true) := by
    rintro ⟨rfl, hi, -⟩
    rw [hi] at hm
    cases hm
  rw [issueVerdict, if_neg hroute, if_pos hm]

theorem step_of_not_mayIssue (h : Running s) (hq : s.schedule = .issue a ws :: rest)
    (hd : decode s.params.nInst ws = .ok i) (hm : mayIssue a i = false) :
    step s = .next ((s.setSchedule rest).refuse (.notIssuable ws.op)) := by
  rw [step_issue h hq hd, issueVerdict_of_not_mayIssue hm]

/-- A host command outside IDLE only sets the NOT_ISSUABLE mark (R46, R99), an ON_IRQ while the line is not routed. -/
theorem exec_host_of_not_idle (hm : mayIssue .host i = true) (ha : s.app ≠ .idle)
    (hroute : ∀ u, i = .onIrq u → s.irqRouted u = false) :
    exec i s = .next (s.refuse (.notIssuable (encode i).op)) := by
  cases i with
  | onIrq u =>
    have hr : ¬s.irqRouted u = true := Bool.not_eq_true _ ▸ hroute u rfl
    exact (if_neg hr).trans (asHost_busy _ _ _ ha)
  | init | txBlock | rxBlock | txAsync | rxAsync | setEnabled | readFlag | regRead | regWrite =>
    exact asHost_busy _ _ _ ha
  | _ => cases hm

theorem step_host_of_not_idle (h : Running s) (hq : s.schedule = .issue .host ws :: rest)
    (hd : decode s.params.nInst ws = .ok i) (hm : mayIssue .host i = true) (ha : s.app ≠ .idle)
    (hroute : ∀ u, i = .onIrq u → s.irqRouted u = false) :
    step s = .next ((s.setSchedule rest).refuse (.notIssuable ws.op)) := by
  have hnotRouted : ∀ u, i = .onIrq u → (Agent.host = .irq ↔ s.irqRouted u = true) := by
    intro u hi
    simp [hroute u hi]
  have hrefused := exec_host_of_not_idle (s := s.setSchedule rest) hm ha hroute
  rw [step_of_decode_ok h hq hd hm hnotRouted, hrefused, encode_op_of_decode hd]

/-- Settles O9: an agent that the rule does not list may not issue the operation, and a host command outside IDLE is
refused by its meaning. -/
theorem onlyListedIssuers : Obligations.OnlyListedIssuers := by
  unfold Obligations.OnlyListedIssuers
  refine fun s a ws rest i h hq hd => ⟨fun hlisted => ?unlisted, ?notIdle⟩
  case unlisted => exact step_of_not_mayIssue h hq hd (Bool.eq_false_iff.mpr (mt mayIssue_iff.mp hlisted))
  case notIdle =>
    rintro rfl hlow hhigh ha hroute
    refine step_host_of_not_idle h hq hd (mayIssue_iff.mpr (.inl ⟨rfl, hlow, hhigh⟩)) ha ?_
    rintro u rfl
    exact hroute rfl

/-! ### Internal steps outside their state (R11, R98) -/

theorem exec_rmwCommit_of_other_state (h : ∀ l x c, s.app ≠ .rmw u l x c) : exec (.rmwCommit u) s = .next s := by
  cases ha : s.app with
  | rmw v l x c =>
    have hv : v ≠ u := fun hv => h l x c (hv ▸ ha)
    simp only [exec, execRmwCommit, ha, if_neg hv, hold]
  | idle | blkTx | blkRx => simp only [exec, execRmwCommit, ha, hold]

theorem exec_blkTxUnit_of_other_state (h : ∀ c r, s.app ≠ .blkTx u c r .units) :
    exec (.blkTxUnit u) s = .next s := by
  have hnone : blkTxUnitEnabled s u = none :=
    Option.eq_none_iff_forall_ne_some.mpr fun (c, r) he => h c r (blkTxUnitEnabled_some.mp he).1
  simp only [exec, execBlkTxUnit, hnone, hold]

theorem exec_blkTxFinish_of_other_state (h : ∀ c r, s.app ≠ .blkTx u c r .waitTc) :
    exec (.blkTxFinish u) s = .next s := by
  have hdisabled : ¬blkTxFinishEnabled s u = true := by
    intro he
    obtain ⟨⟨c, ha⟩, -⟩ := blkTxFinishEnabled_true.mp he
    exact h c _ ha
  exact if_neg hdisabled

theorem exec_blkRxUnit_of_other_state (h : ∀ c r, s.app ≠ .blkRx u c r) : exec (.blkRxUnit u) s = .next s := by
  have hnone : blkRxUnitEnabled s u = none :=
    Option.eq_none_iff_forall_ne_some.mpr fun (c, r) he => h c r (blkRxUnitEnabled_some.mp he).1
  simp only [exec, execBlkRxUnit, hnone, hold]

/-- Settles O10: no agent may issue a step-callback, and each internal step is enabled in its own state only. -/
theorem internalStepsNeedTheirState : Obligations.InternalStepsNeedTheirState := by
  unfold Obligations.InternalStepsNeedTheirState
  refine ⟨?callbacks, fun s u => ⟨exec_rmwCommit_of_other_state, exec_blkTxUnit_of_other_state,
    exec_blkTxFinish_of_other_state, exec_blkRxUnit_of_other_state⟩⟩
  case callbacks =>
    rintro s a ws rest u i h hq (rfl | rfl) hd <;> exact step_of_not_mayIssue h hq hd rfl

end Sys2Proof.Machine
end

section
/-! INIT and the baud-rate generator: the four words INIT writes, and the packed divisor (O15, O16, O17). -/

namespace Sys2Proof.Machine

variable {s : State} {u : InstIx} {mode : Rounding} {clock baud : Nat} {o : Oversampling}

/-! ### INIT, and a write of one USART (R118) -/

/-- The USART that INIT leaves: its four control words computed from its record, and everything else as it was. -/
def Inst.initialised (p : Params) (clock : Nat) (i : Inst) : Inst :=
  { i with
    cr1 := cr1Init i.cfg
    cr2 := cr2Init i.cfg
    cr3 := cr3Init i.cfg
    brr := brrStored p (brrValue p.div100Rounding clock i.cfg.baud i.cfg.oversampling) }

theorem exec_init_of_idle (h : s.app = .idle) :
    exec (.init u) s = .next (s.setUsart u ((s.usart u).initialised s.params (s.clockHz u))) :=
  asHost_idle (.init u) s _ h

theorem restKept_setUsart (s : State) (u : InstIx) (i : Inst) : RestKept u s (s.setUsart u i) where
  params := rfl
  others _ hv := s.usart_setUsart_other i hv
  fault := rfl
  refused := rfl
  schedule := rfl

theorem memKept_setUsart (s : State) (u : InstIx) (i : Inst) : MemKept s (s.setUsart u i) :=
  s.byteAt_setUsart u i

/-! ### The control words, bit for bit (R119, R120) -/

/-- A mask of the one bit `k` shows its condition in that bit alone. -/
theorem maskIf_getLsbD {m : Word} {k : Nat} (p : Bool) (b : Nat) (hm : m.toNat = 2 ^ k) :
    (maskIf p m).getLsbD b = (p && decide (b = k)) := by
  cases p with
  | false => exact BitVec.getLsbD_zero
  | true => simp [maskIf, ← BitVec.testBit_toNat, hm, Nat.testBit_two_pow, eq_comm]

theorem cr1Init_getLsbD (c : Config) (b : Nat) : (cr1Init c).getLsbD b =
    (decide (c.mode = .tx ∨ c.mode = .txRx) && decide (b = 3) ||
      decide (c.mode = .rx ∨ c.mode = .txRx) && decide (b = 2) ||
      decide (c.wordLength = .nine) && decide (b = 12) ||
      decide (c.parity ≠ .none) && decide (b = 10) ||
      decide (c.parity = .odd) && decide (b = 9) ||
      decide (c.oversampling = .by8) && decide (b = 15)) := by
  simp only [cr1Init, BitVec.getLsbD_or, Bool.decide_or, decide_not]
  rw [maskIf_getLsbD (k := 3), maskIf_getLsbD (k := 2), maskIf_getLsbD (k := 12), maskIf_getLsbD (k := 10),
    maskIf_getLsbD (k := 9), maskIf_getLsbD (k := 15)] <;> rfl

theorem cr2Init_toNat (c : Config) : (cr2Init c).toNat = 2 ^ 12 * (stopCode c.stopBits).toNat := by
  unfold cr2Init
  cases c.stopBits <;> rfl

theorem cr3Init_getLsbD (c : Config) (b : Nat) : (cr3Init c).getLsbD b =
    (decide (c.flow = .cts ∨ c.flow = .rtsCts) && decide (b = 9) ||
      decide (c.flow = .rts ∨ c.flow = .rtsCts) && decide (b = 8)) := by
  simp only [cr3Init, BitVec.getLsbD_or, Bool.decide_or]
  rw [maskIf_getLsbD (k := 9), maskIf_getLsbD (k := 8)] <;> rfl

/-- Settles O15: the state INIT leaves is written out, and each control word is read off bit by bit. -/
theorem initWritesControlWords : Obligations.InitWritesControlWords := by
  unfold Obligations.InitWritesControlWords
  intro s u hidle
  refine ⟨_, exec_init_of_idle hidle, ?_⟩
  simp only [State.usart_setUsart_same]
  refine ⟨fun b => ?cr1, ?cr2, fun b => ?cr3, rfl, restKept_setUsart s u _, memKept_setUsart s u _, hidle, rfl, rfl⟩
  case cr1 =>
    rw [Inst.initialised, cr1Init_getLsbD]
    split <;> simp_all
  case cr2 =>
    rw [Inst.initialised, cr2Init_toNat]
    cases (s.usart u).cfg.stopBits <;> rfl
  case cr3 =>
    rw [Inst.initialised, cr3Init_getLsbD]
    split <;> simp_all

/-! ### The packed divisor and the word BRR keeps (R111 to R117) -/

theorem State.clockHz_eq (s : State) (u : InstIx) : s.clockHz u =
    if (s.params.perInst.get u).clockDomain = .zero then s.params.clockHzZero.val else s.params.clockHzOne.val := by
  unfold State.clockHz
  cases (s.params.perInst.get u).clockDomain <;> rfl

theorem oversamplingFactor_eq (o : Oversampling) : oversamplingFactor o = if o = .by8 then 8 else 16 := by
  cases o <;> rfl

theorem div100_eq (mode : Rounding) (clock baud k : Nat) : div100 mode clock baud k =
    if mode = .nearest then (200 * clock + k * baud) / (2 * k * baud) else (100 * clock) / (k * baud) := by
  cases mode <;> rfl

/-- The mask of the fraction, by the oversampling (R116). -/
theorem fractionOf_oversamplingFactor (f100 : Nat) (o : Oversampling) : fractionOf f100 (oversamplingFactor o) =
    if oversamplingFactor o = 8 then fractionRaw f100 (oversamplingFactor o) &&& 0x7
    else fractionRaw f100 (oversamplingFactor o) &&& 0xF := by
  cases o <;> rfl

theorem brrStored_toNat (p : Params) (v : Nat) :
    (brrStored p v).toNat = v % 2 ^ (if p.brrWidth = .w16 then 16 else 32) := by
  unfold brrStored
  cases p.brrWidth with
  | w16 => exact Nat.mod_eq_of_lt (by omega)
  | w32 => exact Nat.mod_mod v (2 ^ 32)

/-- Both widths of BRR keep the sixteen low bits. -/
theorem brrStored_getLsbD (p : Params) (v : Nat) {b : Nat} (hb : b < 16) :
    (brrStored p v).getLsbD b = v.testBit b := by
  have hwidth : b < if p.brrWidth = .w16 then 16 else 32 := by
    split <;> omega
  rw [← BitVec.testBit_toNat, brrStored_toNat, Nat.testBit_mod_two_pow, decide_eq_true hwidth, Bool.true_and]

/-- Under 8x oversampling the fraction has three bits and the mantissa begins at bit 4, so bit 3 is 0 (R116, R117). -/
theorem brrValue_by8_testBit_three : (brrValue mode clock baud .by8).testBit 3 = false := by
  have hmask : Nat.testBit (oversamplingFactor .by8 - 1) 3 = false := by decide
  simp only [brrValue, fractionOf, Nat.testBit_or, Nat.testBit_and, Nat.testBit_shiftLeft, hmask, Bool.and_false,
    Bool.or_false]
  rfl

/-- Settles O16: each quantity of the rule is the model's, so the number stored is BRR_VALUE. -/
theorem initStoresDivisor : Obligations.InitStoresDivisor := by
  unfold Obligations.InitStoresDivisor
  intro s u hidle clock baud k div mantissa fraction100 raw fraction width
  have hclock : clock = s.clockHz u := (s.clockHz_eq u).symm
  have hk : k = oversamplingFactor (s.usart u).cfg.oversampling := (oversamplingFactor_eq _).symm
  have hdiv : div = div100 s.params.div100Rounding clock baud k := (div100_eq ..).symm
  have hfraction : fraction = fractionOf (fraction100Of div) k := by
    rw [hk, fractionOf_oversamplingFactor, ← hk]
    rfl
  have hvalue : (mantissa <<< 4) ||| fraction =
      brrValue s.params.div100Rounding (s.clockHz u) baud (s.usart u).cfg.oversampling := by
    rw [brrValue, ← hk, ← hclock, ← hdiv, hfraction]
    rfl
  refine ⟨_, exec_init_of_idle hidle, ?stored, fun hby8 => ?bitThree⟩
  case stored =>
    rw [State.usart_setUsart_same, hvalue]
    exact brrStored_toNat s.params _
  case bitThree =>
    rw [State.usart_setUsart_same, Inst.initialised, brrStored_getLsbD _ _ (by decide), hby8]
    exact brrValue_by8_testBit_three

/-! ### The lost carry of the fraction (R114 to R116) -/

theorem fraction100Of_eq_mod (d : Nat) : fraction100Of d = d % 100 := by
  unfold fraction100Of mantissaOf
  omega

theorem fraction100Of_le (d : Nat) : fraction100Of d ≤ 99 := by
  rw [fraction100Of_eq_mod]
  omega

theorem fractionRaw_le {f : Nat} (hf : f ≤ 99) (k : Nat) : fractionRaw f k ≤ k := by
  have hmul : f * k ≤ 99 * k := Nat.mul_le_mul_right k hf
  unfold fractionRaw
  omega

/-- The fraction rounds up to the whole from half a step below it (R115). -/
theorem fractionRaw_eq_iff {f : Nat} (hf : f ≤ 99) (k : Nat) : fractionRaw f k = k ↔ 100 * k ≤ f * k + 50 := by
  have hle := fractionRaw_le hf k
  unfold fractionRaw at hle ⊢
  omega

theorem fractionRaw_eight_eq_iff {f : Nat} (hf : f ≤ 99) : fractionRaw f 8 = 8 ↔ 94 ≤ f := by
  rw [fractionRaw_eq_iff hf]
  omega

theorem fractionRaw_sixteen_eq_iff {f : Nat} (hf : f ≤ 99) : fractionRaw f 16 = 16 ↔ 97 ≤ f := by
  rw [fractionRaw_eq_iff hf]
  omega

/-- A fraction that rounds up to the whole leaves a field of 0 and the mantissa as it was (R116). -/
theorem brrValue_of_carry
    (h : fractionRaw (fraction100Of (div100 mode clock baud (oversamplingFactor o))) (oversamplingFactor o) =
      oversamplingFactor o) :
    brrValue mode clock baud o = 16 * (div100 mode clock baud (oversamplingFactor o) / 100) := by
  have hlost : oversamplingFactor o &&& (oversamplingFactor o - 1) = 0 := by cases o <;> rfl
  rw [brrValue, fractionOf, h, hlost, Nat.or_zero, Nat.shiftLeft_eq, Nat.mul_comm]
  rfl

/-- Settles O17, from the threshold of each oversampling and the mask that drops the carry. -/
theorem fractionCarryLost : Obligations.FractionCarryLost := by
  unfold Obligations.FractionCarryLost
  refine ⟨fun d => ?thresholds, fun mode clock baud => ⟨fun h => ?by8, fun h => ?by16⟩⟩
  case thresholds =>
    have hf := fraction100Of_le d
    exact ⟨hf, fractionRaw_le hf 8, fractionRaw_le hf 16, fractionRaw_eight_eq_iff hf, fractionRaw_sixteen_eq_iff hf⟩
  case by8 =>
    rw [← fraction100Of_eq_mod] at h
    exact brrValue_of_carry (o := .by8) ((fractionRaw_eight_eq_iff (fraction100Of_le _)).mpr h)
  case by16 =>
    rw [← fraction100Of_eq_mod] at h
    exact brrValue_of_carry (o := .by16) ((fractionRaw_sixteen_eq_iff (fraction100Of_le _)).mpr h)

end Sys2Proof.Machine
end

section
/-! The word-format selector, and one unit fetched or stored (O19, O20, O21, O59). -/

namespace Sys2Proof.Machine

variable {s : State} {u : InstIx} {i : Inst} {c r a : Word} {n : UnitSize}

/-! ### The selector (R130) -/

/-- With parity on, the format is one byte with full masks, whatever the word length. -/
theorem wordFormat_of_parity (l : WordLength) {p : Parity} (h : p ≠ .none) :
    wordFormat l p = ⟨.one, 0x0FF#16, 0x0FF#16⟩ := by
  cases p with
  | none => exact absurd rfl h
  | even => cases l <;> rfl
  | odd => cases l <;> rfl

/-- Settles O19, by the word length and the parity of the record. -/
theorem selectorTable : Obligations.SelectorTable := by
  unfold Obligations.SelectorTable
  intro i
  refine ⟨fun hl hp => ?_, fun hl hp => ?_, fun hl hp => ?_, fun hl hp => ?_⟩ <;> rw [Inst.format, hl]
  · rw [hp]; rfl
  · exact wordFormat_of_parity _ hp
  · rw [hp]; rfl
  · exact wordFormat_of_parity _ hp

/-! ### The size of a unit and the bytes it needs (R136) -/

theorem UnitSize.bytes_pos (n : UnitSize) : 0 < n.bytes := by
  cases n <;> decide

theorem UnitSize.bytes_eq_two_iff : n.bytes = 2 ↔ n = .two := by
  cases n <;> decide

/-- The size of a unit is `min(unit_bytes, remaining)`. -/
theorem Inst.nextSize_bytes (i : Inst) (hr : r ≠ 0#32) :
    (i.nextSize r).bytes = min i.format.unitBytes.bytes r.toNat := by
  have hpos : r.toNat ≠ 0 := fun h => hr (BitVec.eq_of_toNat_eq h)
  have hone : r = 1#32 ↔ r.toNat = 1 := by rw [← BitVec.toNat_inj]; rfl
  unfold Inst.nextSize unitSize
  cases i.format.unitBytes with
  | one => exact (min_eq_left (Nat.one_le_iff_ne_zero.mpr hpos)).symm
  | two =>
    by_cases h1 : r = 1#32
    · rw [h1]; rfl
    · have hne : r.toNat ≠ 1 := mt hone.mpr h1
      simp only [h1, if_false]
      exact (min_eq_left (show 2 ≤ r.toNat by omega)).symm

theorem firstMissing_nextSize (hr : r ≠ 0#32) (hfirst : memValid s c = true)
    (hsecond : min i.format.unitBytes.bytes r.toNat = 2 → memValid s (c + 1#32) = true) :
    firstMissing s c (i.nextSize r) = none := by
  refine (firstMissing_none_iff _ _ _).mpr ⟨hfirst, fun hn => hsecond ?_⟩
  rw [← i.nextSize_bytes hr, hn, UnitSize.bytes]

/-! ### One unit fetched (R132, R134) -/

/-- The bits a read of `n` bytes that exist gives: the first byte below the second. -/
theorem memRead_of_present (h : firstMissing s a n = none) :
    ∃ raw, memRead s a n = .ok raw ∧ ∀ b, raw.getLsbD b =
      if b < 8 then (s.byteAt a).getLsbD b else decide (n = .two) && (s.byteAt (a + 1#32)).getLsbD (b - 8) := by
  cases n with
  | one =>
    refine ⟨_, memRead_one_of_present h, fun b => ?_⟩
    rw [BitVec.getLsbD_setWidth]
    split
    · rw [decide_eq_true (by omega), Bool.true_and]
    · rw [BitVec.getLsbD_of_ge _ _ (by omega), Bool.and_false]; rfl
  | two =>
    refine ⟨_, memRead_two_of_present h, fun b => ?_⟩
    rw [BitVec.getLsbD_append, decide_eq_true rfl, Bool.true_and]

theorem Inst.sentFrame_getLsbD (i : Inst) (raw : Half) (b : Nat) :
    (i.sentFrame raw).getLsbD b = (i.format.wmask.getLsbD b && decide (b < 9) && raw.getLsbD b) := by
  rw [Inst.sentFrame, BitVec.getLsbD_setWidth, BitVec.getLsbD_and, Bool.and_comm (raw.getLsbD b), ← Bool.and_assoc,
    Bool.and_comm (decide _)]

theorem fetchUnit_of_memRead {raw : Half} (h : memRead s c ((s.usart u).nextSize r) = .ok raw) :
    fetchUnit s u c r = .ok ((s.usart u).sentFrame raw, (s.usart u).nextSize r) := by
  simp only [fetchUnit, h]

/-- Settles O20: the bits of the bytes read, through the write mask. -/
theorem fetchUnitGivesMaskedUnit : Obligations.FetchUnitGivesMaskedUnit := by
  unfold Obligations.FetchUnitGivesMaskedUnit
  intro s u c r hr i n hfirst hsecond
  have hn : ((s.usart u).nextSize r).bytes = n := Inst.nextSize_bytes _ hr
  obtain ⟨raw, hread, hbits⟩ := memRead_of_present (firstMissing_nextSize hr hfirst hsecond)
  refine ⟨_, _, fetchUnit_of_memRead hread, hn, fun b => ?_⟩
  rw [Inst.sentFrame_getLsbD, hbits, ← hn]
  simp only [UnitSize.bytes_eq_two_iff]
  rfl

/-! ### One unit stored (R133, R135) -/

theorem storeUnit_of_present (d : Frame) (h : firstMissing s c ((s.usart u).nextSize r) = none) :
    storeUnit s u c r d =
      .ok ((s.usart u).nextSize r) (written s c ((s.usart u).nextSize r) ((s.usart u).storedUnit d)) := by
  simp only [storeUnit, memWrite_of_present _ h]

/-- Settles O21: the bytes of the write, through the read mask. -/
theorem storeUnitWritesMaskedUnit : Obligations.StoreUnitWritesMaskedUnit := by
  unfold Obligations.StoreUnitWritesMaskedUnit
  intro s u c r d hr hw i n hfirst hsecond
  have hn : ((s.usart u).nextSize r).bytes = n := Inst.nextSize_bytes _ hr
  refine ⟨_, _, storeUnit_of_present d (firstMissing_nextSize hr hfirst hsecond), hn,
    written_byteAt_first _ _ _ _ hw, fun h2 => ?second, written_byteAt_other _ _ _ _ hw, written_frame _ _ _ _⟩
  case second =>
    rw [UnitSize.bytes_eq_two_iff.mp (hn.trans h2)]
    exact written_byteAt_second _ _ _ hw

/-! ### A unit sent and received back (R139, R233) -/

/-- Two masks of at most 9 bits around the frame are one mask of the raw unit. -/
theorem storedUnit_sentFrame_and (i : Inst) (raw : Half) (m : Frame) :
    i.storedUnit (i.sentFrame raw &&& m) = raw &&& (i.format.wmask &&& m.setWidth 16 &&& i.format.rmask) := by
  apply BitVec.eq_of_getLsbD_eq
  intro b hb
  simp only [Inst.storedUnit, BitVec.getLsbD_and, BitVec.getLsbD_setWidth, Inst.sentFrame_getLsbD, hb, decide_true,
    Bool.true_and]
  by_cases h9 : b < 9
  · simp only [h9, decide_true, Bool.and_true]
    ac_rfl
  · simp only [BitVec.getLsbD_of_ge m b (Nat.le_of_not_lt h9), Bool.and_false, Bool.false_and]

/-- Settles O59, by the three masks of each configuration. -/
theorem loopbackRoundTrip : Obligations.LoopbackRoundTrip := by
  unfold Obligations.LoopbackRoundTrip
  intro i raw hm stored
  have hstored : stored = _ := storedUnit_sentFrame_and i raw i.frameMask
  rw [hstored, Inst.frameMask, hm]
  refine ⟨fun hl hp => ?_, fun hl hp => ?_, fun hp => ?_⟩
  · rw [Inst.format, hl, hp]; rfl
  · rw [Inst.format, hl, hp]; rfl
  · rw [Inst.format, wordFormat_of_parity _ hp]
    cases i.cfg.wordLength <;> rfl

end Sys2Proof.Machine
end

section
/-! An accepted transfer takes one step-callback per unit, in either direction (O32, O33). -/

namespace Sys2Proof.Machine

variable {s t t' : State} {u : InstIx} {op : Instr} {buf len c r : Word} {m k ub : Nat} {n : UnitSize}
  {d : Frame} {dir : Inst → DirState} {enable : Word}

/-! ### A direction part way through its transfer (R137, R176) -/

/-- A direction that accepted `len` bytes from `buf` on and has moved `m` of them: BUSY with the others to go, and FREE
once all are moved. -/
def DirState.afterBytes (buf len : Word) (m : Nat) : DirState :=
  if len.toNat ≤ m then DirState.freed else ⟨.busy, some (buf + BitVec.ofNat 32 m), len - BitVec.ofNat 32 m, .installed⟩

theorem DirState.afterBytes_of_le (h : len.toNat ≤ m) : DirState.afterBytes buf len m = DirState.freed := if_pos h

theorem DirState.afterBytes_of_lt (h : m < len.toNat) : DirState.afterBytes buf len m =
    ⟨.busy, some (buf + BitVec.ofNat 32 m), len - BitVec.ofNat 32 m, .installed⟩ := if_neg (Nat.not_le_of_lt h)

theorem DirState.afterBytes_zero (h : len ≠ 0#32) :
    DirState.afterBytes buf len 0 = ⟨.busy, some buf, len, .installed⟩ := by
  have hpos : 0 < len.toNat := Nat.pos_of_ne_zero fun h0 => h (BitVec.eq_of_toNat_eq h0)
  rw [DirState.afterBytes_of_lt hpos, BitVec.add_zero, BitVec.sub_zero]

/-- A direction after a unit (R137), freed if that was the last (R176). -/
def DirState.moved (d : DirState) (c : Word) (n : UnitSize) : DirState :=
  if (d.advance c n).remaining = 0#32 then DirState.freed else d.advance c n

theorem toNat_sub_ofNat (h : m ≤ len.toNat) : (len - BitVec.ofNat 32 m).toNat = len.toNat - m := by
  have hlen := len.isLt
  rw [BitVec.toNat_sub, BitVec.toNat_ofNat]
  omega

theorem sub_ofNat_eq_zero_iff (h : m ≤ len.toNat) : len - BitVec.ofNat 32 m = 0#32 ↔ len.toNat = m := by
  rw [← BitVec.toNat_inj, toNat_sub_ofNat h, BitVec.toNat_ofNat]
  omega

theorem sub_ofNat_ne_zero (h : m < len.toNat) : len - BitVec.ofNat 32 m ≠ 0#32 :=
  mt (sub_ofNat_eq_zero_iff h.le).mp h.ne'

theorem DirState.advance_afterBytes (h : m < len.toNat) :
    (DirState.afterBytes buf len m).advance (buf + BitVec.ofNat 32 m) n =
      ⟨.busy, some (buf + BitVec.ofNat 32 (m + n.bytes)), len - BitVec.ofNat 32 (m + n.bytes), .installed⟩ := by
  rw [DirState.afterBytes_of_lt h, DirState.advance, UnitSize.word, BitVec.ofNat_add, BitVec.add_assoc, sub_sub]

/-- The unit is the last exactly when no byte lies behind it. -/
theorem DirState.advance_remaining_eq_zero_iff (h : m < len.toNat) (hn : n.bytes = min ub (len.toNat - m)) :
    ((DirState.afterBytes buf len m).advance (buf + BitVec.ofNat 32 m) n).remaining = 0#32 ↔ len.toNat ≤ m + ub := by
  rw [DirState.advance_afterBytes h, sub_ofNat_eq_zero_iff (by omega), hn]
  omega

theorem DirState.moved_afterBytes (h : m < len.toNat) (hn : n.bytes = min ub (len.toNat - m)) :
    (DirState.afterBytes buf len m).moved (buf + BitVec.ofNat 32 m) n = DirState.afterBytes buf len (m + ub) := by
  simp only [DirState.moved, DirState.advance_remaining_eq_zero_iff h hn]
  split
  · exact (DirState.afterBytes_of_le ‹_›).symm
  · have hlast : m + ub < len.toNat := Nat.lt_of_not_le ‹_›
    have hwhole : n.bytes = ub := by omega
    rw [DirState.advance_afterBytes h, hwhole, DirState.afterBytes_of_lt hlast]

/-! ### One callback of a direction with a unit to move (R172, R174) -/

theorem Inst.txMoved_eq (i : Inst) (c : Word) (n : UnitSize) : i.txMoved c n =
    { i with
      cr1 := if (i.tx.advance c n).remaining = 0#32 then i.cr1 &&& ~~~bitTXEIE else i.cr1
      tx := i.tx.moved c n } := by
  unfold Inst.txMoved DirState.moved
  split <;> rfl

theorem Inst.rxMoved_eq (i : Inst) (c : Word) (n : UnitSize) : i.rxMoved c n =
    { i with
      cr1 := if (i.rx.advance c n).remaining = 0#32 then i.cr1 &&& ~~~bitRXNEIE else i.cr1
      rx := i.rx.moved c n } := by
  unfold Inst.rxMoved DirState.moved
  split <;> rfl

theorem exec_txStep_of_present (hc : (s.usart u).tx.callback = .installed)
    (hp : (s.usart u).tx.pending = some (c, r)) (hpresent : firstMissing s c ((s.usart u).nextSize r) = none) :
    ∃ raw, exec (.txStep u) s = .next (txMovedState s u c raw ((s.usart u).nextSize r)) := by
  obtain ⟨raw, hread, -⟩ := memRead_of_present hpresent
  refine ⟨raw, ?_⟩
  rw [txMovedState_eq]
  simp only [exec, execTxStep, txCallback, hc, hp, fetchUnit_of_memRead hread, finish_ok]

/-- Reading RDR first changes nothing for the unit stored. -/
theorem storeUnit_rdrTaken (d : Frame) (h : firstMissing s c ((s.usart u).nextSize r) = none) :
    storeUnit (rdrTaken s u) u c r d = .ok ((s.usart u).nextSize r)
      (written (rdrTaken s u) c ((s.usart u).nextSize r) ((s.usart u).storedUnit d)) := by
  have hsize : ((rdrTaken s u).usart u).nextSize r = (s.usart u).nextSize r := by rw [rdrTaken_usart_same]; rfl
  have hunit : ((rdrTaken s u).usart u).storedUnit d = (s.usart u).storedUnit d := by rw [rdrTaken_usart_same]; rfl
  have hpresent : firstMissing (rdrTaken s u) c (((rdrTaken s u).usart u).nextSize r) = none := by
    rw [hsize]
    exact (firstMissing_congr rfl c _).trans h
  rw [storeUnit_of_present d hpresent, hsize, hunit]

theorem exec_rxStep_of_present (hc : (s.usart u).rx.callback = .installed)
    (hp : (s.usart u).rx.pending = some (c, r)) (hd : (s.usart u).rdr = some d)
    (hpresent : firstMissing s c ((s.usart u).nextSize r) = none) :
    exec (.rxStep u) s = .next (rxMovedState s u c d ((s.usart u).nextSize r)) := by
  have hread : readDR s u = .ok d (rdrTaken s u) := by simp only [readDR, hd, rdrTaken]
  have hstore := storeUnit_rdrTaken d hpresent
  rw [rxMovedState_eq]
  simp only [exec, execRxStep, rxCallback, hc, hp, hread, hstore, finish_ok]

/-! ### A transfer part way through -/

/-- In `t`, a transfer of `len` bytes from `buf` on that direction `dir` of USART `u` had accepted in `s` has moved `m`
bytes: its interrupt `enable` is as it was until the last byte, and RDR, the record, the parameters and the fault mark
are as they were. -/
structure Transferred (dir : Inst → DirState) (enable : Word) (s : State) (u : InstIx) (buf len : Word) (m : Nat)
    (t : State) : Prop where
  params : t.params = s.params
  fault  : t.fault = s.fault
  cfg    : (t.usart u).cfg = (s.usart u).cfg
  rdr    : (t.usart u).rdr = (s.usart u).rdr
  dir_eq : dir (t.usart u) = DirState.afterBytes buf len m
  cr1    : (t.usart u).cr1 = if len.toNat ≤ m then (s.usart u).cr1 &&& ~~~enable else (s.usart u).cr1

theorem Transferred.start (h : dir (s.usart u) = ⟨.busy, some buf, len, .installed⟩) (hlen : len ≠ 0#32) :
    Transferred dir enable s u buf len 0 s where
  params := rfl
  fault := rfl
  cfg := rfl
  rdr := rfl
  dir_eq := h.trans (DirState.afterBytes_zero hlen).symm
  cr1 := (if_neg fun h0 => hlen (BitVec.eq_of_toNat_eq (Nat.le_zero.mp h0))).symm

section
variable (h : Transferred dir enable s u buf len m t) (hm : m < len.toNat)
include h

theorem Transferred.format_eq : (t.usart u).format = (s.usart u).format := by
  rw [Inst.format, Inst.format, h.cfg]

include hm

theorem Transferred.nextSize_bytes : ((t.usart u).nextSize (len - BitVec.ofNat 32 m)).bytes =
    min (s.usart u).format.unitBytes.bytes (len.toNat - m) := by
  rw [Inst.nextSize_bytes _ (sub_ofNat_ne_zero hm), h.format_eq, toNat_sub_ofNat hm.le]

theorem Transferred.busy : dir (t.usart u) =
    ⟨.busy, some (buf + BitVec.ofNat 32 m), len - BitVec.ofNat 32 m, .installed⟩ :=
  h.dir_eq.trans (DirState.afterBytes_of_lt hm)

theorem Transferred.callback : (dir (t.usart u)).callback = .installed := by
  rw [h.busy hm]

theorem Transferred.pending : (dir (t.usart u)).pending =
    some (buf + BitVec.ofNat 32 m, len - BitVec.ofNat 32 m) := by
  rw [h.busy hm, pending_some_iff]
  exact ⟨rfl, rfl, sub_ofNat_ne_zero hm⟩

/-- The bytes of the next unit exist when all of the buffer's do. -/
theorem Transferred.unit_present (hvalid : ∀ x : Nat, x < len.toNat → memValid s (buf + BitVec.ofNat 32 x) = true) :
    firstMissing t (buf + BitVec.ofNat 32 m) ((t.usart u).nextSize (len - BitVec.ofNat 32 m)) = none := by
  have hn := h.nextSize_bytes hm
  rw [firstMissing_congr h.params, firstMissing_none_iff]
  refine ⟨hvalid m hm, fun htwo => ?_⟩
  rw [htwo, UnitSize.bytes] at hn
  rw [BitVec.add_assoc, ← BitVec.ofNat_add]
  exact hvalid (m + 1) (by omega)

/-- A step that moves the next unit of the direction brings the transfer that far. -/
theorem Transferred.next (hparams : t'.params = t.params) (hfault : t'.fault = t.fault)
    (hcfg : (t'.usart u).cfg = (t.usart u).cfg) (hrdr : (t'.usart u).rdr = (t.usart u).rdr)
    (hdir : dir (t'.usart u) =
      (dir (t.usart u)).moved (buf + BitVec.ofNat 32 m) ((t.usart u).nextSize (len - BitVec.ofNat 32 m)))
    (hcr1 : (t'.usart u).cr1 =
      if ((dir (t.usart u)).advance (buf + BitVec.ofNat 32 m)
        ((t.usart u).nextSize (len - BitVec.ofNat 32 m))).remaining = 0#32
      then (t.usart u).cr1 &&& ~~~enable else (t.usart u).cr1) :
    Transferred dir enable s u buf len (m + (s.usart u).format.unitBytes.bytes) t' where
  params := hparams.trans h.params
  fault := hfault.trans h.fault
  cfg := hcfg.trans h.cfg
  rdr := hrdr.trans h.rdr
  dir_eq := by rw [hdir, h.dir_eq, DirState.moved_afterBytes hm (h.nextSize_bytes hm)]
  cr1 := by
    rw [hcr1, h.dir_eq, h.cr1, if_neg (Nat.not_le_of_lt hm)]
    simp only [DirState.advance_remaining_eq_zero_iff hm (h.nextSize_bytes hm)]

end

theorem Transferred.txStep (h : Transferred Inst.tx bitTXEIE s u buf len m t) (hm : m < len.toNat)
    (hvalid : ∀ x : Nat, x < len.toNat → memValid s (buf + BitVec.ofNat 32 x) = true) :
    ∃ t', exec (.txStep u) t = .next t' ∧
      Transferred Inst.tx bitTXEIE s u buf len (m + (s.usart u).format.unitBytes.bytes) t' := by
  obtain ⟨raw, hx⟩ := exec_txStep_of_present (h.callback hm) (h.pending hm) (h.unit_present hm hvalid)
  refine ⟨_, hx, h.next hm rfl rfl ?_ ?_ ?_ ?_⟩ <;>
    rw [txMovedState, State.usart_setUsart_same, Inst.txMoved_eq, Inst.writeDR]

theorem Transferred.rxStep (h : Transferred Inst.rx bitRXNEIE s u buf len m t) (hm : m < len.toNat)
    (hd : (s.usart u).rdr = some d)
    (hvalid : ∀ x : Nat, x < len.toNat → memValid s (buf + BitVec.ofNat 32 x) = true) :
    ∃ t', exec (.rxStep u) t = .next t' ∧
      Transferred Inst.rx bitRXNEIE s u buf len (m + (s.usart u).format.unitBytes.bytes) t' := by
  have hx := exec_rxStep_of_present (h.callback hm) (h.pending hm) (h.rdr.trans hd) (h.unit_present hm hvalid)
  refine ⟨_, hx, h.next hm (written_params _ _ _ _) (written_fault _ _ _ _) ?_ ?_ ?_ ?_⟩ <;>
    rw [rxMovedState, State.usart_setUsart_same, Inst.rxMoved_eq]

/-! ### As many callbacks as units (R138, R177) -/

theorem repeatExec_succ_of_next (h : repeatExec op k s = .next t) : repeatExec op (k + 1) s = exec op t := by
  induction k generalizing s with
  | zero =>
    obtain rfl : s = t := Host.Outcome.next.inj h
    simp only [repeatExec]
    cases exec op s <;> rfl
  | succ k ih =>
    rw [repeatExec] at h ⊢
    cases hx : exec op s with
    | next s1 => rw [hx] at h; exact ih h
    | fault f => rw [hx] at h; cases h
    | refused r => rw [hx] at h; cases h

/-- What each of the first `units` repetitions carries on from the one before holds after any number of them. -/
theorem exists_repeatExec {P : Nat → State → Prop} {units : Nat} (hstart : P 0 s)
    (hstep : ∀ k t, k < units → P k t → ∃ t', exec op t = .next t' ∧ P (k + 1) t') (hk : k ≤ units) :
    ∃ t, repeatExec op k s = .next t ∧ P k t := by
  induction k with
  | zero => exact ⟨s, rfl, hstart⟩
  | succ k ih =>
    obtain ⟨t, hrun, ht⟩ := ih (Nat.le_of_succ_le hk)
    obtain ⟨t', hx, ht'⟩ := hstep k t hk ht
    exact ⟨t', (repeatExec_succ_of_next hrun).trans hx, ht'⟩

/-- `k` whole units leave a byte to go exactly while `k` is below the number of units, rounded up. -/
theorem lt_units_iff (l k : Nat) (hub : 0 < ub) : k < (l + ub - 1) / ub ↔ k * ub < l := by
  rw [Nat.lt_iff_add_one_le, Nat.le_div_iff_mul_le hub, Nat.succ_mul]
  omega

/-- If a callback moves a unit whenever bytes are left, `k` callbacks move `k` units, up to the last. -/
theorem exists_transferred (hstart : dir (s.usart u) = ⟨.busy, some buf, len, .installed⟩) (hlen : len ≠ 0#32)
    (hub : (s.usart u).format.unitBytes.bytes = ub)
    (hstep : ∀ m t, Transferred dir enable s u buf len m t → m < len.toNat →
      ∃ t', exec op t = .next t' ∧ Transferred dir enable s u buf len (m + ub) t')
    (hk : k ≤ (len.toNat + ub - 1) / ub) :
    ∃ t, repeatExec op k s = .next t ∧ Transferred dir enable s u buf len (k * ub) t := by
  refine exists_repeatExec (P := fun k => Transferred dir enable s u buf len (k * ub)) ?start ?step hk
  case start =>
    rw [Nat.zero_mul]
    exact Transferred.start hstart hlen
  case step =>
    intro k t hlt h
    rw [Nat.succ_mul]
    exact hstep _ _ h ((lt_units_iff _ _ (hub ▸ UnitSize.bytes_pos _)).mp hlt)

/-- Before the last unit the direction is BUSY with the other bytes to go, and its interrupt as it was. -/
theorem Transferred.unfinished (h : Transferred dir enable s u buf len m t) (hm : m < len.toNat) :
    (dir (t.usart u)).status = .busy ∧ (dir (t.usart u)).cursor = some (buf + BitVec.ofNat 32 m) ∧
      (dir (t.usart u)).remaining.toNat = len.toNat - m ∧ (t.usart u).cr1 = (s.usart u).cr1 := by
  rw [h.busy hm, h.cr1, if_neg (Nat.not_le_of_lt hm)]
  exact ⟨rfl, rfl, toNat_sub_ofNat hm.le, rfl⟩

/-- After the last unit the direction is FREE and its interrupt disabled. -/
theorem Transferred.finished (h : Transferred dir enable s u buf len m t) (hm : len.toNat ≤ m) :
    dir (t.usart u) = ⟨.free, none, 0#32, .null⟩ ∧ (t.usart u).cr1 = (s.usart u).cr1 &&& ~~~enable :=
  ⟨h.dir_eq.trans (DirState.afterBytes_of_le hm), h.cr1.trans (if_pos hm)⟩

/-- Settles O32, by induction on the number of callbacks. -/
theorem transmitCallbackCount : Obligations.TransmitCallbackCount := by
  unfold Obligations.TransmitCallbackCount
  intro s u buf len k i ub units hstart hlen _ hfault hvalid hk
  obtain ⟨t, hrun, ht⟩ := exists_transferred hstart hlen rfl (fun _ _ h hm => h.txStep hm hvalid) hk
  have hleft : k < units ↔ k * ub < len.toNat := lt_units_iff _ _ (UnitSize.bytes_pos _)
  exact ⟨t, hrun, ht.fault.trans hfault, fun hlt => ht.unfinished (hleft.mp hlt),
    fun heq => ht.finished (Nat.le_of_not_lt (mt hleft.mpr heq.not_lt))⟩

/-- Settles O33, by induction on the number of callbacks: each takes the frame that RDR keeps. -/
theorem receiveCallbackCount : Obligations.ReceiveCallbackCount := by
  unfold Obligations.ReceiveCallbackCount
  intro s u buf len d k i ub units hstart hlen _ hfault hd hvalid hk
  obtain ⟨t, hrun, ht⟩ := exists_transferred hstart hlen rfl (fun _ _ h hm => h.rxStep hm hd hvalid) hk
  have hleft : k < units ↔ k * ub < len.toNat := lt_units_iff _ _ (UnitSize.bytes_pos _)
  exact ⟨t, hrun, ht.fault.trans hfault, fun hlt => ht.unfinished (hleft.mp hlt),
    fun heq => ht.finished (Nat.le_of_not_lt (mt hleft.mpr heq.not_lt))⟩

end Sys2Proof.Machine
end

section
/-! What a sequence of updates keeps outside one USART: the frame of the operations on it. -/

namespace Sys2Proof.Machine

variable {s t : State} {u : InstIx}

theorem RestKept.refl (u : InstIx) (s : State) : RestKept u s s where
  params := rfl
  others _ _ := rfl
  fault := rfl
  refused := rfl
  schedule := rfl

theorem RestKept.trans {t' : State} (h : RestKept u s t) (h' : RestKept u t t') : RestKept u s t' where
  params := h'.params.trans h.params
  others v hv := (h'.others v hv).trans (h.others v hv)
  fault := h'.fault.trans h.fault
  refused := h'.refused.trans h.refused
  schedule := h'.schedule.trans h.schedule

theorem RestKept.setUsart (h : RestKept u s t) (i : Inst) : RestKept u s (t.setUsart u i) :=
  h.trans (restKept_setUsart t u i)

theorem RestKept.setApp (h : RestKept u s t) (a : AppState) : RestKept u s (t.setApp a) :=
  ⟨h.params, h.others, h.fault, h.refused, h.schedule⟩

theorem RestKept.nextDraw (h : RestKept u s t) : RestKept u s t.nextDraw :=
  ⟨h.params, h.others, h.fault, h.refused, h.schedule⟩

theorem RestKept.afterReadSR (h : RestKept u s t) : RestKept u s (afterReadSR t u) :=
  (h.setUsart _).nextDraw

theorem RestKept.writeDR (h : RestKept u s t) (x : Frame) : RestKept u s (writeDR t u x) := h.setUsart _

theorem RestKept.rdrTaken (h : RestKept u s t) : RestKept u s (rdrTaken t u) := h.setUsart _

theorem RestKept.written (h : RestKept u s t) (a : Word) (n : UnitSize) (v : Half) : RestKept u s (written t a n v) :=
  h.trans
    { params := written_params t a n v
      others := fun x _ => written_usart t a n v x
      fault := written_fault t a n v
      refused := written_refused t a n v
      schedule := written_schedule t a n v }

end Sys2Proof.Machine
end

section
/-! The polled transfer port: its two requests, its three polled steps, their bus faults and their holds (O11, O22 to
O26). -/

namespace Sys2Proof.Machine

variable {s : State} {u : InstIx} {buf len c r a : Word} {d : Frame} {raw : Half}

/-! ### The requests (R150, R151, R160) -/

theorem bufferWraps_of_gt (hl : len ≠ 0#32) (h : 2 ^ 32 < buf.toNat + len.toNat) : bufferWraps buf len = true :=
  decide_eq_true ⟨Nat.one_le_iff_ne_zero.mpr fun h0 => hl (BitVec.eq_of_toNat_eq h0), h⟩

theorem bufferWraps_of_le (h : buf.toNat + len.toNat ≤ 2 ^ 32) : bufferWraps buf len = false :=
  decide_eq_false fun hw => Nat.not_lt_of_le h hw.2

theorem bufferWraps_zero (buf : Word) : bufferWraps buf 0#32 = false := bufferWraps_of_le buf.isLt.le

theorem exec_txBlock_of_idle (h : s.app = .idle) : exec (.txBlock u buf len) s =
    if bufferWraps buf len then .next (s.refuse .bufferWrap)
    else if len = 0#32 then .next (s.setApp (.blkTx u buf 0#32 .waitTc))
    else .next (s.setApp (.blkTx u buf len .units)) :=
  asHost_idle (.txBlock u buf len) s _ h

theorem exec_rxBlock_of_idle (h : s.app = .idle) : exec (.rxBlock u buf len) s =
    if bufferWraps buf len then .next (s.refuse .bufferWrap)
    else if len = 0#32 then .next s
    else .next (s.setApp (.blkRx u buf len)) :=
  asHost_idle (.rxBlock u buf len) s _ h

/-- Settles O22, by the wrap check and the length. -/
theorem polledRequestsStart : Obligations.PolledRequestsStart := by
  unfold Obligations.PolledRequestsStart
  intro s u buf len hidle
  rw [exec_txBlock_of_idle hidle, exec_rxBlock_of_idle hidle]
  refine ⟨fun hl hgt => ?wraps, ?empty, fun hl hle => ?fits⟩
  case wraps => simp only [bufferWraps_of_gt hl hgt, if_true, and_self]
  case empty =>
    rintro rfl
    simp only [bufferWraps_zero, Bool.false_eq_true, if_true, if_false, and_self]
  case fits => simp only [bufferWraps_of_le hle, hl, Bool.false_eq_true, if_false, and_self]

/-! ### The unit of a polled step is that of the state before its reads of SR and RDR -/

theorem nextSize_afterReadSR (s : State) (u : InstIx) (r : Word) :
    ((afterReadSR s u).usart u).nextSize r = (s.usart u).nextSize r := by
  rw [afterReadSR_usart_same]; rfl

theorem nextSize_rdrTaken (s : State) (u : InstIx) (r : Word) :
    ((rdrTaken s u).usart u).nextSize r = (s.usart u).nextSize r := by
  rw [rdrTaken_usart_same]; rfl

theorem sentFrame_afterReadSR (s : State) (u : InstIx) (raw : Half) :
    ((afterReadSR s u).usart u).sentFrame raw = (s.usart u).sentFrame raw := by
  rw [afterReadSR_usart_same]; rfl

theorem storedUnit_afterReadSR (s : State) (u : InstIx) (d : Frame) :
    ((afterReadSR s u).usart u).storedUnit d = (s.usart u).storedUnit d := by
  rw [afterReadSR_usart_same]; rfl

theorem fetchUnit_of_missing (h : firstMissing s c ((s.usart u).nextSize r) = some a) :
    fetchUnit s u c r = .error (.busFault a) := by
  simp only [fetchUnit, memRead_of_missing h]

theorem storeUnit_of_missing (d : Frame) (h : firstMissing s c ((s.usart u).nextSize r) = some a) :
    storeUnit s u c r d = .raised (.busFault a) s := by
  simp only [storeUnit, memWrite_of_missing _ h]

theorem fetchUnit_afterReadSR (s : State) (u : InstIx) (c r : Word) :
    fetchUnit (afterReadSR s u) u c r = fetchUnit s u c r := by
  unfold fetchUnit
  simp only [nextSize_afterReadSR, sentFrame_afterReadSR]
  rfl

/-- The read of RDR that follows the poll of SR. -/
theorem readDR_afterReadSR (hd : (s.usart u).rdr = some d) :
    readDR (afterReadSR s u) u = .ok d (rdrTaken (afterReadSR s u) u) := by
  simp only [readDR, afterReadSR_usart_same, hd, rdrTaken]

theorem usart_rdrTaken_afterReadSR (s : State) (u : InstIx) : (rdrTaken (afterReadSR s u) u).usart u =
    { s.usart u with rxne := false, tcArmed := (s.usart u).tcArmed || (s.usart u).tc } := by
  rw [rdrTaken_usart_same, afterReadSR_usart_same]

/-! ### One unit sent (R152) -/

section
variable (happ : s.app = .blkTx u c r .units) (hr : r ≠ 0#32) (htxe : (s.usart u).txe = true)
include happ hr htxe

theorem exec_blkTxUnit_of_present (hread : memRead s c ((s.usart u).nextSize r) = .ok raw) :
    exec (.blkTxUnit u) s = .next ((writeDR (afterReadSR s u) u ((s.usart u).sentFrame raw)).setApp
      (.blkTx u (c + ((s.usart u).nextSize r).word) (r - ((s.usart u).nextSize r).word)
        (if r - ((s.usart u).nextSize r).word = 0#32 then .waitTc else .units))) := by
  have henabled : blkTxUnitEnabled s u = some (c, r) := blkTxUnitEnabled_some.mpr ⟨happ, hr, htxe⟩
  simp only [exec, execBlkTxUnit, henabled, fetchUnit_afterReadSR, fetchUnit_of_memRead hread]

theorem exec_blkTxUnit_of_missing (hmissing : firstMissing s c ((s.usart u).nextSize r) = some a) :
    exec (.blkTxUnit u) s = .next ((afterReadSR s u).raise (.busFault a)) := by
  have henabled : blkTxUnitEnabled s u = some (c, r) := blkTxUnitEnabled_some.mpr ⟨happ, hr, htxe⟩
  simp only [exec, execBlkTxUnit, henabled, fetchUnit_afterReadSR, fetchUnit_of_missing hmissing]

end

/-- A read of SR and then a write of DR clear TC whatever it was: the read arms the clearing if TC is set (R229,
R230). -/
theorem Inst.writeDR_after_readSR (i : Inst) (x : Frame) (htxe : i.txe = true) :
    ({ i with tcArmed := i.tcArmed || i.tc } : Inst).writeDR x =
      { i with tdr := x, txe := false, tc := false, tcArmed := false } := by
  have htc : (i.tc && !(i.tcArmed || i.tc)) = false := by
    cases i.tc with
    | false => rfl
    | true => rw [Bool.or_true]; rfl
  simp only [Inst.writeDR, htxe, if_true, htc]

/-- Settles O23, by what the read of SR and the write of DR leave of the USART. -/
theorem blkTxUnitSends : Obligations.BlkTxUnitSends := by
  unfold Obligations.BlkTxUnitSends
  intro s u c r raw i n happ hr htxe hread
  refine ⟨_, exec_blkTxUnit_of_present happ hr htxe hread, ?usart, rfl,
    (((RestKept.refl u s).afterReadSR).writeDR _).setApp _, fun _ => rfl, rfl, rfl⟩
  case usart =>
    rw [State.usart_setApp, writeDR_usart_same, afterReadSR_usart_same, Inst.writeDR_after_readSR _ _ htxe]
    rfl

/-! ### The end of a transmit (R153) -/

theorem exec_blkTxFinish_of_tc (happ : s.app = .blkTx u c 0#32 .waitTc) (htc : (s.usart u).tc = true) :
    exec (.blkTxFinish u) s = .next ((afterReadSR s u).setApp .idle) :=
  if_pos (blkTxFinishEnabled_true.mpr ⟨⟨c, happ⟩, htc⟩)

/-- Settles O24: the read of SR arms `tc_armed`, TC being set. -/
theorem blkTxFinishReturns : Obligations.BlkTxFinishReturns := by
  unfold Obligations.BlkTxFinishReturns
  intro s u c happ htc
  refine ⟨_, exec_blkTxFinish_of_tc happ htc, ?usart, rfl, ((RestKept.refl u s).afterReadSR).setApp _,
    fun _ => rfl, rfl, rfl⟩
  case usart => rw [State.usart_setApp, afterReadSR_usart_same, htc, Bool.or_true]

/-! ### One unit received (R155, R156) -/

section
variable (happ : s.app = .blkRx u c r) (hr : r ≠ 0#32) (hrxne : (s.usart u).rxne = true)
  (hd : (s.usart u).rdr = some d)
include happ hr hrxne hd

theorem exec_blkRxUnit_of_present (hpresent : firstMissing s c ((s.usart u).nextSize r) = none) :
    exec (.blkRxUnit u) s =
      .next ((written (rdrTaken (afterReadSR s u) u) c ((s.usart u).nextSize r) ((s.usart u).storedUnit d)).setApp
        (if r - ((s.usart u).nextSize r).word = 0#32 then .idle
          else .blkRx u (c + ((s.usart u).nextSize r).word) (r - ((s.usart u).nextSize r).word))) := by
  have henabled : blkRxUnitEnabled s u = some (c, r) := blkRxUnitEnabled_some.mpr ⟨happ, hr, hrxne⟩
  have hpresent' : firstMissing (afterReadSR s u) c (((afterReadSR s u).usart u).nextSize r) = none := by
    rw [nextSize_afterReadSR]
    exact (firstMissing_congr rfl c _).trans hpresent
  simp only [exec, execBlkRxUnit, henabled, readDR_afterReadSR hd, storeUnit_rdrTaken d hpresent',
    nextSize_afterReadSR, storedUnit_afterReadSR]

theorem exec_blkRxUnit_of_missing (hmissing : firstMissing s c ((s.usart u).nextSize r) = some a) :
    exec (.blkRxUnit u) s = .next ((rdrTaken (afterReadSR s u) u).raise (.busFault a)) := by
  have henabled : blkRxUnitEnabled s u = some (c, r) := blkRxUnitEnabled_some.mpr ⟨happ, hr, hrxne⟩
  have hmissing' : firstMissing (rdrTaken (afterReadSR s u) u) c
      (((rdrTaken (afterReadSR s u) u).usart u).nextSize r) = some a := by
    rw [nextSize_rdrTaken, nextSize_afterReadSR]
    exact (firstMissing_congr rfl c _).trans hmissing
  simp only [exec, execBlkRxUnit, henabled, readDR_afterReadSR hd, storeUnit_of_missing d hmissing']

end

/-- Settles O25: the unit is written after the reads of SR and RDR, which leave buffer memory alone. -/
theorem blkRxUnitStores : Obligations.BlkRxUnitStores := by
  unfold Obligations.BlkRxUnitStores
  intro s u c r d i n happ hr hrxne hd hpresent hw
  refine ⟨_, exec_blkRxUnit_of_present happ hr hrxne hd hpresent, ?usart, written_byteAt_first _ _ _ _ hw,
    fun hn => ?second, written_byteAt_other (rdrTaken (afterReadSR s u) u) _ _ _ hw, rfl,
    ((((RestKept.refl u s).afterReadSR).rdrTaken).written _ _ _).setApp _,
    written_results _ _ _ _, written_draws _ _ _ _⟩
  case usart => rw [State.usart_setApp, written_usart, usart_rdrTaken_afterReadSR]
  case second =>
    have htwo : (s.usart u).nextSize r = .two := hn
    rw [htwo]
    exact written_byteAt_second _ _ _ hw

/-! ### Bus faults (R152, R155, R244) -/

/-- Settles O26: the transmit faults after its read of SR alone, the receive after its read of RDR. -/
theorem polledBusFaults : Obligations.PolledBusFaults := by
  unfold Obligations.PolledBusFaults
  intro s u c r a i hr hmissing
  refine ⟨fun happ htxe => ?transmit, fun d happ hrxne hd => ?receive⟩
  case transmit =>
    exact ⟨_, exec_blkTxUnit_of_missing happ hr htxe hmissing, rfl, afterReadSR_usart_same s u, rfl, fun _ => rfl⟩
  case receive =>
    exact ⟨_, exec_blkRxUnit_of_missing happ hr hrxne hd hmissing, rfl, usart_rdrTaken_afterReadSR s u, rfl,
      fun _ => rfl⟩

/-! ### Holds (R154) -/

theorem blkTxUnitEnabled_of_not_txe (h : (s.usart u).txe = false) : blkTxUnitEnabled s u = none := by
  refine Option.eq_none_iff_forall_ne_some.mpr fun (c, r) he => ?_
  obtain ⟨-, -, htxe⟩ := blkTxUnitEnabled_some.mp he
  exact Bool.eq_false_iff.mp h htxe

theorem blkTxFinishEnabled_of_not_tc (h : (s.usart u).tc = false) : blkTxFinishEnabled s u = false :=
  Bool.eq_false_iff.mpr fun he => Bool.eq_false_iff.mp h (blkTxFinishEnabled_true.mp he).2

theorem blkRxUnitEnabled_of_not_rxne (h : (s.usart u).rxne = false) : blkRxUnitEnabled s u = none := by
  refine Option.eq_none_iff_forall_ne_some.mpr fun (c, r) he => ?_
  obtain ⟨-, -, hrxne⟩ := blkRxUnitEnabled_some.mp he
  exact Bool.eq_false_iff.mp h hrxne

/-- Settles O11: with its flag clear the poll is not enabled, and its phase of `app` offers no other step. -/
theorem polledHoldChangesNothing : Obligations.PolledHoldChangesNothing := by
  unfold Obligations.PolledHoldChangesNothing
  intro s u c r
  refine ⟨fun happ htxe => ?unit, fun happ htc => ?finish, fun happ hrxne => ?receive⟩
  case unit =>
    have hnone := blkTxUnitEnabled_of_not_txe htxe
    simp [exec, execBlkTxUnit, hold, appEnabled, appStep, happ, hnone]
  case finish =>
    have hdisabled := blkTxFinishEnabled_of_not_tc htc
    simp [exec, execBlkTxFinish, hold, appEnabled, appStep, happ, hdisabled]
  case receive =>
    have hnone := blkRxUnitEnabled_of_not_rxne hrxne
    simp [exec, execBlkRxUnit, hold, appEnabled, appStep, happ, hnone]

end Sys2Proof.Machine
end

section
/-! The interrupt-driven transfer machines: their two requests, one unit of a step-callback, and the bus faults of the
step-callbacks, alone and within ON_IRQ (O27 to O31). -/

namespace Sys2Proof.Machine

variable {s t : State} {u : InstIx} {buf len c r a : Word} {d : Frame} {raw : Half} {n : UnitSize} {i : Inst}
  {dir : Inst → DirState}

/-! ### A read-modify-write of CR1: what it changes and what it keeps (R216) -/

theorem rmwCr1_usart_same (s : State) (u : InstIx) (set clr : Word) : (rmwCr1 s u set clr).usart u =
    { s.usart u with
      cr1 := if s.params.atomicCr1Rmw = true then rmwValue (s.usart u).cr1 set clr else (s.usart u).cr1 } := by
  obtain ⟨hatomic, ht⟩ | ⟨hatomic, ht⟩ := rmwCr1_cases s u set clr
  · rw [ht, hatomic, State.usart_setUsart_same, if_pos rfl]
  · rw [ht, hatomic, State.usart_setApp, if_neg Bool.false_ne_true]

theorem rmwCr1_app (s : State) (u : InstIx) (set clr : Word) : (rmwCr1 s u set clr).app =
    if s.params.atomicCr1Rmw = true then s.app else .rmw u (s.usart u).cr1 set clr := by
  obtain ⟨hatomic, ht⟩ | ⟨hatomic, ht⟩ := rmwCr1_cases s u set clr
  · rw [ht, hatomic, State.setUsart_app, if_pos rfl]
  · rw [ht, hatomic, State.setApp_app, if_neg Bool.false_ne_true]

theorem rmwCr1_mem (s : State) (u : InstIx) (set clr : Word) : (rmwCr1 s u set clr).mem = s.mem := by
  obtain ⟨-, ht⟩ | ⟨-, ht⟩ := rmwCr1_cases s u set clr <;> rw [ht] <;> rfl

theorem rmwCr1_results (s : State) (u : InstIx) (set clr : Word) : (rmwCr1 s u set clr).results = s.results := by
  obtain ⟨-, ht⟩ | ⟨-, ht⟩ := rmwCr1_cases s u set clr <;> rw [ht] <;> rfl

theorem rmwCr1_draws (s : State) (u : InstIx) (set clr : Word) : (rmwCr1 s u set clr).draws = s.draws := by
  obtain ⟨-, ht⟩ | ⟨-, ht⟩ := rmwCr1_cases s u set clr <;> rw [ht] <;> rfl

theorem RestKept.rmwCr1 (h : RestKept u s t) (set clr : Word) : RestKept u s (rmwCr1 t u set clr) := by
  obtain ⟨-, ht⟩ | ⟨-, ht⟩ := rmwCr1_cases t u set clr <;> rw [ht]
  · exact h.setUsart _
  · exact h.setApp _

theorem rmwValue_set (latch set : Word) : rmwValue latch set 0#32 = latch ||| set := by
  rw [rmwValue, BitVec.not_zero, BitVec.and_allOnes]

/-- USART `u` replaced and then bits of its CR1 set: the bits are set at once, or the read half is latched. -/
theorem rmwCr1_setUsart_of_idle (happ : s.app = .idle) (u : InstIx) (i : Inst) (set : Word) :
    let t := rmwCr1 (s.setUsart u i) u set 0#32
    (RestKept u s t ∧ MemKept s t ∧ t.results = s.results ∧ t.draws = s.draws) ∧
      t.usart u = { i with cr1 := if s.params.atomicCr1Rmw = true then i.cr1 ||| set else i.cr1 } ∧
      t.app = if s.params.atomicCr1Rmw = true then .idle else .rmw u i.cr1 set 0#32 := by
  refine ⟨⟨(restKept_setUsart s u i).rmwCr1 _ _, byteAt_congr (rmwCr1_mem _ _ _ _), rmwCr1_results _ _ _ _,
    rmwCr1_draws _ _ _ _⟩, ?usart, ?app⟩
  case usart => rw [rmwCr1_usart_same, State.usart_setUsart_same, rmwValue_set, State.setUsart_params]
  case app => rw [rmwCr1_app, State.usart_setUsart_same, State.setUsart_app, State.setUsart_params, happ]

/-! ### The requests, in either direction (R170, R171, R173, R181) -/

/-- What a request answers on a direction in state `d`, in the order of its checks, if it leaves `t` when accepted. -/
def asyncAnswer (d : DirState) (buf len : Word) (s t : State) : Out :=
  if d.status = .busy then .next s
  else if len = 0#32 then .next (s.refuse .zeroLength)
  else if bufferWraps buf len then .next (s.refuse .bufferWrap)
  else .next t

theorem exec_txAsync_of_idle (h : s.app = .idle) : exec (.txAsync u buf len) s =
    asyncAnswer (s.usart u).tx buf len s (rmwCr1 (txAcceptedState s u buf len) u bitTXEIE 0#32) :=
  asHost_idle (.txAsync u buf len) s _ h

theorem exec_rxAsync_of_idle (h : s.app = .idle) : exec (.rxAsync u buf len) s =
    asyncAnswer (s.usart u).rx buf len s (rmwCr1 (rxAcceptedState s u buf len) u bitRXNEIE 0#32) :=
  asHost_idle (.rxAsync u buf len) s _ h

theorem asyncAnswer_of_busy {d : DirState} (h : d.status = .busy) : asyncAnswer d buf len s t = .next s := if_pos h

section
variable {d : DirState} (h : d.status = .free)
include h

theorem asyncAnswer_of_free : asyncAnswer d buf len s t =
    if len = 0#32 then .next (s.refuse .zeroLength)
    else if bufferWraps buf len then .next (s.refuse .bufferWrap)
    else .next t := by
  refine if_neg ?_
  rw [h]
  exact Status.noConfusion

theorem asyncAnswer_zeroLength (hl : len = 0#32) : asyncAnswer d buf len s t = .next (s.refuse .zeroLength) := by
  rw [asyncAnswer_of_free h, if_pos hl]

theorem asyncAnswer_bufferWrap (hl : len ≠ 0#32) (hgt : 2 ^ 32 < buf.toNat + len.toNat) :
    asyncAnswer d buf len s t = .next (s.refuse .bufferWrap) := by
  rw [asyncAnswer_of_free h, if_neg hl, if_pos (bufferWraps_of_gt hl hgt)]

theorem asyncAnswer_accepted (hl : len ≠ 0#32) (hle : buf.toNat + len.toNat ≤ 2 ^ 32) :
    asyncAnswer d buf len s t = .next t := by
  rw [asyncAnswer_of_free h, if_neg hl, bufferWraps_of_le hle, if_neg Bool.false_ne_true]

end

/-- Settles O27, by the read-modify-write that ends either request. -/
theorem asyncRequestAccepted : Obligations.AsyncRequestAccepted := by
  unfold Obligations.AsyncRequestAccepted
  intro s u buf len i kept happ hl hle
  refine ⟨fun hfree => ?transmit, fun hfree => ?receive⟩
  case transmit =>
    exact ⟨_, (exec_txAsync_of_idle happ).trans (asyncAnswer_accepted hfree hl hle),
      rmwCr1_setUsart_of_idle happ u { i with tx := DirState.accepted buf len } bitTXEIE⟩
  case receive =>
    exact ⟨_, (exec_rxAsync_of_idle happ).trans (asyncAnswer_accepted hfree hl hle),
      rmwCr1_setUsart_of_idle happ u { i with rx := DirState.accepted buf len } bitRXNEIE⟩

/-- Settles O28, by the checks of a request in their order. -/
theorem asyncRequestTurnedAway : Obligations.AsyncRequestTurnedAway := by
  unfold Obligations.AsyncRequestTurnedAway
  intro s u buf len happ
  rw [exec_txAsync_of_idle happ, exec_rxAsync_of_idle happ]
  exact ⟨asyncAnswer_of_busy, asyncAnswer_of_busy,
    fun hfree => ⟨asyncAnswer_zeroLength hfree, asyncAnswer_bufferWrap hfree⟩,
    fun hfree => ⟨asyncAnswer_zeroLength hfree, asyncAnswer_bufferWrap hfree⟩⟩

/-! ### One unit of a step-callback (R172, R174, R176) -/

/-- A unit is the last of its direction exactly when it takes all bytes to go. -/
theorem DirState.advance_finishes_iff (d : DirState) (c : Word) (n : UnitSize) :
    (d.advance c n).remaining = 0#32 ↔ d.remaining = n.word := sub_eq_zero

theorem DirState.moved_eq (d : DirState) (c : Word) (n : UnitSize) : d.moved c n =
    if d.remaining = n.word then DirState.freed
    else { d with cursor := some (c + n.word), remaining := d.remaining - n.word } := by
  rw [DirState.moved]
  simp only [DirState.advance_finishes_iff]
  rfl

theorem txMovedState_usart (s : State) (u : InstIx) (c : Word) (raw : Half) (n : UnitSize) :
    (txMovedState s u c raw n).usart u = { (s.usart u).writeDR ((s.usart u).sentFrame raw) with
      cr1 := if (s.usart u).tx.remaining = n.word then (s.usart u).cr1 &&& ~~~bitTXEIE else (s.usart u).cr1
      tx := if (s.usart u).tx.remaining = n.word then DirState.freed
        else { (s.usart u).tx with cursor := some (c + n.word), remaining := (s.usart u).tx.remaining - n.word } } := by
  rw [txMovedState, State.usart_setUsart_same, Inst.txMoved_eq, DirState.moved_eq]
  simp only [DirState.advance_finishes_iff]
  rfl

theorem rxMovedState_usart (s : State) (u : InstIx) (c : Word) (d : Frame) (n : UnitSize) :
    (rxMovedState s u c d n).usart u = { s.usart u with
      rxne := false
      cr1 := if (s.usart u).rx.remaining = n.word then (s.usart u).cr1 &&& ~~~bitRXNEIE else (s.usart u).cr1
      rx := if (s.usart u).rx.remaining = n.word then DirState.freed
        else { (s.usart u).rx with cursor := some (c + n.word), remaining := (s.usart u).rx.remaining - n.word } } := by
  rw [rxMovedState, State.usart_setUsart_same, Inst.rxMoved_eq, DirState.moved_eq]
  simp only [DirState.advance_finishes_iff]

theorem RestKept.txMovedState (h : RestKept u s t) (c : Word) (raw : Half) (n : UnitSize) :
    RestKept u s (txMovedState t u c raw n) := h.setUsart _

theorem RestKept.rxMovedState (h : RestKept u s t) (c : Word) (d : Frame) (n : UnitSize) :
    RestKept u s (rxMovedState t u c d n) := (h.rdrTaken.written _ _ _).setUsart _

theorem DirState.pending_of_cursor {d : DirState} (hcursor : d.cursor = some c) (hr : d.remaining ≠ 0#32) :
    d.pending = some (c, d.remaining) :=
  (pending_some_iff d c _).mpr ⟨hcursor, rfl, hr⟩

theorem txCallback_of_memRead (hc : (s.usart u).tx.callback = .installed)
    (hp : (s.usart u).tx.pending = some (c, r)) (hread : memRead s c ((s.usart u).nextSize r) = .ok raw) :
    txCallback s u = .ok () (txMovedState s u c raw ((s.usart u).nextSize r)) := by
  rw [txMovedState_eq]
  simp only [txCallback, hc, hp, fetchUnit_of_memRead hread]

/-- Settles O29: the unit is written to DR, and the direction moves on. -/
theorem txStepMovesUnit : Obligations.TxStepMovesUnit := by
  unfold Obligations.TxStepMovesUnit
  intro s u c raw i n hc hcursor hr hread
  have hmoved := txCallback_of_memRead hc (DirState.pending_of_cursor hcursor hr) hread
  exact ⟨_, congrArg finish hmoved, txMovedState_usart _ _ _ _ _, rfl, (RestKept.refl u s).txMovedState _ _ _,
    fun _ => rfl, rfl, rfl⟩

/-- Settles O30: the unit is stored after the read of RDR, which leaves buffer memory alone, and the direction moves
on. -/
theorem rxStepMovesUnit : Obligations.RxStepMovesUnit := by
  unfold Obligations.RxStepMovesUnit
  intro s u c d i n hc hcursor hr hd hpresent hw
  refine ⟨_, exec_rxStep_of_present hc (DirState.pending_of_cursor hcursor hr) hd hpresent,
    rxMovedState_usart _ _ _ _ _, written_byteAt_first (rdrTaken s u) _ _ _ hw, fun htwo => ?second,
    written_byteAt_other (rdrTaken s u) _ _ _ hw, written_app _ _ _ _, (RestKept.refl u s).rxMovedState _ _ _,
    written_results _ _ _ _, written_draws _ _ _ _⟩
  case second =>
    have hn : (s.usart u).nextSize (s.usart u).rx.remaining = .two := htwo
    rw [hn]
    exact written_byteAt_second (rdrTaken s u) _ _ hw

/-! ### A step-callback whose unit has a missing byte (R172, R174, R244) -/

/-- The callback of direction `dir` of USART `u` has a unit to move, and `a` is the first byte of it that does not
exist. -/
structure UnitMissing (dir : Inst → DirState) (s : State) (u : InstIx) (a : Word) : Prop where
  callback : (dir (s.usart u)).callback = .installed
  unit     : ∃ c r, (dir (s.usart u)).pending = some (c, r) ∧ firstMissing s c ((s.usart u).nextSize r) = some a

theorem UnitMissing.of_cursor (hc : (dir (s.usart u)).callback = .installed)
    (hcursor : (dir (s.usart u)).cursor = some c) (hr : (dir (s.usart u)).remaining ≠ 0#32)
    (hmissing : firstMissing s c ((s.usart u).nextSize (dir (s.usart u)).remaining) = some a) : UnitMissing dir s u a :=
  ⟨hc, c, _, DirState.pending_of_cursor hcursor hr, hmissing⟩

/-- It depends on the direction, the configuration record and the memory map alone. -/
theorem UnitMissing.congr (h : UnitMissing dir s u a) (hparams : t.params = s.params)
    (hcfg : (t.usart u).cfg = (s.usart u).cfg) (hdir : dir (t.usart u) = dir (s.usart u)) : UnitMissing dir t u a := by
  obtain ⟨hc, c, r, hp, hmissing⟩ := h
  refine ⟨hdir ▸ hc, c, r, hdir ▸ hp, ?_⟩
  rw [firstMissing_congr hparams, Inst.nextSize, Inst.format, hcfg]
  exact hmissing

theorem UnitMissing.afterReadSR_tx (h : UnitMissing Inst.tx s u a) : UnitMissing Inst.tx (afterReadSR s u) u a :=
  h.congr rfl (by rw [afterReadSR_usart_same]) (by rw [afterReadSR_usart_same])

theorem UnitMissing.afterReadSR_rx (h : UnitMissing Inst.rx s u a) : UnitMissing Inst.rx (afterReadSR s u) u a :=
  h.congr rfl (by rw [afterReadSR_usart_same]) (by rw [afterReadSR_usart_same])

/-- A transmit callback before it leaves the receive direction alone. -/
theorem UnitMissing.txMovedState_rx (h : UnitMissing Inst.rx s u a) (c : Word) (raw : Half) (n : UnitSize) :
    UnitMissing Inst.rx (txMovedState s u c raw n) u a :=
  h.congr rfl (by rw [txMovedState_usart, Inst.writeDR]) (by rw [txMovedState_usart, Inst.writeDR])

theorem txCallback_of_unitMissing (h : UnitMissing Inst.tx s u a) : txCallback s u = .raised (.busFault a) s := by
  obtain ⟨hc, c, r, hp, hmissing⟩ := h
  simp only [txCallback, hc, hp, fetchUnit_of_missing hmissing]

theorem rxCallback_of_unitMissing (h : UnitMissing Inst.rx s u a) (hd : (s.usart u).rdr = some d) :
    rxCallback s u = .raised (.busFault a) (rdrTaken s u) := by
  obtain ⟨hc, c, r, hp, hmissing⟩ := h
  have hread : readDR s u = .ok d (rdrTaken s u) := by simp only [readDR, hd, rdrTaken]
  have hmissing' : firstMissing (rdrTaken s u) c (((rdrTaken s u).usart u).nextSize r) = some a := by
    rw [nextSize_rdrTaken]
    exact (firstMissing_congr rfl c _).trans hmissing
  simp only [rxCallback, hc, hp, hread, storeUnit_of_missing d hmissing']

/-! ### The two phases of ON_IRQ (R191 to R193) -/

/-- A pending source holds the line high, so ON_IRQ makes its pass whether the IRQ agent takes it or the host. -/
theorem exec_onIrq_of_admitted (hadmitted : s.irqRouted u = true ∨ s.app = .idle) (hline : irqLine s u = true) :
    exec (.onIrq u) s = finish (serviceIrq s u) := by
  by_cases hrouted : s.irqRouted u = true
  · simp only [exec, execOnIrq, hrouted, hline, if_true]
  · have hidle := hadmitted.resolve_left hrouted
    simp only [exec, execOnIrq, hrouted, if_false, asHost_idle _ _ _ hidle, Bool.false_eq_true]

theorem irqLine_of_tx (htxe : (s.usart u).txe = true) (htxeie : (s.usart u).txeie = true) : irqLine s u = true := by
  rw [irqLine, Inst.irq, htxe, htxeie]; rfl

theorem irqLine_of_rx (hrxne : (s.usart u).rxne = true) (hrxneie : (s.usart u).rxneie = true) :
    irqLine s u = true := by
  rw [irqLine, Inst.irq, hrxne, hrxneie]
  exact Bool.or_true _

theorem irqTxPhase_of_pending (h : (s.usart u).txe = true ∧ (s.usart u).txeie = true) :
    irqTxPhase s u = txCallback (afterReadSR s u) u := by
  obtain ⟨-, -, hphase⟩ | ⟨hclear, -⟩ := irqTxPhase_cases s u
  · exact hphase
  · simp [h.1, h.2] at hclear

theorem irqTxPhase_of_not_pending (h : ¬((s.usart u).txe = true ∧ (s.usart u).txeie = true)) :
    irqTxPhase s u = .ok () (afterReadSR s u) := by
  obtain ⟨htxe, htxeie, -⟩ | ⟨-, hphase⟩ := irqTxPhase_cases s u
  · exact absurd ⟨htxe, htxeie⟩ h
  · exact hphase

theorem irqRxPhase_of_pending (h : (s.usart u).rxne = true ∧ (s.usart u).rxneie = true) :
    irqRxPhase s u = rxCallback (afterReadSR s u) u := by
  obtain ⟨-, -, hphase⟩ | ⟨hclear, -⟩ := irqRxPhase_cases s u
  · exact hphase
  · simp [h.1, h.2] at hclear

theorem serviceIrq_of_txPhase_raised {f : Fault} (h : irqTxPhase s u = .raised f t) :
    serviceIrq s u = .raised f t := by
  simp only [serviceIrq, h]

theorem serviceIrq_of_txPhase_ok (h : irqTxPhase s u = .ok () t) : serviceIrq s u = irqRxPhase t u := by
  simp only [serviceIrq, h]

/-- The receive phase faults after its reads of SR and RDR. -/
theorem irqRxPhase_of_unitMissing (h : UnitMissing Inst.rx s u a) (hd : (s.usart u).rdr = some d)
    (hpending : (s.usart u).rxne = true ∧ (s.usart u).rxneie = true) :
    irqRxPhase s u = .raised (.busFault a) (rdrTaken (afterReadSR s u) u) := by
  have hd' : ((afterReadSR s u).usart u).rdr = some d := by rw [afterReadSR_usart_same]; exact hd
  rw [irqRxPhase_of_pending hpending, rxCallback_of_unitMissing h.afterReadSR_rx hd']

/-- The last unit of a transmit clears TXEIE alone. -/
theorem txMovedState_rxneie (s : State) (u : InstIx) (c : Word) (raw : Half) (n : UnitSize) :
    ((txMovedState s u c raw n).usart u).rxneie = (s.usart u).rxneie := by
  rw [txMovedState_usart, Inst.rxneie, Inst.rxneie]
  split
  · simp [bitTXEIE]
  · rfl

/-! ### Bus faults of the callbacks, alone and within ON_IRQ (R193, R244, R246) -/

/-- A fault's mark aside, the state that raised it is kept. -/
theorem RestKept.raise_unmarked (h : RestKept u s t) (f : Fault) : RestKept u s { t.raise f with fault := s.fault } :=
  ⟨h.params, h.others, rfl, h.refused, h.schedule⟩

/-- A transmit unit with a missing byte ends ON_IRQ after its first read of SR. -/
theorem serviceIrq_of_tx_unitMissing (h : UnitMissing Inst.tx s u a)
    (hpending : (s.usart u).txe = true ∧ (s.usart u).txeie = true) :
    serviceIrq s u = .raised (.busFault a) (afterReadSR s u) :=
  serviceIrq_of_txPhase_raised
    ((irqTxPhase_of_pending hpending).trans (txCallback_of_unitMissing h.afterReadSR_tx))

/-- A receive unit with a missing byte, and no transmit source pending. -/
theorem serviceIrq_of_rx_unitMissing (h : UnitMissing Inst.rx s u a) (hd : (s.usart u).rdr = some d)
    (hrx : (s.usart u).rxne = true ∧ (s.usart u).rxneie = true)
    (htx : ¬((s.usart u).txe = true ∧ (s.usart u).txeie = true)) :
    serviceIrq s u = .raised (.busFault a) (rdrTaken (afterReadSR (afterReadSR s u) u) u) := by
  rw [serviceIrq_of_txPhase_ok (irqTxPhase_of_not_pending htx)]
  have hread := afterReadSR_usart_same s u
  exact irqRxPhase_of_unitMissing h.afterReadSR_rx (by rw [hread]; exact hd) (by rw [hread]; exact hrx)

/-- A transmit unit sent, and then a receive unit with a missing byte. -/
theorem serviceIrq_of_tx_sent_rx_unitMissing (h : UnitMissing Inst.rx s u a) (hd : (s.usart u).rdr = some d)
    (hrx : (s.usart u).rxne = true ∧ (s.usart u).rxneie = true)
    (htx : (s.usart u).txe = true ∧ (s.usart u).txeie = true) (hc : (s.usart u).tx.callback = .installed)
    (hp : (s.usart u).tx.pending = some (c, r)) (hread : memRead s c ((s.usart u).nextSize r) = .ok raw) :
    serviceIrq s u = .raised (.busFault a) (rdrTaken
      (afterReadSR (txMovedState (afterReadSR s u) u c raw ((s.usart u).nextSize r)) u) u) := by
  have hsr := afterReadSR_usart_same s u
  have hsent : irqTxPhase s u = .ok () (txMovedState (afterReadSR s u) u c raw ((s.usart u).nextSize r)) := by
    rw [irqTxPhase_of_pending htx, ← nextSize_afterReadSR]
    refine txCallback_of_memRead (by rw [hsr]; exact hc) (by rw [hsr]; exact hp) ?_
    rw [nextSize_afterReadSR]
    exact hread
  rw [serviceIrq_of_txPhase_ok hsent]
  refine irqRxPhase_of_unitMissing (h.afterReadSR_rx.txMovedState_rx _ _ _) (d := d) ?rdr ⟨?rxne, ?rxneie⟩
  case rdr => rw [txMovedState_usart, hsr]; exact hd
  case rxne => rw [txMovedState_usart, hsr]; exact hrx.1
  case rxneie => rw [txMovedState_rxneie, hsr]; exact hrx.2

/-- The USART that the two phases leave when the transmit phase sent a unit and the receive phase then faulted: the
write of DR cleared TC, so the second read of SR arms nothing. -/
theorem usart_of_tx_sent_rx_fault (htxe : (s.usart u).txe = true) (c : Word) (raw : Half) (n : UnitSize) :
    (rdrTaken (afterReadSR (txMovedState (afterReadSR s u) u c raw n) u) u).usart u = { s.usart u with
      rxne := false
      tdr := (s.usart u).sentFrame raw
      txe := false
      tc := false
      tcArmed := false
      cr1 := if (s.usart u).tx.remaining = n.word then (s.usart u).cr1 &&& ~~~bitTXEIE else (s.usart u).cr1
      tx := if (s.usart u).tx.remaining = n.word then DirState.freed
        else { (s.usart u).tx with cursor := some (c + n.word), remaining := (s.usart u).tx.remaining - n.word } } := by
  rw [usart_rdrTaken_afterReadSR, txMovedState_usart, sentFrame_afterReadSR, afterReadSR_usart_same,
    Inst.writeDR_after_readSR _ _ htxe]
  rfl

/-- Settles O31, by the place of each fault: the transmit callback raises it before it writes, the receive callback
after its read of RDR, and ON_IRQ after the reads of SR before that phase. -/
theorem callbackBusFaults : Obligations.CallbackBusFaults := by
  unfold Obligations.CallbackBusFaults
  intro s u a i n txPending rxPending admitted stopped
  refine ⟨fun c hc hcursor hr hmissing => ?transmit, fun e d hc hcursor hr hd hmissing => ?receive⟩
  case transmit =>
    have htx : UnitMissing Inst.tx s u a := .of_cursor hc hcursor hr hmissing
    refine ⟨congrArg finish (txCallback_of_unitMissing htx), fun hadmitted hpending => ?irq⟩
    rw [exec_onIrq_of_admitted hadmitted (irqLine_of_tx hpending.1 hpending.2),
      serviceIrq_of_tx_unitMissing htx hpending]
    exact ⟨_, rfl, ⟨rfl, (RestKept.refl u s).afterReadSR.raise_unmarked _, fun _ => rfl, rfl, rfl⟩,
      afterReadSR_usart_same s u⟩
  case receive =>
    have hrx : UnitMissing Inst.rx s u a := .of_cursor hc hcursor hr hmissing
    refine ⟨?step, fun hadmitted hpending hquiet => ?alone,
      fun c raw hadmitted hpending htx htxc htxcursor htxr hread => ?sent⟩
    case step =>
      exact ⟨_, congrArg finish (rxCallback_of_unitMissing hrx hd),
        ⟨rfl, (RestKept.refl u s).rdrTaken.raise_unmarked _, fun _ => rfl, rfl, rfl⟩, rdrTaken_usart_same s u⟩
    case alone =>
      rw [exec_onIrq_of_admitted hadmitted (irqLine_of_rx hpending.1 hpending.2),
        serviceIrq_of_rx_unitMissing hrx hd hpending hquiet]
      refine ⟨_, rfl, ⟨rfl, (RestKept.refl u s).afterReadSR.afterReadSR.rdrTaken.raise_unmarked _, fun _ => rfl, rfl,
        rfl⟩, ?usart⟩
      rw [State.usart_raise, rdrTaken_usart_same, afterReadSR_twice_usart, afterReadSR_usart_same]
    case sent =>
      rw [exec_onIrq_of_admitted hadmitted (irqLine_of_rx hpending.1 hpending.2),
        serviceIrq_of_tx_sent_rx_unitMissing hrx hd hpending htx htxc (DirState.pending_of_cursor htxcursor htxr) hread]
      exact ⟨_, rfl, ⟨rfl, ((RestKept.refl u s).afterReadSR.txMovedState _ _ _).afterReadSR.rdrTaken.raise_unmarked _,
        fun _ => rfl, rfl, rfl⟩, usart_of_tx_sent_rx_fault htx.1 _ _ _⟩

end Sys2Proof.Machine
end

section
/-! Who takes an ON_IRQ and when: the host while the line is not routed, the IRQ agent while it is routed and high (O8,
O35). -/

namespace Sys2Proof.Machine

variable {s : State} {ws : OpWords} {rest : List Turn} {u : InstIx} {w : Word}

/-! ### ON_IRQ by the routing and the line (R193, R194, R196) -/

/-- While the line is routed and low, the IRQ agent's step is not enabled and holds (R11, R194). -/
theorem exec_onIrq_of_low (hrouted : s.irqRouted u = true) (hline : irqLine s u = false) :
    exec (.onIrq u) s = .next s := by
  simp only [exec, execOnIrq, hrouted, hline, if_true, Bool.false_eq_true, if_false, hold]

/-- While the line is not routed, the host's ON_IRQ makes its pass whatever the line is. -/
theorem exec_onIrq_of_notRouted (hrouted : s.irqRouted u = false) (ha : s.app = .idle) :
    exec (.onIrq u) s = finish (serviceIrq s u) := by
  simp only [exec, execOnIrq, hrouted, Bool.false_eq_true, if_false, asHost_idle _ _ _ ha]

/-! ### The issuer checks on ON_IRQ (R95, R193, R196) -/

theorem issueVerdict_host_onIrq_of_routed (hrouted : s.irqRouted u = true) :
    issueVerdict s .host (.onIrq u) w = .reject (.hostIrqWhileRouted w) :=
  if_pos ⟨rfl, rfl, hrouted⟩

theorem issueVerdict_irq_onIrq_of_notRouted (hrouted : s.irqRouted u = false) :
    issueVerdict s .irq (.onIrq u) w = .wait := by
  simp [issueVerdict, mayIssue, Instr.inst, hrouted]

theorem step_host_onIrq_of_notRouted (h : Running s) (hq : s.schedule = .issue .host ws :: rest)
    (hd : decode s.params.nInst ws = .ok (.onIrq u)) (hrouted : s.irqRouted u = false) :
    step s = exec (.onIrq u) (s.setSchedule rest) := by
  refine step_of_decode_ok h hq hd rfl ?_
  rintro _ ⟨⟩
  simp [hrouted]

theorem step_irq_onIrq_of_routed (h : Running s) (hq : s.schedule = .issue .irq ws :: rest)
    (hd : decode s.params.nInst ws = .ok (.onIrq u)) (hrouted : s.irqRouted u = true) :
    step s = exec (.onIrq u) (s.setSchedule rest) := by
  refine step_of_decode_ok h hq hd rfl ?_
  rintro _ ⟨⟩
  simp [hrouted]

/-- Settles O8: the check of the routing comes before the operation runs. -/
theorem hostIrqOnlyWhileNotRouted : Obligations.HostIrqOnlyWhileNotRouted := by
  unfold Obligations.HostIrqOnlyWhileNotRouted
  refine fun s ws rest u h hq hd => ⟨fun hrouted => ?routed, fun hrouted ha => ?notRouted⟩
  case routed =>
    rw [step_issue h hq hd, issueVerdict_host_onIrq_of_routed (s := s.setSchedule rest) hrouted]
  case notRouted =>
    rw [step_host_onIrq_of_notRouted h hq hd hrouted, exec_onIrq_of_notRouted (s := s.setSchedule rest) hrouted ha]

/-- Settles O35: a routed line runs the handler or holds by its level, and an unrouted one lets the agent wait. -/
theorem irqDelivery : Obligations.IrqDelivery := by
  unfold Obligations.IrqDelivery
  refine fun s ws rest u h hq hd => ⟨fun hrouted hline => ?high, fun hdisabled => ?disabled⟩
  case high =>
    rw [step_irq_onIrq_of_routed h hq hd hrouted]
    exact exec_onIrq_of_admitted (s := s.setSchedule rest) (.inl hrouted) hline
  case disabled =>
    cases hrouted : s.irqRouted u with
    | false =>
      rw [step_issue h hq hd, issueVerdict_irq_onIrq_of_notRouted (s := s.setSchedule rest) hrouted]
      rfl
    | true =>
      have hline : irqLine s u = false := hdisabled.resolve_left (by simp [hrouted])
      rw [step_irq_onIrq_of_routed h hq hd hrouted, exec_onIrq_of_low (s := s.setSchedule rest) hrouted hline]

end Sys2Proof.Machine
end

section
/-! What one pass of the handler does, by the sources that are pending and the callbacks they find (O36 to O39). -/

namespace Sys2Proof.Machine

variable {s s1 : State} {u : InstIx} {c r : Word} {raw : Half} {n : UnitSize}

/-! ### The two phases by what is pending (R191 to R193) -/

theorem irqRxPhase_of_not_pending (h : ¬((s.usart u).rxne = true ∧ (s.usart u).rxneie = true)) :
    irqRxPhase s u = .ok () (afterReadSR s u) := by
  obtain ⟨hrxne, hrxneie, -⟩ | ⟨-, hphase⟩ := irqRxPhase_cases s u
  · exact absurd ⟨hrxne, hrxneie⟩ h
  · exact hphase

theorem irqTxPhase_of_null (hpending : (s.usart u).txe = true ∧ (s.usart u).txeie = true)
    (hc : (s.usart u).tx.callback = .null) : irqTxPhase s u = .raised (.nullCallback u .tx) (afterReadSR s u) := by
  have hc' : ((afterReadSR s u).usart u).tx.callback = .null := by rw [afterReadSR_usart_same]; exact hc
  simp only [irqTxPhase_of_pending hpending, txCallback, hc']

theorem irqRxPhase_of_null (hpending : (s.usart u).rxne = true ∧ (s.usart u).rxneie = true)
    (hc : (s.usart u).rx.callback = .null) : irqRxPhase s u = .raised (.nullCallback u .rx) (afterReadSR s u) := by
  have hc' : ((afterReadSR s u).usart u).rx.callback = .null := by rw [afterReadSR_usart_same]; exact hc
  simp only [irqRxPhase_of_pending hpending, rxCallback, hc']

/-- The state after a transmit phase that sent the unit `raw` of size `n` from `c`. -/
def irqSent (s : State) (u : InstIx) (c : Word) (raw : Half) (n : UnitSize) : State :=
  txMovedState (afterReadSR s u) u c raw n

theorem irqTxPhase_of_memRead (hpending : (s.usart u).txe = true ∧ (s.usart u).txeie = true)
    (hc : (s.usart u).tx.callback = .installed) (hcursor : (s.usart u).tx.cursor = some c)
    (hr : (s.usart u).tx.remaining ≠ 0#32)
    (hread : memRead s c ((s.usart u).nextSize (s.usart u).tx.remaining) = .ok raw) :
    irqTxPhase s u = .ok () (irqSent s u c raw ((s.usart u).nextSize (s.usart u).tx.remaining)) := by
  have hsr := afterReadSR_usart_same s u
  have hp := DirState.pending_of_cursor hcursor hr
  rw [irqTxPhase_of_pending hpending, irqSent, ← nextSize_afterReadSR]
  refine txCallback_of_memRead (by rw [hsr]; exact hc) (by rw [hsr]; exact hp) ?_
  rw [nextSize_afterReadSR]
  exact hread

/-- A receive source pending after the transmit phase: the rest of the pass is the receive callback. -/
theorem finish_serviceIrq_of_rx_pending (htx : irqTxPhase s u = .ok () s1)
    (hrx : (s1.usart u).rxne = true ∧ (s1.usart u).rxneie = true) :
    finish (serviceIrq s u) = exec (.rxStep u) (afterReadSR s1 u) := by
  rw [serviceIrq_of_txPhase_ok htx, irqRxPhase_of_pending hrx]
  rfl

/-! ### The state after a transmit phase that sent a unit (R191) -/

theorem irqSent_rxneie (s : State) (u : InstIx) (c : Word) (raw : Half) (n : UnitSize) :
    ((irqSent s u c raw n).usart u).rxneie = (s.usart u).rxneie := by
  rw [irqSent, txMovedState_rxneie, afterReadSR_usart_same]; rfl

theorem irqSent_rx (s : State) (u : InstIx) (c : Word) (raw : Half) (n : UnitSize) :
    ((irqSent s u c raw n).usart u).rx = (s.usart u).rx := by
  rw [irqSent, txMovedState_usart, afterReadSR_usart_same]; rfl

theorem RestKept.irqSent (s : State) (u : InstIx) (c : Word) (raw : Half) (n : UnitSize) :
    RestKept u s (irqSent s u c raw n) := (RestKept.refl u s).afterReadSR.txMovedState _ _ _

/-- The USART after the read of SR of the receive phase, when the transmit phase sent a unit: the write of DR cleared
TC, so the second read arms nothing. -/
theorem usart_afterReadSR_irqSent (htxe : (s.usart u).txe = true) (c : Word) (raw : Half) (n : UnitSize) :
    (afterReadSR (irqSent s u c raw n) u).usart u = { s.usart u with
      tdr := (s.usart u).sentFrame raw
      txe := false
      tc := false
      tcArmed := false
      cr1 := if (s.usart u).tx.remaining = n.word then (s.usart u).cr1 &&& ~~~bitTXEIE else (s.usart u).cr1
      tx := if (s.usart u).tx.remaining = n.word then DirState.freed
        else { (s.usart u).tx with cursor := some (c + n.word), remaining := (s.usart u).tx.remaining - n.word } } := by
  rw [afterReadSR_usart_same, irqSent, txMovedState_usart, sentFrame_afterReadSR, afterReadSR_usart_same,
    Inst.writeDR_after_readSR _ _ htxe]
  rfl

/-- Whether a receive source is pending is the same before and after it. -/
theorem irqSent_rxPending_iff (s : State) (u : InstIx) (c : Word) (raw : Half) (n : UnitSize) :
    (((irqSent s u c raw n).usart u).rxne = true ∧ ((irqSent s u c raw n).usart u).rxneie = true) ↔
      (s.usart u).rxne = true ∧ (s.usart u).rxneie = true := by
  rw [irqSent_rxneie, irqSent, txMovedState_usart, afterReadSR_usart_same]
  rfl

/-! ### Both sources, one, and none (R193, R198) -/

theorem not_and_eq_true_of_false {x y : Bool} (h : x = false ∨ y = false) : ¬(x = true ∧ y = true) := by
  obtain h | h := h <;> simp [h]

/-- Bits cleared if `p` holds, as one mask. -/
theorem and_ite_not (p : Prop) [Decidable p] (x m : Word) :
    x &&& (if p then ~~~m else ~~~0#32) = if p then x &&& ~~~m else x := by
  split
  · rfl
  · rw [BitVec.not_zero, BitVec.and_allOnes]

/-- Settles O36: the transmit phase sends its unit before the receive callback, which reads the state it left, stores
its own. -/
theorem onIrqServicesBoth : Obligations.OnIrqServicesBoth := by
  unfold Obligations.OnIrqServicesBoth
  intro s u c e raw d i n m hadmitted htxe htxeie hrxne hrxneie htc htcursor htr hread hrc hrcursor hrr hd hpresent hw
  have hsent := irqTxPhase_of_memRead ⟨htxe, htxeie⟩ htc htcursor htr hread
  have hi := usart_afterReadSR_irqSent htxe c raw n
  rw [exec_onIrq_of_admitted hadmitted (irqLine_of_tx htxe htxeie),
    finish_serviceIrq_of_rx_pending hsent ((irqSent_rxPending_iff s u c raw n).mpr ⟨hrxne, hrxneie⟩)]
  obtain ⟨t, ht, husart, hfirst, hsecond, hmem, happ, hrest, hresults, hdraws⟩ :=
    rxStepMovesUnit (afterReadSR (irqSent s u c raw n) u) u e d (by rw [hi]; exact hrc) (by rw [hi]; exact hrcursor)
      (by rw [hi]; exact hrr) (by rw [hi]; exact hd) (by rw [hi]; exact hpresent) hw
  rw [hi] at husart hfirst hsecond hmem
  refine ⟨t, ht, ?_, hfirst, hsecond, hmem, happ, (RestKept.irqSent s u c raw n).afterReadSR.trans hrest, hresults,
    hdraws⟩
  rw [husart, and_ite_not]
  rfl

/-- Settles O37: the phase whose source is not pending only reads SR. -/
theorem onIrqServicesOne : Obligations.OnIrqServicesOne := by
  unfold Obligations.OnIrqServicesOne
  intro s u c i hadmitted
  refine ⟨?transmit, ?receive⟩
  case transmit =>
    intro raw n htxe htxeie hquiet hc hcursor hr hread
    have hsent := irqTxPhase_of_memRead ⟨htxe, htxeie⟩ hc hcursor hr hread
    have hi := usart_afterReadSR_irqSent htxe c raw n
    have hrx := mt (irqSent_rxPending_iff s u c raw n).mp (not_and_eq_true_of_false hquiet)
    rw [exec_onIrq_of_admitted hadmitted (irqLine_of_tx htxe htxeie), serviceIrq_of_txPhase_ok hsent,
      irqRxPhase_of_not_pending hrx]
    exact ⟨_, rfl, hi, rfl, (RestKept.irqSent s u c raw n).afterReadSR, fun _ => rfl, rfl, rfl⟩
  case receive =>
    intro d m hrxne hrxneie hquiet hc hcursor hr hd hpresent hw
    have hi : (afterReadSR (afterReadSR s u) u).usart u = { s.usart u with tcArmed := i.tcArmed || i.tc } := by
      rw [afterReadSR_twice_usart, afterReadSR_usart_same]
    have hrx : ((afterReadSR s u).usart u).rxne = true ∧ ((afterReadSR s u).usart u).rxneie = true := by
      rw [afterReadSR_usart_same]
      exact ⟨hrxne, hrxneie⟩
    rw [exec_onIrq_of_admitted hadmitted (irqLine_of_rx hrxne hrxneie),
      finish_serviceIrq_of_rx_pending (irqTxPhase_of_not_pending (not_and_eq_true_of_false hquiet)) hrx]
    obtain ⟨t, ht, husart, hfirst, hsecond, hmem, happ, hrest, hresults, hdraws⟩ :=
      rxStepMovesUnit (afterReadSR (afterReadSR s u) u) u c d (by rw [hi]; exact hc) (by rw [hi]; exact hcursor)
        (by rw [hi]; exact hr) (by rw [hi]; exact hd) (by rw [hi]; exact hpresent) hw
    rw [hi] at husart hfirst hsecond hmem
    exact ⟨t, ht, husart, hfirst, hsecond, hmem, happ, (RestKept.refl u s).afterReadSR.afterReadSR.trans hrest,
      hresults, hdraws⟩

/-- Settles O38: the host's pass makes its two reads of SR and runs no callback. -/
theorem onIrqNothingPending : Obligations.OnIrqNothingPending := by
  unfold Obligations.OnIrqNothingPending
  intro s u ha hrouted hline
  have htx : ¬((s.usart u).txe = true ∧ (s.usart u).txeie = true) := fun h =>
    absurd (irqLine_of_tx h.1 h.2) (by simp [hline])
  have hrx : ¬(((afterReadSR s u).usart u).rxne = true ∧ ((afterReadSR s u).usart u).rxneie = true) := by
    rw [afterReadSR_usart_same]
    exact fun h => absurd (irqLine_of_rx h.1 h.2) (by simp [hline])
  rw [exec_onIrq_of_notRouted hrouted ha, serviceIrq_of_txPhase_ok (irqTxPhase_of_not_pending htx),
    irqRxPhase_of_not_pending hrx]
  exact ⟨_, rfl, (afterReadSR_twice_usart s u).trans (afterReadSR_usart_same s u), ha,
    (RestKept.refl u s).afterReadSR.afterReadSR, fun _ => rfl, rfl, rfl⟩

/-! ### A pending source with no callback (R197, R245, R246) -/

/-- Settles O39, by the phase that finds no callback: it faults after its own read of SR, on top of what the phase
before it did. -/
theorem nullCallbackFaults : Obligations.NullCallbackFaults := by
  unfold Obligations.NullCallbackFaults
  intro s u i txPending rxPending stopped hadmitted
  refine ⟨fun htx hc => ?transmit, fun hrx hc hquiet => ?alone, ?sent⟩
  case transmit =>
    rw [exec_onIrq_of_admitted hadmitted (irqLine_of_tx htx.1 htx.2),
      serviceIrq_of_txPhase_raised (irqTxPhase_of_null htx hc)]
    exact ⟨_, rfl, ⟨rfl, (RestKept.refl u s).afterReadSR.raise_unmarked _, fun _ => rfl, rfl, rfl⟩,
      afterReadSR_usart_same s u⟩
  case alone =>
    have hread := afterReadSR_usart_same s u
    rw [exec_onIrq_of_admitted hadmitted (irqLine_of_rx hrx.1 hrx.2),
      serviceIrq_of_txPhase_ok (irqTxPhase_of_not_pending hquiet),
      irqRxPhase_of_null (by rw [hread]; exact hrx) (by rw [hread]; exact hc)]
    exact ⟨_, rfl, ⟨rfl, (RestKept.refl u s).afterReadSR.afterReadSR.raise_unmarked _, fun _ => rfl, rfl, rfl⟩,
      (afterReadSR_twice_usart s u).trans hread⟩
  case sent =>
    intro c raw n hrx hc htx htxc hcursor hr hread
    have hsent := irqTxPhase_of_memRead htx htxc hcursor hr hread
    have hrx' := (irqSent_rxPending_iff s u c raw n).mpr hrx
    have hc' : ((irqSent s u c raw n).usart u).rx.callback = .null := by
      rw [irqSent_rx]; exact hc
    rw [exec_onIrq_of_admitted hadmitted (irqLine_of_rx hrx.1 hrx.2), serviceIrq_of_txPhase_ok hsent,
      irqRxPhase_of_null hrx' hc']
    exact ⟨_, rfl, ⟨rfl, (RestKept.irqSent s u c raw n).afterReadSR.raise_unmarked _, fun _ => rfl, rfl, rfl⟩,
      usart_afterReadSR_irqSent htx.1 c raw n⟩

end Sys2Proof.Machine
end

section
/-! After an ON_IRQ that sets no mark no source is pending (O40). -/

namespace Sys2Proof.Machine

variable {s t : State} {u : InstIx}

/-- A transmit phase that does not fault leaves no transmit source pending, and the receive direction as it was: a
well-formed direction with a callback has a unit to send, and sending it clears TXE. -/
theorem irqTxPhase_ok_of_wf (hwf : (s.usart u).tx.wf = true) (h : irqTxPhase s u = .ok () t) :
    ((t.usart u).txe && (t.usart u).txeie) = false ∧ (t.usart u).rx = (s.usart u).rx := by
  have hread := afterReadSR_usart_same s u
  obtain ⟨-, -, hphase⟩ | ⟨hclear, hphase⟩ := irqTxPhase_cases s u
  · rw [hphase] at h
    obtain ⟨-, he⟩ | ⟨hc, hp, -⟩ | ⟨_, _, _, -, -, -, he⟩ | ⟨c, r, raw, -, -, -, -, he⟩ :=
      txCallback_cases (afterReadSR s u) u
    · cases he.symm.trans h
    · rw [hread] at hc hp
      obtain ⟨c, -, -, hp'⟩ := DirState.pending_of_installed hwf hc
      cases hp.symm.trans hp'
    · cases he.symm.trans h
    · cases he.symm.trans h
      rw [txMovedState_usart, hread]
      exact ⟨rfl, rfl⟩
  · cases hphase.symm.trans h
    rw [hread]
    exact ⟨Bool.and_eq_false_iff.mpr hclear, rfl⟩

/-- The last unit of a receive clears RXNEIE alone. -/
theorem rxMovedState_txeie (s : State) (u : InstIx) (c : Word) (d : Frame) (n : UnitSize) :
    ((rxMovedState s u c d n).usart u).txeie = (s.usart u).txeie := by
  rw [rxMovedState_usart, Inst.txeie, Inst.txeie]
  split
  · simp [bitRXNEIE]
  · rfl

/-- A receive phase that does not fault leaves no receive source pending, and the transmit source as it was. -/
theorem irqRxPhase_ok_of_wf (hwf : (s.usart u).rx.wf = true) (h : irqRxPhase s u = .ok () t) :
    ((t.usart u).rxne && (t.usart u).rxneie) = false ∧
      ((t.usart u).txe && (t.usart u).txeie) = ((s.usart u).txe && (s.usart u).txeie) := by
  have hread := afterReadSR_usart_same s u
  obtain ⟨-, -, hphase⟩ | ⟨hclear, hphase⟩ := irqRxPhase_cases s u
  · rw [hphase] at h
    obtain ⟨-, he⟩ | ⟨hc, hp, -⟩ | ⟨_, _, -, -, -, he⟩ | ⟨_, _, _, _, -, -, -, -, he⟩ | ⟨c, r, d, -, -, -, -, he⟩ :=
      rxCallback_cases (afterReadSR s u) u
    · cases he.symm.trans h
    · rw [hread] at hc hp
      obtain ⟨c, -, -, hp'⟩ := DirState.pending_of_installed hwf hc
      cases hp.symm.trans hp'
    · cases he.symm.trans h
    · cases he.symm.trans h
    · cases he.symm.trans h
      rw [rxMovedState_txeie, rxMovedState_usart, hread]
      exact ⟨rfl, rfl⟩
  · cases hphase.symm.trans h
    rw [hread]
    exact ⟨Bool.and_eq_false_iff.mpr hclear, rfl⟩

/-- Settles O40: a pass that faults in neither phase leaves neither source pending. -/
theorem servicedLineIsLow : Obligations.ServicedLineIsLow := by
  unfold Obligations.ServicedLineIsLow
  intro s t u hinv h hrunning
  obtain ⟨-, rfl⟩ | ⟨-, hline, rfl⟩ | ⟨-, hpass⟩ := execOnIrq_cases h
  · cases hrunning.2
  · exact hline
  · obtain ⟨t', hok, he⟩ | ⟨f, t', -, he⟩ := finish_cases (serviceIrq s u)
    · cases he.symm.trans hpass
      obtain ⟨f, s1, -, he⟩ | ⟨s1, htx, he⟩ := serviceIrq_cases s u
      · cases he.symm.trans hok
      · obtain ⟨htxLow, hrx⟩ := irqTxPhase_ok_of_wf (Inst.tx_wf (hinv.usart u)) htx
        obtain ⟨hrxLow, htxKept⟩ := irqRxPhase_ok_of_wf (hrx ▸ Inst.rx_wf (hinv.usart u)) (he.symm.trans hok)
        rw [irqLine, Inst.irq, hrxLow, htxKept, htxLow]
        rfl
    · cases he.symm.trans hpass
      cases hrunning.1

end Sys2Proof.Machine
end

section
/-! An operation changes no USART but the one it names (O55). -/

namespace Sys2Proof.Machine

variable {s t t' : State} {u : InstIx}

/-- Every USART but `u` is the same in both states. -/
def OthersKept (u : InstIx) (s t : State) : Prop := ∀ v, v ≠ u → t.usart v = s.usart v

theorem OthersKept.refl (u : InstIx) (s : State) : OthersKept u s s := fun _ _ => rfl

theorem OthersKept.trans (h : OthersKept u s t) (h' : OthersKept u t t') : OthersKept u s t' := fun v hv =>
  (h' v hv).trans (h v hv)

/-! ### Every operation, by what it can do -/

theorem execTxStep_others (hx : execTxStep u s = .next t) : OthersKept u s t := by
  have h := RestKept.refl u s
  obtain rfl | ⟨f, rfl⟩ | ⟨c, r, raw, -, -, rfl⟩ := execTxStep_cases hx
  · exact h.others
  · exact h.others
  · exact (h.txMovedState _ _ _).others

theorem execRxStep_others (hx : execRxStep u s = .next t) : OthersKept u s t := by
  have h := RestKept.refl u s
  obtain rfl | ⟨f, rfl⟩ | ⟨f, rfl⟩ | ⟨c, r, d, -, -, -, rfl⟩ := execRxStep_cases hx
  · exact h.others
  · exact h.others
  · exact h.rdrTaken.others
  · exact (h.rxMovedState _ _ _).others

theorem execOnIrq_others (hx : execOnIrq u s = .next t) : OthersKept u s t :=
  execOnIrq_keeps (P := OthersKept u s) (fun t h => h.trans (RestKept.refl u t).afterReadSR.others)
    (fun _ _ h => h) (fun _ _ h => h) (fun _ _ h hstep => h.trans (execTxStep_others hstep))
    (fun _ _ h hstep => h.trans (execRxStep_others hstep)) (OthersKept.refl u s) hx

/-- A mark or a result is no part of a USART, so the state it was added to decides. -/
theorem exec_others {i : Instr} (hx : exec i s = .next t) : OthersKept i.inst s t := by
  have h := RestKept.refl i.inst s
  cases i with
  | init u =>
    obtain ⟨-, rfl⟩ | ⟨-, rfl⟩ := execInit_cases hx
    · exact h.others
    · exact (h.setUsart _).others
  | txBlock u buf len =>
    obtain ⟨-, rfl⟩ | ⟨-, ⟨-, rfl⟩ | ⟨-, -, rfl⟩ | ⟨-, -, rfl⟩⟩ := execTxBlock_cases hx <;> exact h.others
  | rxBlock u buf len =>
    obtain ⟨-, rfl⟩ | ⟨-, ⟨-, rfl⟩ | ⟨-, -, rfl⟩ | ⟨-, -, rfl⟩⟩ := execRxBlock_cases hx <;> exact h.others
  | txAsync u buf len =>
    obtain ⟨-, rfl⟩ | ⟨-, ⟨-, rfl⟩ | ⟨-, -, rfl⟩ | ⟨-, -, -, rfl⟩ | ⟨-, -, -, rfl⟩⟩ := execTxAsync_cases hx
    · exact h.others
    · exact h.others
    · exact h.others
    · exact h.others
    · exact ((h.setUsart _).rmwCr1 _ _).others
  | rxAsync u buf len =>
    obtain ⟨-, rfl⟩ | ⟨-, ⟨-, rfl⟩ | ⟨-, -, rfl⟩ | ⟨-, -, -, rfl⟩ | ⟨-, -, -, rfl⟩⟩ := execRxAsync_cases hx
    · exact h.others
    · exact h.others
    · exact h.others
    · exact h.others
    · exact ((h.setUsart _).rmwCr1 _ _).others
  | setEnabled u en =>
    obtain ⟨-, rfl⟩ | ⟨-, ⟨-, rfl⟩ | ⟨-, rfl⟩⟩ := execSetEnabled_cases hx
    · exact h.others
    · exact (h.rmwCr1 _ _).others
    · exact (h.rmwCr1 _ _).others
  | readFlag u f =>
    obtain ⟨-, rfl⟩ | ⟨-, rfl⟩ := execReadFlag_cases hx
    · exact h.others
    · exact h.afterReadSR.others
  | onIrq u => exact execOnIrq_others hx
  | regRead u r =>
    obtain ⟨-, rfl⟩ | ⟨-, ⟨-, rfl⟩ | ⟨-, -, rfl⟩ | ⟨-, d, -, rfl⟩ | ⟨-, -, v, rfl⟩⟩ := execRegRead_cases hx
    · exact h.others
    · exact h.afterReadSR.others
    · exact h.others
    · exact h.rdrTaken.others
    · exact h.others
  | regWrite u r x =>
    obtain ⟨-, rfl⟩ | ⟨-, ⟨q, rfl⟩ | ⟨-, rfl⟩ | ⟨-, rfl⟩ | ⟨-, -, rfl⟩ | ⟨-, -, rfl⟩ | ⟨-, -, rfl⟩⟩ :=
      execRegWrite_cases hx
    · exact h.others
    · exact h.others
    all_goals exact (h.setUsart _).others
  | txStep u => exact execTxStep_others hx
  | rxStep u => exact execRxStep_others hx
  | rmwCommit u =>
    obtain rfl | ⟨l, x, c, -, rfl⟩ := execRmwCommit_cases hx
    · exact h.others
    · exact (h.setUsart _).others
  | blkTxUnit u =>
    obtain rfl | ⟨c, r, -, -, -, ⟨f, rfl⟩ | ⟨v, n, -, rfl⟩⟩ := execBlkTxUnit_cases hx
    · exact h.others
    · exact h.afterReadSR.others
    · exact (h.afterReadSR.writeDR v).others
  | blkTxFinish u =>
    obtain rfl | ⟨-, -, rfl⟩ := execBlkTxFinish_cases hx
    · exact h.others
    · exact h.afterReadSR.others
  | blkRxUnit u =>
    obtain rfl | ⟨c, r, -, -, -, ⟨f, rfl⟩ | ⟨f, rfl⟩ | ⟨v, n, -, rfl⟩⟩ := execBlkRxUnit_cases hx
    · exact h.others
    · exact h.afterReadSR.others
    · exact h.afterReadSR.rdrTaken.others
    · exact (h.afterReadSR.rdrTaken.written c n v).others
  | evTxLoad u =>
    obtain rfl | ⟨-, rfl⟩ := execEvTxLoad_cases hx
    · exact h.others
    · exact (h.setUsart _).others
  | evTxDone u =>
    obtain rfl | ⟨v, -, ⟨-, -, rfl⟩ | rfl⟩ := execEvTxDone_cases hx
    · exact h.others
    · exact (h.setUsart _).others
    · exact (h.setUsart _).others
  | evRxFrame u v =>
    obtain rfl | ⟨-, rfl⟩ := execEvRxFrame_cases hx
    · exact h.others
    · exact (h.setUsart _).others

/-- Settles O55, by what each operation can do. -/
theorem oneUsartPerOperation : Obligations.OneUsartPerOperation := by
  unfold Obligations.OneUsartPerOperation
  exact fun i s t v hx hv => exec_others hx v hv

end Sys2Proof.Machine
end

section
/-! The read-modify-write of CR1 by SET_ENABLED and its commit (O41, O42, O43). -/

namespace Sys2Proof.Machine

variable {s : State} {u : InstIx} {latch set clr : Word}

/-! ### The word that is written back (R216) -/

/-- SET_ENABLED sets UE or clears it, and no other bit of the latched word (R205). -/
theorem rmwValue_ue (latch : Word) (en : Bool) : rmwValue latch (maskIf en bitUE) (maskIf (!en) bitUE) =
    if en = true then latch ||| bitUE else latch &&& ~~~bitUE := by
  cases en with
  | true => exact rmwValue_set latch bitUE
  | false => exact congrArg (· &&& ~~~bitUE) BitVec.or_zero

theorem rmwValue_ue_getLsbD (latch : Word) (en : Bool) :
    (rmwValue latch (maskIf en bitUE) (maskIf (!en) bitUE)).getLsbD 13 = en := by
  rw [rmwValue_ue]
  cases en <;> simp [bitUE]

theorem rmwValue_getLsbD (latch set clr : Word) (b : Nat) :
    (rmwValue latch set clr).getLsbD b = ((latch.getLsbD b || set.getLsbD b) && !clr.getLsbD b) := by
  by_cases hb : b < 32
  · simp [rmwValue, hb]
  · simp [BitVec.getLsbD_of_ge _ b (Nat.le_of_not_lt hb)]

/-- The same bits set and cleared again change nothing more. -/
theorem rmwValue_rmwValue (latch set clr : Word) :
    rmwValue (rmwValue latch set clr) set clr = rmwValue latch set clr := by
  refine BitVec.eq_of_getLsbD_eq fun b _ => ?_
  simp only [rmwValue_getLsbD]
  cases set.getLsbD b <;> cases clr.getLsbD b <;> simp

/-! ### SET_ENABLED and RMW_COMMIT (R205, R216) -/

theorem exec_setEnabled_of_idle (h : s.app = .idle) (en : Bool) : exec (.setEnabled u en) s =
    .next (rmwCr1 s u (maskIf en bitUE) (maskIf (!en) bitUE)) := by
  cases en <;> exact asHost_idle (.setEnabled u _) s _ h

theorem exec_rmwCommit_of_rmw (h : s.app = .rmw u latch set clr) : exec (.rmwCommit u) s =
    .next ((s.setUsart u { s.usart u with cr1 := rmwValue latch set clr }).setApp .idle) := by
  simp only [exec, execRmwCommit, h, if_true]

/-- Settles O41: SET_ENABLED is a read-modify-write of CR1 with the bit UE. -/
theorem setEnabledTogglesUe : Obligations.SetEnabledTogglesUe := by
  unfold Obligations.SetEnabledTogglesUe
  intro s u en happ
  refine ⟨_, exec_setEnabled_of_idle happ en, ?usart, ?app, (RestKept.refl u s).rmwCr1 _ _,
    byteAt_congr (rmwCr1_mem _ _ _ _), rmwCr1_results _ _ _ _, rmwCr1_draws _ _ _ _⟩
  case usart =>
    rw [rmwCr1_usart_same, rmwValue_ue]
    rfl
  case app =>
    rw [rmwCr1_app, happ]
    cases en <;> rfl

/-- Settles O42: the word written back is made from the latched word alone. -/
theorem rmwCommitWritesLatch : Obligations.RmwCommitWritesLatch := by
  unfold Obligations.RmwCommitWritesLatch
  intro s u latch set clr happ
  exact ⟨_, exec_rmwCommit_of_rmw happ, State.usart_setUsart_same s u _, rfl, (restKept_setUsart s u _).setApp _,
    fun _ => rfl, rfl, rfl⟩

/-- SET_ENABLED with its commit is one write of CR1, whether it is atomic or made in two halves. -/
theorem setEnabledWhole_of_idle (h : s.app = .idle) (en : Bool) : setEnabledWhole u en s =
    .next (s.setUsart u
      { s.usart u with cr1 := rmwValue (s.usart u).cr1 (maskIf en bitUE) (maskIf (!en) bitUE) }) := by
  rw [setEnabledWhole, exec_setEnabled_of_idle h]
  obtain ⟨hatomic, ht⟩ | ⟨hatomic, ht⟩ := rmwCr1_cases s u (maskIf en bitUE) (maskIf (!en) bitUE)
  · simp only [ht, State.setUsart_params, hatomic, if_true]
  · have hback : s.setApp .idle = s := h ▸ rfl
    simp only [ht, State.setApp_params, hatomic, Bool.false_eq_true, if_false]
    rw [exec_rmwCommit_of_rmw (State.setApp_app _ _)]
    exact congrArg (fun s' : State => Host.Outcome.next (s'.setUsart u _)) hback

/-- Settles O43: the second write of CR1 writes the word that the first one left. -/
theorem setEnabledIdempotent : Obligations.SetEnabledIdempotent := by
  unfold Obligations.SetEnabledIdempotent
  intro s u en happ
  refine ⟨_, setEnabledWhole_of_idle happ en, ?ue, ?again⟩
  case ue =>
    rw [State.usart_setUsart_same]
    exact rmwValue_ue_getLsbD _ en
  case again =>
    rw [setEnabledWhole_of_idle ((State.setUsart_app s u _).trans happ), State.usart_setUsart_same,
      State.setUsart_setUsart, rmwValue_rmwValue]

end Sys2Proof.Machine
end

section
/-! A commit undoes the disable of a direction that an ON_IRQ completed before it (O44). -/

namespace Sys2Proof.Machine

variable {s s1 t : State} {u : InstIx} {dir : Inst → DirState}

/-! ### ON_IRQ keeps the application context (R255, R256) -/

theorem execTxStep_app (hx : execTxStep u s = .next t) : t.app = s.app := by
  obtain rfl | ⟨f, rfl⟩ | ⟨c, r, raw, -, -, rfl⟩ := execTxStep_cases hx <;> rfl

theorem execRxStep_app (hx : execRxStep u s = .next t) : t.app = s.app := by
  obtain rfl | ⟨f, rfl⟩ | ⟨f, rfl⟩ | ⟨c, r, d, -, -, -, rfl⟩ := execRxStep_cases hx
  · rfl
  · rfl
  · rfl
  · exact written_app _ _ _ _

theorem execOnIrq_app (hx : execOnIrq u s = .next t) : t.app = s.app :=
  execOnIrq_keeps (P := fun t => t.app = s.app) (fun _ h => h) (fun _ _ h => h) (fun _ _ h => h)
    (fun _ _ h hstep => (execTxStep_app hstep).trans h) (fun _ _ h hstep => (execRxStep_app hstep).trans h) rfl hx

/-- An ON_IRQ of a high, routed line that raises no fault is its two phases, one after the other (R193). -/
theorem irqPhases_of_exec_onIrq (hrouted : s.irqRouted u = true) (hline : irqLine s u = true)
    (hx : exec (.onIrq u) s = .next t) (hfault : t.fault = none) :
    ∃ s1, irqTxPhase s u = .ok () s1 ∧ irqRxPhase s1 u = .ok () t := by
  rw [exec_onIrq_of_admitted (.inl hrouted) hline] at hx
  obtain ⟨t', hok, he⟩ | ⟨f, t', -, he⟩ := finish_cases (serviceIrq s u)
  · cases he.symm.trans hx
    obtain ⟨f, s1, -, he⟩ | ⟨s1, htx, he⟩ := serviceIrq_cases s u
    · cases he.symm.trans hok
    · exact ⟨s1, htx, he.symm.trans hok⟩
  · cases he.symm.trans hx
    cases hfault

/-! ### The last unit of a direction (R176) -/

/-- The unit that the callback of direction `dir` moves next takes all the bytes to go. -/
structure LastUnit (dir : Inst → DirState) (i : Inst) : Prop where
  callback  : (dir i).callback = .installed
  cursor    : (dir i).cursor ≠ none
  remaining : (dir i).remaining = (i.nextSize (dir i).remaining).word

theorem UnitSize.word_ne_zero (n : UnitSize) : n.word ≠ 0#32 := by
  cases n <;> decide

theorem LastUnit.pending_ne_none {i : Inst} (h : LastUnit dir i) : (dir i).pending ≠ none := by
  rw [Ne, pending_none_iff, not_or]
  exact ⟨h.cursor, h.remaining ▸ UnitSize.word_ne_zero _⟩

/-- A transmit callback that moves its last unit disables TXE interrupts and frees the direction. -/
theorem txCallback_ok_of_lastUnit (hlast : LastUnit Inst.tx (s.usart u)) (h : txCallback s u = .ok () t) :
    (t.usart u).txeie = false ∧ (t.usart u).tx = .freed := by
  obtain ⟨-, he⟩ | ⟨-, hp, -⟩ | ⟨_, _, _, -, -, -, he⟩ | ⟨c, r, raw, -, hp, -, -, he⟩ := txCallback_cases s u
  · cases he.symm.trans h
  · exact absurd hp hlast.pending_ne_none
  · cases he.symm.trans h
  · obtain ⟨-, rfl, -⟩ := (pending_some_iff _ c r).mp hp
    cases he.symm.trans h
    rw [Inst.txeie, txMovedState_usart]
    rw [if_pos hlast.remaining, if_pos hlast.remaining]
    exact ⟨by simp [bitTXEIE], rfl⟩

/-- A receive callback that moves its last unit disables RXNE interrupts and frees the direction. -/
theorem rxCallback_ok_of_lastUnit (hlast : LastUnit Inst.rx (s.usart u)) (h : rxCallback s u = .ok () t) :
    (t.usart u).rxneie = false ∧ (t.usart u).rx = .freed := by
  obtain ⟨-, he⟩ | ⟨-, hp, -⟩ | ⟨_, _, -, -, -, he⟩ | ⟨_, _, _, _, -, -, -, -, he⟩ | ⟨c, r, d, -, hp, -, -, he⟩ :=
    rxCallback_cases s u
  · cases he.symm.trans h
  · exact absurd hp hlast.pending_ne_none
  · cases he.symm.trans h
  · cases he.symm.trans h
  · obtain ⟨-, rfl, -⟩ := (pending_some_iff _ c r).mp hp
    cases he.symm.trans h
    rw [Inst.rxneie, rxMovedState_usart]
    rw [if_pos hlast.remaining, if_pos hlast.remaining]
    exact ⟨by simp [bitRXNEIE], rfl⟩

/-! ### A callback leaves the other direction alone -/

/-- What the receive phase depends on. -/
def Inst.rxSide (i : Inst) : Config × DirState × Bool × Bool := (i.cfg, i.rx, i.rxne, i.rxneie)

/-- What the receive phase leaves alone of the transmit direction. -/
def Inst.txSide (i : Inst) : DirState × Bool := (i.tx, i.txeie)

theorem txMovedState_rxSide (s : State) (u : InstIx) (c : Word) (raw : Half) (n : UnitSize) :
    ((txMovedState s u c raw n).usart u).rxSide = (s.usart u).rxSide := by
  rw [Inst.rxSide, txMovedState_rxneie, txMovedState_usart]
  rfl

theorem rxMovedState_txSide (s : State) (u : InstIx) (c : Word) (d : Frame) (n : UnitSize) :
    ((rxMovedState s u c d n).usart u).txSide = (s.usart u).txSide := by
  rw [Inst.txSide, rxMovedState_txeie, rxMovedState_usart]
  rfl

theorem irqTxPhase_rxSide (h : irqTxPhase s u = .ok () t) : (t.usart u).rxSide = (s.usart u).rxSide := by
  have hread : ((afterReadSR s u).usart u).rxSide = (s.usart u).rxSide := by rw [afterReadSR_usart_same]; rfl
  obtain ⟨-, -, hphase⟩ | ⟨-, hphase⟩ := irqTxPhase_cases s u
  · obtain ⟨-, he⟩ | ⟨-, -, he⟩ | ⟨_, _, _, -, -, -, he⟩ | ⟨c, r, raw, -, -, -, -, he⟩ :=
      txCallback_cases (afterReadSR s u) u <;> cases (hphase.trans he).symm.trans h
    · exact hread
    · exact (txMovedState_rxSide _ _ _ _ _).trans hread
  · cases hphase.symm.trans h
    exact hread

theorem irqRxPhase_txSide (h : irqRxPhase s u = .ok () t) : (t.usart u).txSide = (s.usart u).txSide := by
  have hread : ((afterReadSR s u).usart u).txSide = (s.usart u).txSide := by rw [afterReadSR_usart_same]; rfl
  obtain ⟨-, -, hphase⟩ | ⟨-, hphase⟩ := irqRxPhase_cases s u
  · obtain ⟨-, he⟩ | ⟨-, -, he⟩ | ⟨_, _, -, -, -, he⟩ | ⟨_, _, _, _, -, -, -, -, he⟩ | ⟨c, r, d, -, -, -, -, he⟩ :=
      rxCallback_cases (afterReadSR s u) u <;> cases (hphase.trans he).symm.trans h
    · exact hread
    · exact (rxMovedState_txSide _ _ _ _ _).trans hread
  · cases hphase.symm.trans h
    exact hread

/-! ### An ON_IRQ that completes a direction (R176, R193) -/

theorem irqPhases_complete_tx (hpending : (s.usart u).txe = true ∧ (s.usart u).txeie = true)
    (hlast : LastUnit Inst.tx (s.usart u)) (htx : irqTxPhase s u = .ok () s1) (hrx : irqRxPhase s1 u = .ok () t) :
    (t.usart u).txeie = false ∧ (t.usart u).tx = .freed := by
  have hlast' : LastUnit Inst.tx ((afterReadSR s u).usart u) := by
    rw [afterReadSR_usart_same]
    exact ⟨hlast.callback, hlast.cursor, hlast.remaining⟩
  have hdone := txCallback_ok_of_lastUnit hlast' ((irqTxPhase_of_pending hpending).symm.trans htx)
  obtain ⟨hdir, henable⟩ := Prod.mk.inj (irqRxPhase_txSide hrx)
  rwa [hdir, henable]

theorem irqPhases_complete_rx (hpending : (s.usart u).rxne = true ∧ (s.usart u).rxneie = true)
    (hlast : LastUnit Inst.rx (s.usart u)) (htx : irqTxPhase s u = .ok () s1) (hrx : irqRxPhase s1 u = .ok () t) :
    (t.usart u).rxneie = false ∧ (t.usart u).rx = .freed := by
  obtain ⟨hcfg, hside⟩ := Prod.mk.inj (irqTxPhase_rxSide htx)
  obtain ⟨hdir, hside⟩ := Prod.mk.inj hside
  obtain ⟨hrxne, hrxneie⟩ := Prod.mk.inj hside
  have hlast' : LastUnit Inst.rx ((afterReadSR s1 u).usart u) := by
    rw [afterReadSR_usart_same]
    refine ⟨?_, ?_, ?_⟩ <;> simp only [Inst.nextSize, Inst.format, hdir, hcfg]
    · exact hlast.callback
    · exact hlast.cursor
    · exact hlast.remaining
  have hpending' : (s1.usart u).rxne = true ∧ (s1.usart u).rxneie = true := by rwa [hrxne, hrxneie]
  exact rxCallback_ok_of_lastUnit hlast' ((irqRxPhase_of_pending hpending').symm.trans hrx)

/-- A latched bit that the commit does not clear is set by it. -/
theorem rmwValue_getLsbD_of_latched {latch clr : Word} {b : Nat} (hlatch : latch.getLsbD b = true)
    (hclr : clr.getLsbD b = false) (set : Word) : (rmwValue latch set clr).getLsbD b = true := by
  rw [rmwValue_getLsbD, hlatch, hclr]
  rfl

/-- Settles O44: the ON_IRQ clears the interrupt enable with the status, and the commit writes CR1 from the word latched
before it. -/
theorem lostUpdateOfCr1 : Obligations.LostUpdateOfCr1 := by
  unfold Obligations.LostUpdateOfCr1
  intro s t v u latch set clr i happ hrouted _ hirq hfault hcommit
  rw [exec_rmwCommit_of_rmw ((execOnIrq_app hirq).trans happ)] at hcommit
  cases hcommit
  rw [State.usart_setApp, State.usart_setUsart_same]
  refine ⟨?receive, ?transmit⟩
  case receive =>
    intro hlatch hclr hrxne hrxneie _ hc hcursor hremaining
    obtain ⟨s1, htx, hrx⟩ := irqPhases_of_exec_onIrq hrouted (irqLine_of_rx hrxne hrxneie) hirq hfault
    obtain ⟨hdisabled, hfreed⟩ := irqPhases_complete_rx ⟨hrxne, hrxneie⟩ ⟨hc, hcursor, hremaining⟩ htx hrx
    exact ⟨hdisabled, rmwValue_getLsbD_of_latched hlatch hclr set, hfreed⟩
  case transmit =>
    intro hlatch hclr htxe htxeie _ hc hcursor hremaining
    obtain ⟨s1, htx, hrx⟩ := irqPhases_of_exec_onIrq hrouted (irqLine_of_tx htxe htxeie) hirq hfault
    obtain ⟨hdisabled, hfreed⟩ := irqPhases_complete_tx ⟨htxe, htxeie⟩ ⟨hc, hcursor, hremaining⟩ htx hrx
    exact ⟨hdisabled, rmwValue_getLsbD_of_latched hlatch hclr set, hfreed⟩

end Sys2Proof.Machine
end

section
/-! Flag reads, register reads and register writes of the host (O45 to O48). -/

namespace Sys2Proof.Machine

variable {s t : State} {u : InstIx}

theorem RestKept.emit (h : RestKept u s t) (v : Word) : RestKept u s (t.emit v) :=
  ⟨h.params, h.others, h.fault, h.refused, h.schedule⟩

/-! ### Reads of SR (R208, R211, R230) -/

theorem exec_readFlag_of_idle (h : s.app = .idle) (f : Flag) : exec (.readFlag u f) s =
    .next ((afterReadSR s u).emit (if (srView s u).flag f then 1#32 else 0#32)) :=
  asHost_idle (.readFlag u f) s _ h

/-- Settles O45: a read of SR shows the flag as it stands. -/
theorem readFlagAppendsFlag : Obligations.ReadFlagAppendsFlag := by
  unfold Obligations.ReadFlagAppendsFlag
  intro s u f happ
  refine ⟨_, exec_readFlag_of_idle happ f, ?results, afterReadSR_usart_same s u, happ,
    (RestKept.refl u s).afterReadSR.emit _, fun _ => rfl, rfl⟩
  case results => cases f <;> rfl

theorem srWord_flags (txe tc rxne : Bool) (d : BitVec 7) :
    (srWord txe tc rxne d).getLsbD 7 = txe ∧ (srWord txe tc rxne d).getLsbD 6 = tc ∧
      (srWord txe tc rxne d).getLsbD 5 = rxne := by
  simp only [srWord, BitVec.getLsbD_append]
  simp

/-- Only the ten low bits of SR are implemented (R32). -/
theorem srWord_getLsbD_of_ge (txe tc rxne : Bool) (d : BitVec 7) {b : Nat} (hb : 10 ≤ b) :
    (srWord txe tc rxne d).getLsbD b = false := by
  obtain ⟨k, rfl⟩ := Nat.exists_eq_add_of_le' hb
  simp only [srWord, BitVec.getLsbD_append]
  simp

theorem exec_regRead_sr_of_idle (h : s.app = .idle) : exec (.regRead u .sr) s =
    .next ((afterReadSR s u).emit (srView s u).word) :=
  asHost_idle (.regRead u .sr) s _ h

/-- Settles O46, by the bits of the word that a read of SR returns. -/
theorem srReadAppendsFlags : Obligations.SrReadAppendsFlags := by
  unfold Obligations.SrReadAppendsFlags
  intro s u happ
  obtain ⟨htxe, htc, hrxne⟩ :=
    srWord_flags (s.usart u).txe (s.usart u).tc (s.usart u).rxne (Config.srDraw s.draws)
  exact ⟨_, _, exec_regRead_sr_of_idle happ, rfl, htxe, htc, hrxne, fun _ => srWord_getLsbD_of_ge _ _ _ _,
    afterReadSR_usart_same s u, happ, (RestKept.refl u s).afterReadSR.emit _, fun _ => rfl, rfl⟩

/-! ### Reads of the other registers (R210, R212) -/

theorem exec_regRead_dr_of_rdr {d : Frame} (h : s.app = .idle) (hd : (s.usart u).rdr = some d) :
    exec (.regRead u .dr) s = .next ((rdrTaken s u).emit (d.setWidth 32)) := by
  refine (asHost_idle (.regRead u .dr) s _ h).trans ?_
  simp only [readDR, hd, rdrTaken]

theorem exec_regRead_dr_of_unwritten (h : s.app = .idle) (hd : (s.usart u).rdr = none) :
    exec (.regRead u .dr) s = .next (s.raise (.unwrittenRdr u)) := by
  refine (asHost_idle (.regRead u .dr) s _ h).trans ?_
  simp only [readDR, hd]

/-- Settles O47, by the register read; DR by whether a frame has arrived. -/
theorem regReadAppendsRegister : Obligations.RegReadAppendsRegister := by
  unfold Obligations.RegReadAppendsRegister
  intro s u happ i
  refine ⟨fun r hsr hdr => ?plain, fun d hd => ?dr, exec_regRead_dr_of_unwritten happ⟩
  case plain =>
    cases r with
    | sr => exact absurd rfl hsr
    | dr => exact absurd rfl hdr
    | brr | cr1 | cr2 | cr3 =>
      exact ⟨_, asHost_idle (.regRead u _) s _ happ, rfl, rfl, happ, (RestKept.refl u s).emit _, fun _ => rfl, rfl⟩
  case dr =>
    exact ⟨_, exec_regRead_dr_of_rdr happ hd, rfl, rdrTaken_usart_same s u, happ,
      (RestKept.refl u s).rdrTaken.emit _, fun _ => rfl, rfl⟩

/-! ### Writes (R213 to R215) -/

/-- A command of an idle host that replaces USART `u` keeps everything else. -/
theorem exists_setUsart_of_idle {o : Out} {i : Inst} (happ : s.app = .idle) (h : o = .next (s.setUsart u i)) :
    ∃ t, o = .next t ∧
      (t.app = .idle ∧ RestKept u s t ∧ MemKept s t ∧ t.results = s.results ∧ t.draws = s.draws) ∧ t.usart u = i :=
  ⟨_, h, ⟨happ, restKept_setUsart s u i, memKept_setUsart s u i, rfl, rfl⟩, State.usart_setUsart_same s u i⟩

/-- Settles O48, by the register written; a control word by its not-modelled bits. -/
theorem regWriteStores : Obligations.RegWriteStores := by
  unfold Obligations.RegWriteStores
  intro s u value happ i kept
  have hrun (r : RegName) (o : Out) := asHost_idle (.regWrite u r value) s o happ
  refine ⟨hrun .sr _, exists_setUsart_of_idle happ (hrun .dr _), ?brr,
    fun hbits => (hrun .cr1 _).trans (if_pos hbits),
    fun hbits => exists_setUsart_of_idle happ ((hrun .cr1 _).trans (if_neg (not_not.mpr hbits))),
    fun hbits => (hrun .cr2 _).trans (if_pos hbits),
    fun hbits => exists_setUsart_of_idle happ ((hrun .cr2 _).trans (if_neg (not_not.mpr hbits))),
    fun hbits => (hrun .cr3 _).trans (if_pos hbits),
    fun hbits => exists_setUsart_of_idle happ ((hrun .cr3 _).trans (if_neg (not_not.mpr hbits)))⟩
  case brr =>
    obtain ⟨t, ht, hkept, husart⟩ := exists_setUsart_of_idle happ (hrun .brr _)
    refine ⟨t, ht, hkept, ?_⟩
    rw [husart]
    exact ⟨rfl, brrStored_toNat s.params value.toNat⟩

end Sys2Proof.Machine
end

section
/-! The steps of the line: a frame loaded, a frame finished, a frame received, and what holds while the line is gated
(O49, O50, O51, O52). -/

namespace Sys2Proof.Machine

variable {s : State} {u : InstIx} {v : Frame}

/-- A step of the line writes one USART and keeps everything else, the application context included. -/
theorem exists_setUsart {o : Out} {i : Inst} (h : o = .next (s.setUsart u i)) :
    ∃ t, o = .next t ∧ t.usart u = i ∧ t.app = s.app ∧ RestKept u s t ∧ MemKept s t ∧ t.results = s.results ∧
      t.draws = s.draws :=
  ⟨_, h, State.usart_setUsart_same s u i, rfl, restKept_setUsart s u i, memKept_setUsart s u i, rfl, rfl⟩

/-! ### When a step of the line is enabled (R225) -/

theorem Inst.txLoadEnabled_iff (i : Inst) :
    i.txLoadEnabled = true ↔ i.ue = true ∧ i.te = true ∧ i.txe = false ∧ i.shifter = none := by
  simp [Inst.txLoadEnabled, and_assoc]

theorem Inst.txDoneEnabled_iff (i : Inst) :
    i.txDoneEnabled = true ↔ i.ue = true ∧ i.te = true ∧ i.shifter ≠ none := by
  simp [Inst.txDoneEnabled, and_assoc, Option.isSome_iff_ne_none]

theorem rxFrameEnabled_iff (s : State) (u : InstIx) :
    rxFrameEnabled s u = true ↔ (s.usart u).ue = true ∧ (s.usart u).re = true ∧ s.loopback u = .off := by
  simp [rxFrameEnabled, and_assoc]

/-! ### A frame loaded (R226) -/

theorem exec_evTxLoad_of_enabled (h : (s.usart u).txLoadEnabled = true) : exec (.evTxLoad u) s =
    .next (s.setUsart u { s.usart u with
      shifter := some ((s.usart u).tdr &&& (s.usart u).frameMask), txe := true }) :=
  if_pos h

theorem exec_evTxLoad_of_disabled (h : ¬(s.usart u).txLoadEnabled = true) : exec (.evTxLoad u) s = .next s :=
  if_neg h

/-- Settles O49: the frame mask is the one of CR1.M. -/
theorem txLoadMovesFrame : Obligations.TxLoadMovesFrame := by
  unfold Obligations.TxLoadMovesFrame
  intro s u i hue hte htxe hshifter
  exact exists_setUsart (exec_evTxLoad_of_enabled ((Inst.txLoadEnabled_iff i).mpr ⟨hue, hte, htxe, hshifter⟩))

/-! ### A frame received (R228) -/

/-- A frame that arrives sets RXNE in any case; it is kept if RXNE was clear and counted as lost if it was set. -/
theorem Inst.receive_eq (i : Inst) (v : Frame) : i.receive v =
    { i with
      rdr := if i.rxne = true then i.rdr else some (v &&& i.frameMask)
      rxne := true
      rxLost := if i.rxne = true then i.rxLost + 1 else i.rxLost } := by
  unfold Inst.receive
  by_cases h : i.rxne = true
  · simp only [h, if_true]
  · simp only [h, Bool.false_eq_true, if_false]

theorem exec_evRxFrame_of_enabled (h : rxFrameEnabled s u = true) (v : Frame) : exec (.evRxFrame u v) s =
    .next (s.setUsart u ((s.usart u).receive v)) :=
  if_pos h

theorem exec_evRxFrame_of_disabled (h : ¬rxFrameEnabled s u = true) (v : Frame) :
    exec (.evRxFrame u v) s = .next s :=
  if_neg h

/-- Settles O51, by what a frame that arrives does to the receiver. -/
theorem rxFrameArrives : Obligations.RxFrameArrives := by
  unfold Obligations.RxFrameArrives
  intro s u v i hue hre hloop
  have hrun := exec_evRxFrame_of_enabled ((rxFrameEnabled_iff s u).mpr ⟨hue, hre, hloop⟩) v
  rw [Inst.receive_eq] at hrun
  exact exists_setUsart hrun

/-! ### A frame finished (R227) -/

theorem exec_evTxDone_of_enabled (hue : (s.usart u).ue = true) (hte : (s.usart u).te = true)
    (hshifter : (s.usart u).shifter = some v) : exec (.evTxDone u) s =
      .next (s.setUsart u (if s.loopback u = .register ∧ (s.usart u).re = true then
        ((s.usart u).sent v).receive v else (s.usart u).sent v)) := by
  simp only [exec, execEvTxDone, hue, hte, hshifter, Bool.and_self, if_true]
  split <;> rfl

theorem exec_evTxDone_of_disabled (h : ¬(s.usart u).txDoneEnabled = true) : exec (.evTxDone u) s = .next s := by
  simp only [exec, execEvTxDone, hold]
  split
  · rename_i hgate
    obtain ⟨hue, hte⟩ := (Bool.and_eq_true _ _).mp hgate
    cases hshifter : (s.usart u).shifter with
    | none => rfl
    | some v => exact absurd ((Inst.txDoneEnabled_iff _).mpr ⟨hue, hte, by simp [hshifter]⟩) h
  · rfl

/-- TC rises, and its clearing sequence starts again, exactly if TXE says that no unit waits. -/
theorem Inst.sent_eq (i : Inst) (v : Frame) : i.sent v =
    { i with
      lineOut := i.lineOut ++ [v]
      shifter := none
      tc := if i.txe = true then true else i.tc
      tcArmed := if i.txe = true then false else i.tcArmed } := by
  unfold Inst.sent
  cases i.txe <;> simp

/-- What a finished frame leaves of the USART, whether it comes back to the own receiver or not. -/
theorem Inst.sent_receive_eq (i : Inst) (v : Frame) (back : Prop) [Decidable back] :
    (if back then (i.sent v).receive v else i.sent v) =
      { i with
        lineOut := i.lineOut ++ [v]
        shifter := none
        tc := if i.txe = true then true else i.tc
        tcArmed := if i.txe = true then false else i.tcArmed
        rdr := if back ∧ i.rxne = false then some (v &&& i.frameMask) else i.rdr
        rxne := if back then true else i.rxne
        rxLost := if back ∧ i.rxne = true then i.rxLost + 1 else i.rxLost } := by
  have hmask : (i.sent v).frameMask = i.frameMask := rfl
  rw [Inst.receive_eq, hmask, Inst.sent_eq]
  by_cases hback : back
  · simp only [hback, if_true, true_and, ← Bool.not_eq_true, ite_not]
  · simp only [hback, if_false, false_and]

/-- Settles O50: TC by whether a unit waits, the receiver by whether the frame comes back and RXNE was clear. -/
theorem txDoneFinishesFrame : Obligations.TxDoneFinishesFrame := by
  unfold Obligations.TxDoneFinishesFrame
  intro s u v i back hue hte hshifter
  have hrun := exec_evTxDone_of_enabled hue hte hshifter
  rw [Inst.sent_receive_eq] at hrun
  exact exists_setUsart hrun

/-! ### The gated line (R225, R232, R235) -/

/-- Settles O52: each condition denies one part of what enables the step. -/
theorem gatedLineHolds : Obligations.GatedLineHolds := by
  unfold Obligations.GatedLineHolds
  intro s u v i
  refine ⟨fun h => exec_evTxLoad_of_disabled fun he => ?load, fun h => exec_evTxDone_of_disabled fun he => ?done,
    fun h => exec_evRxFrame_of_disabled (fun he => ?frame) v⟩
  case load =>
    obtain ⟨hue, hte, htxe, hshifter⟩ := (Inst.txLoadEnabled_iff i).mp he
    obtain h | h | h | h := h
    · exact Bool.false_ne_true (h.symm.trans hue)
    · exact Bool.false_ne_true (h.symm.trans hte)
    · exact Bool.false_ne_true (htxe.symm.trans h)
    · exact h hshifter
  case done =>
    obtain ⟨hue, hte, hshifter⟩ := (Inst.txDoneEnabled_iff i).mp he
    obtain h | h | h := h
    · exact Bool.false_ne_true (h.symm.trans hue)
    · exact Bool.false_ne_true (h.symm.trans hte)
    · exact hshifter h
  case frame =>
    obtain ⟨hue, hre, hloop⟩ := (rxFrameEnabled_iff s u).mp he
    obtain h | h | h := h
    · exact Bool.false_ne_true (h.symm.trans hue)
    · exact Bool.false_ne_true (h.symm.trans hre)
    · cases h.symm.trans hloop

end Sys2Proof.Machine
end

section
/-! Only a raw REG_WRITE of DR by the host counts a lost unit (O57). -/

namespace Sys2Proof.Machine

variable {s t t' : State} {u : InstIx}

/-- Every USART has lost as many units in `t` as in `s`. -/
def LossesKept (s t : State) : Prop := ∀ v, (t.usart v).tdrLost = (s.usart v).tdrLost

theorem LossesKept.refl (s : State) : LossesKept s s := fun _ => rfl

theorem LossesKept.trans (h : LossesKept s t) (h' : LossesKept t t') : LossesKept s t' := fun v =>
  (h' v).trans (h v)

/-! ### The updates of the state that lose no unit -/

theorem LossesKept.setUsart (h : LossesKept s t) {i : Inst} (hi : i.tdrLost = (t.usart u).tdrLost) :
    LossesKept s (t.setUsart u i) := fun v =>
  (State.usart_setUsart_field Inst.tdrLost t fun _ => hi).trans (h v)

theorem LossesKept.afterReadSR (h : LossesKept s t) (u : InstIx) : LossesKept s (afterReadSR t u) :=
  LossesKept.setUsart (u := u) h
    (i := { t.usart u with tcArmed := (t.usart u).tcArmed || (t.usart u).tc }) rfl

theorem LossesKept.rdrTaken (h : LossesKept s t) (u : InstIx) : LossesKept s (rdrTaken t u) :=
  h.setUsart rfl

theorem LossesKept.written (h : LossesKept s t) (a : Word) (n : UnitSize) (x : Half) :
    LossesKept s (written t a n x) := fun v => by
  rw [written_usart]
  exact h v

theorem LossesKept.rmwCr1 (h : LossesKept s t) (u : InstIx) (set clr : Word) :
    LossesKept s (rmwCr1 t u set clr) := by
  obtain ⟨-, heq⟩ | ⟨-, heq⟩ := rmwCr1_cases t u set clr <;> rw [heq]
  · exact h.setUsart rfl
  · exact h

theorem Inst.tdrLost_receive (i : Inst) (v : Frame) : (i.receive v).tdrLost = i.tdrLost := by
  rw [Inst.receive_eq]

/-- A write of DR overwrites no unit while TXE = 1 (R229). -/
theorem Inst.tdrLost_writeDR_of_txe {i : Inst} (x : Frame) (htxe : i.txe = true) :
    (i.writeDR x).tdrLost = i.tdrLost := if_pos htxe

/-- A write of DR overwrites one unit while TXE = 0 (R229). -/
theorem Inst.tdrLost_writeDR_of_not_txe {i : Inst} (x : Frame) (htxe : ¬i.txe = true) :
    (i.writeDR x).tdrLost = i.tdrLost + 1 := if_neg htxe

theorem LossesKept.writeDR (h : LossesKept s t) (x : Frame) (htxe : (t.usart u).txe = true) :
    LossesKept s (writeDR t u x) :=
  h.setUsart (Inst.tdrLost_writeDR_of_txe x htxe)

/-! ### Every operation but a TX_STEP of its own and a raw write of DR -/

theorem execTxStep_losses (htxe : (s.usart u).txe = true) (hx : execTxStep u s = .next t) : LossesKept s t := by
  have h := LossesKept.refl s
  obtain rfl | ⟨f, rfl⟩ | ⟨c, r, raw, -, -, rfl⟩ := execTxStep_cases hx
  · exact h
  · exact h
  · refine h.setUsart ?_
    rw [Inst.txMoved_eq]
    exact Inst.tdrLost_writeDR_of_txe ((s.usart u).sentFrame raw) htxe

theorem execRxStep_losses (hx : execRxStep u s = .next t) : LossesKept s t := by
  have h := LossesKept.refl s
  obtain rfl | ⟨f, rfl⟩ | ⟨f, rfl⟩ | ⟨c, r, d, -, -, -, rfl⟩ := execRxStep_cases hx
  · exact h
  · exact h
  · exact h.rdrTaken u
  · refine ((h.rdrTaken u).written _ _ _).setUsart ?_
    rw [Inst.rxMoved_eq, written_usart, rdrTaken_usart_same]

/-- The handler runs its transmit callback only after it read TXE = 1 (R191). -/
theorem execOnIrq_losses (hx : execOnIrq u s = .next t) : LossesKept s t := by
  have h := LossesKept.refl s
  obtain ⟨-, rfl⟩ | ⟨-, -, rfl⟩ | ⟨-, hx⟩ := execOnIrq_cases hx
  · exact h
  · exact h
  · obtain ⟨f, -, -, rfl⟩ | ⟨s1, hTx, hRx⟩ := finish_serviceIrq_cases hx
    · exact h.afterReadSR u
    · have h1 : LossesKept s s1 := by
        obtain ⟨htxe, -, hTx⟩ | ⟨-, rfl⟩ := hTx
        · exact (h.afterReadSR u).trans (execTxStep_losses (by simpa using htxe) hTx)
        · exact h.afterReadSR u
      obtain ⟨-, -, hRx⟩ | ⟨-, rfl⟩ := hRx
      · exact (h1.afterReadSR u).trans (execRxStep_losses hRx)
      · exact h1.afterReadSR u

/-- No operation loses a unit but a step-callback outside its handler and a write of DR by the host: the engines write DR
in the step that reads TXE = 1 (R152, R191). -/
theorem exec_losses {i : Instr} (hstep : ∀ v, i ≠ .txStep v) (hwrite : ∀ v x, i ≠ .regWrite v .dr x)
    (hx : exec i s = .next t) : LossesKept s t := by
  have h := LossesKept.refl s
  cases i with
  | init u =>
    obtain ⟨-, rfl⟩ | ⟨-, rfl⟩ := execInit_cases hx
    · exact h
    · exact h.setUsart rfl
  | txBlock u buf len =>
    obtain ⟨-, rfl⟩ | ⟨-, ⟨-, rfl⟩ | ⟨-, -, rfl⟩ | ⟨-, -, rfl⟩⟩ := execTxBlock_cases hx <;> exact h
  | rxBlock u buf len =>
    obtain ⟨-, rfl⟩ | ⟨-, ⟨-, rfl⟩ | ⟨-, -, rfl⟩ | ⟨-, -, rfl⟩⟩ := execRxBlock_cases hx <;> exact h
  | txAsync u buf len =>
    obtain ⟨-, rfl⟩ | ⟨-, ⟨-, rfl⟩ | ⟨-, -, rfl⟩ | ⟨-, -, -, rfl⟩ | ⟨-, -, -, rfl⟩⟩ := execTxAsync_cases hx
    · exact h
    · exact h
    · exact h
    · exact h
    · exact (h.setUsart (i := { s.usart u with tx := DirState.accepted buf len }) rfl).rmwCr1 u _ _
  | rxAsync u buf len =>
    obtain ⟨-, rfl⟩ | ⟨-, ⟨-, rfl⟩ | ⟨-, -, rfl⟩ | ⟨-, -, -, rfl⟩ | ⟨-, -, -, rfl⟩⟩ := execRxAsync_cases hx
    · exact h
    · exact h
    · exact h
    · exact h
    · exact (h.setUsart (i := { s.usart u with rx := DirState.accepted buf len }) rfl).rmwCr1 u _ _
  | setEnabled u en =>
    obtain ⟨-, rfl⟩ | ⟨-, ⟨-, rfl⟩ | ⟨-, rfl⟩⟩ := execSetEnabled_cases hx
    · exact h
    · exact h.rmwCr1 u _ _
    · exact h.rmwCr1 u _ _
  | readFlag u f =>
    obtain ⟨-, rfl⟩ | ⟨-, rfl⟩ := execReadFlag_cases hx
    · exact h
    · exact h.afterReadSR u
  | onIrq u => exact execOnIrq_losses hx
  | regRead u r =>
    obtain ⟨-, rfl⟩ | ⟨-, ⟨-, rfl⟩ | ⟨-, -, rfl⟩ | ⟨-, d, -, rfl⟩ | ⟨-, -, x, rfl⟩⟩ := execRegRead_cases hx
    · exact h
    · exact h.afterReadSR u
    · exact h
    · exact h.rdrTaken u
    · exact h
  | regWrite u r x =>
    obtain ⟨-, rfl⟩ | ⟨-, ⟨q, rfl⟩ | ⟨rfl, -⟩ | ⟨-, rfl⟩ | ⟨-, -, rfl⟩ | ⟨-, -, rfl⟩ | ⟨-, -, rfl⟩⟩ :=
      execRegWrite_cases hx
    · exact h
    · exact h
    · exact absurd rfl (hwrite u x)
    all_goals exact h.setUsart rfl
  | txStep u => exact absurd rfl (hstep u)
  | rxStep u => exact execRxStep_losses hx
  | rmwCommit u =>
    obtain rfl | ⟨latch, set, clr, -, rfl⟩ := execRmwCommit_cases hx
    · exact h
    · exact h.setUsart (i := { s.usart u with cr1 := rmwValue latch set clr }) rfl
  | blkTxUnit u =>
    obtain rfl | ⟨c, r, -, -, htxe, ⟨f, rfl⟩ | ⟨x, n, -, rfl⟩⟩ := execBlkTxUnit_cases hx
    · exact h
    · exact h.afterReadSR u
    · exact (h.afterReadSR u).writeDR x (by simpa using htxe)
  | blkTxFinish u =>
    obtain rfl | ⟨-, -, rfl⟩ := execBlkTxFinish_cases hx
    · exact h
    · exact h.afterReadSR u
  | blkRxUnit u =>
    obtain rfl | ⟨c, r, -, -, -, ⟨f, rfl⟩ | ⟨f, rfl⟩ | ⟨x, n, -, rfl⟩⟩ := execBlkRxUnit_cases hx
    · exact h
    · exact h.afterReadSR u
    · exact (h.afterReadSR u).rdrTaken u
    · exact ((h.afterReadSR u).rdrTaken u).written c n x
  | evTxLoad u =>
    obtain rfl | ⟨-, rfl⟩ := execEvTxLoad_cases hx
    · exact h
    · exact h.setUsart rfl
  | evTxDone u =>
    obtain rfl | ⟨v, -, ⟨-, -, rfl⟩ | rfl⟩ := execEvTxDone_cases hx
    · exact h
    · exact h.setUsart (Inst.tdrLost_receive _ v)
    · exact h.setUsart rfl
  | evRxFrame u v =>
    obtain rfl | ⟨-, rfl⟩ := execEvRxFrame_cases hx
    · exact h
    · exact h.setUsart (Inst.tdrLost_receive _ v)

/-! ### The write of DR by the host, and one step -/

/-- A REG_WRITE of DR that changes a count of lost units was made over a unit not yet loaded, of the USART it names. -/
theorem exec_regWrite_dr_loses {w : InstIx} {x : Word} (hx : exec (.regWrite w .dr x) s = .next t)
    (hne : (t.usart u).tdrLost ≠ (s.usart u).tdrLost) :
    u = w ∧ (s.usart u).txe = false ∧ (t.usart u).tdrLost = (s.usart u).tdrLost + 1 := by
  obtain rfl : u = w := by
    by_contra hu
    exact hne (congrArg Inst.tdrLost (exec_others hx u hu))
  obtain ⟨-, rfl⟩ | ⟨-, ⟨q, rfl⟩ | ⟨-, rfl⟩ | ⟨hr, -⟩ | ⟨hr, -⟩ | ⟨hr, -⟩ | ⟨hr, -⟩⟩ := execRegWrite_cases hx
  · exact absurd rfl hne
  · exact absurd rfl hne
  · rw [writeDR_usart_same] at hne ⊢
    have htxe : ¬(s.usart u).txe = true := fun h => hne (Inst.tdrLost_writeDR_of_txe _ h)
    exact ⟨rfl, Bool.eq_false_iff.mpr htxe, Inst.tdrLost_writeDR_of_not_txe _ htxe⟩
  all_goals cases hr

/-- An operation that some agent may issue loses a unit only as a REG_WRITE of DR of the unit's USART. -/
theorem exec_loses {ag : Agent} {i : Instr} (hm : mayIssue ag i = true) (hx : exec i s = .next t)
    (hne : (t.usart u).tdrLost ≠ (s.usart u).tdrLost) :
    (∃ x, i = .regWrite u .dr x) ∧ (s.usart u).txe = false ∧ (t.usart u).tdrLost = (s.usart u).tdrLost + 1 := by
  by_cases hwrite : ∃ w x, i = .regWrite w .dr x
  · obtain ⟨w, x, rfl⟩ := hwrite
    obtain ⟨rfl, htxe, hlost⟩ := exec_regWrite_dr_loses hx hne
    exact ⟨⟨x, rfl⟩, htxe, hlost⟩
  · have hstep : ∀ v, i ≠ .txStep v := by
      rintro v rfl
      cases hm
    exact absurd (exec_losses hstep (fun w x hi => hwrite ⟨w, x, hi⟩) hx u) hne

/-- Settles O57: a turn that runs no operation changes no USART, and the operation that loses a unit is the host's. -/
theorem onlyRawWriteLosesUnit : Obligations.OnlyRawWriteLosesUnit := by
  unfold Obligations.OnlyRawWriteLosesUnit
  intro s t u hs hne
  obtain ⟨-, ⟨-, rfl⟩ | ⟨tn, rest, hq, hturn⟩⟩ := step_next_cases hs
  · exact absurd rfl hne
  · obtain ⟨r, rfl⟩ | rfl | ⟨a, b, -, -, ⟨f, rfl⟩ | rfl⟩ | ⟨a, f, -, -, rfl⟩ | ⟨ag, ws, i, rfl, hd, hm, hx⟩ := hturn
    case inr.inr.inr.inr =>
      obtain ⟨⟨x, rfl⟩, htxe, hlost⟩ := exec_loses hm hx hne
      obtain rfl : ag = .host := eq_of_beq hm
      exact ⟨hlost, htxe, ws, rest, x, hq, hd⟩
    all_goals exact absurd rfl hne

end Sys2Proof.Machine
end

section
/-! The launch check of the configuration records (O13), and that no step changes a record or the parameters (O54). -/

namespace Sys2Proof.Machine

/-! ### The launch check (R271) -/

/-- A choice between two values gives none exactly when both of its conditions fail. -/
theorem ite_some_ite_some_eq_none_iff {α : Type} {p q : Prop} [Decidable p] [Decidable q] (a b : α) :
    (if p then some a else if q then some b else none) = none ↔ ¬p ∧ ¬q := by
  by_cases hp : p <;> by_cases hq : q <;> simp [hp, hq]

/-- A record fails the launch check exactly when a numeric field lies outside its set (R31). -/
theorem LaunchConfig.check_eq_none_iff (c : LaunchConfig) : c.check = none ↔
    c.baud = 0 ∨ 2 ^ 32 ≤ c.baud ∨ (c.wordLength ≠ 8 ∧ c.wordLength ≠ 9) ∨
      (c.oversampling ≠ 8 ∧ c.oversampling ≠ 16) := by
  unfold LaunchConfig.check
  rw [← or_assoc]
  by_cases hbaud : c.baud = 0 ∨ 2 ^ 32 ≤ c.baud
  · rw [if_pos hbaud]
    exact iff_of_true rfl (.inl hbaud)
  · rw [if_neg hbaud, or_iff_right hbaud, ← ite_some_ite_some_eq_none_iff WordLength.eight .nine,
      ← ite_some_ite_some_eq_none_iff Oversampling.by8 .by16]
    generalize (if c.wordLength = 8 then _ else _ : Option WordLength) = wordLength
    generalize (if c.oversampling = 8 then _ else _ : Option Oversampling) = oversampling
    cases wordLength <;> cases oversampling <;> simp

/-- Settles O13: a launch sets its mark exactly when some record in use fails the check. -/
theorem badConfigRefusesLaunch : Obligations.BadConfigRefusesLaunch := by
  unfold Obligations.BadConfigRefusesLaunch
  intro p cfgs m q
  simp only [← LaunchConfig.check_eq_none_iff]
  refine ⟨fun hbad => ?refused, fun hgood => ?running⟩
  case refused =>
    have hmark : (State.launch p cfgs m q).refused = some .badConfig := if_pos (decide_eq_true hbad)
    obtain ⟨-, refusedStops, -⟩ := markedStateStops (State.launch p cfgs m q)
    exact refusedStops .badConfig rfl hmark
  case running => exact ⟨rfl, if_neg fun hmark => hgood (of_decide_eq_true hmark)⟩

/-! ### The parameters and the records (R274) -/

variable {s t t' : State} {u : InstIx}

/-- The parameters and every configuration record are the same in both states. -/
def ConfigKept (s t : State) : Prop := t.params = s.params ∧ ∀ v, (t.usart v).cfg = (s.usart v).cfg

theorem ConfigKept.refl (s : State) : ConfigKept s s := ⟨rfl, fun _ => rfl⟩

theorem ConfigKept.trans (h : ConfigKept s t) (h' : ConfigKept t t') : ConfigKept s t' :=
  ⟨h'.1.trans h.1, fun v => (h'.2 v).trans (h.2 v)⟩

/-! ### The updates of the state -/

theorem ConfigKept.setUsart (h : ConfigKept s t) {i : Inst} (hi : i.cfg = (t.usart u).cfg) :
    ConfigKept s (t.setUsart u i) :=
  ⟨h.1, fun v => (State.usart_setUsart_field Inst.cfg t fun _ => hi).trans (h.2 v)⟩

theorem ConfigKept.afterReadSR (h : ConfigKept s t) (u : InstIx) : ConfigKept s (afterReadSR t u) :=
  ConfigKept.setUsart (u := u) h (i := { t.usart u with tcArmed := (t.usart u).tcArmed || (t.usart u).tc }) rfl

theorem ConfigKept.writeDR (h : ConfigKept s t) (u : InstIx) (x : Frame) : ConfigKept s (writeDR t u x) :=
  h.setUsart rfl

theorem ConfigKept.rdrTaken (h : ConfigKept s t) (u : InstIx) : ConfigKept s (rdrTaken t u) :=
  h.setUsart rfl

theorem ConfigKept.written (h : ConfigKept s t) (a : Word) (n : UnitSize) (x : Half) :
    ConfigKept s (written t a n x) := by
  simpa only [ConfigKept, written_params, written_usart] using h

theorem ConfigKept.rmwCr1 (h : ConfigKept s t) (u : InstIx) (set clr : Word) : ConfigKept s (rmwCr1 t u set clr) := by
  obtain ⟨-, heq⟩ | ⟨-, heq⟩ := rmwCr1_cases t u set clr <;> rw [heq]
  · exact h.setUsart rfl
  · exact h

theorem Inst.cfg_receive (i : Inst) (v : Frame) : (i.receive v).cfg = i.cfg := by
  rw [Inst.receive_eq]

/-! ### Every operation, by what it can do -/

theorem execTxStep_configKept (hx : execTxStep u s = .next t) : ConfigKept s t := by
  have h := ConfigKept.refl s
  obtain rfl | ⟨f, rfl⟩ | ⟨c, r, raw, -, -, rfl⟩ := execTxStep_cases hx
  · exact h
  · exact h
  · rw [txMovedState_eq]
    refine (h.writeDR u _).setUsart ?_
    rw [Inst.txMoved_eq]

theorem execRxStep_configKept (hx : execRxStep u s = .next t) : ConfigKept s t := by
  have h := ConfigKept.refl s
  obtain rfl | ⟨f, rfl⟩ | ⟨f, rfl⟩ | ⟨c, r, d, -, -, -, rfl⟩ := execRxStep_cases hx
  · exact h
  · exact h
  · exact h.rdrTaken u
  · rw [rxMovedState_eq]
    refine ((h.rdrTaken u).written _ _ _).setUsart ?_
    rw [Inst.rxMoved_eq]

theorem execOnIrq_configKept (hx : execOnIrq u s = .next t) : ConfigKept s t :=
  execOnIrq_keeps (P := ConfigKept s) (fun _ h => h.afterReadSR u) (fun _ _ h => h) (fun _ _ h => h)
    (fun _ _ h hstep => h.trans (execTxStep_configKept hstep))
    (fun _ _ h hstep => h.trans (execRxStep_configKept hstep)) (ConfigKept.refl s) hx

/-- No operation writes a record (R274), INIT included: it writes the control words only (R119). A mark, a result or the
application context is no part of a record, so the state it was added to decides. -/
theorem exec_configKept {i : Instr} (hx : exec i s = .next t) : ConfigKept s t := by
  have h := ConfigKept.refl s
  cases i with
  | init u =>
    obtain ⟨-, rfl⟩ | ⟨-, rfl⟩ := execInit_cases hx
    · exact h
    · exact h.setUsart rfl
  | txBlock u buf len =>
    obtain ⟨-, rfl⟩ | ⟨-, ⟨-, rfl⟩ | ⟨-, -, rfl⟩ | ⟨-, -, rfl⟩⟩ := execTxBlock_cases hx <;> exact h
  | rxBlock u buf len =>
    obtain ⟨-, rfl⟩ | ⟨-, ⟨-, rfl⟩ | ⟨-, -, rfl⟩ | ⟨-, -, rfl⟩⟩ := execRxBlock_cases hx <;> exact h
  | txAsync u buf len =>
    obtain ⟨-, rfl⟩ | ⟨-, ⟨-, rfl⟩ | ⟨-, -, rfl⟩ | ⟨-, -, -, rfl⟩ | ⟨-, -, -, rfl⟩⟩ := execTxAsync_cases hx
    · exact h
    · exact h
    · exact h
    · exact h
    · have haccepted : ConfigKept s (txAcceptedState s u buf len) := h.setUsart rfl
      exact haccepted.rmwCr1 u _ _
  | rxAsync u buf len =>
    obtain ⟨-, rfl⟩ | ⟨-, ⟨-, rfl⟩ | ⟨-, -, rfl⟩ | ⟨-, -, -, rfl⟩ | ⟨-, -, -, rfl⟩⟩ := execRxAsync_cases hx
    · exact h
    · exact h
    · exact h
    · exact h
    · have haccepted : ConfigKept s (rxAcceptedState s u buf len) := h.setUsart rfl
      exact haccepted.rmwCr1 u _ _
  | setEnabled u en =>
    obtain ⟨-, rfl⟩ | ⟨-, ⟨-, rfl⟩ | ⟨-, rfl⟩⟩ := execSetEnabled_cases hx
    · exact h
    · exact h.rmwCr1 u _ _
    · exact h.rmwCr1 u _ _
  | readFlag u f =>
    obtain ⟨-, rfl⟩ | ⟨-, rfl⟩ := execReadFlag_cases hx
    · exact h
    · exact h.afterReadSR u
  | onIrq u => exact execOnIrq_configKept hx
  | regRead u r =>
    obtain ⟨-, rfl⟩ | ⟨-, ⟨-, rfl⟩ | ⟨-, -, rfl⟩ | ⟨-, d, -, rfl⟩ | ⟨-, -, v, rfl⟩⟩ := execRegRead_cases hx
    · exact h
    · exact h.afterReadSR u
    · exact h
    · exact h.rdrTaken u
    · exact h
  | regWrite u r x =>
    obtain ⟨-, rfl⟩ | ⟨-, ⟨q, rfl⟩ | ⟨-, rfl⟩ | ⟨-, rfl⟩ | ⟨-, -, rfl⟩ | ⟨-, -, rfl⟩ | ⟨-, -, rfl⟩⟩ :=
      execRegWrite_cases hx
    · exact h
    · exact h
    all_goals exact h.setUsart rfl
  | txStep u => exact execTxStep_configKept hx
  | rxStep u => exact execRxStep_configKept hx
  | rmwCommit u =>
    obtain rfl | ⟨latch, set, clr, -, rfl⟩ := execRmwCommit_cases hx
    · exact h
    · exact h.setUsart (i := { s.usart u with cr1 := rmwValue latch set clr }) rfl
  | blkTxUnit u =>
    obtain rfl | ⟨c, r, -, -, -, ⟨f, rfl⟩ | ⟨v, n, -, rfl⟩⟩ := execBlkTxUnit_cases hx
    · exact h
    · exact h.afterReadSR u
    · exact (h.afterReadSR u).writeDR u v
  | blkTxFinish u =>
    obtain rfl | ⟨-, -, rfl⟩ := execBlkTxFinish_cases hx
    · exact h
    · exact h.afterReadSR u
  | blkRxUnit u =>
    obtain rfl | ⟨c, r, -, -, -, ⟨f, rfl⟩ | ⟨f, rfl⟩ | ⟨v, n, -, rfl⟩⟩ := execBlkRxUnit_cases hx
    · exact h
    · exact h.afterReadSR u
    · exact (h.afterReadSR u).rdrTaken u
    · exact ((h.afterReadSR u).rdrTaken u).written c n v
  | evTxLoad u =>
    obtain rfl | ⟨-, rfl⟩ := execEvTxLoad_cases hx
    · exact h
    · exact h.setUsart rfl
  | evTxDone u =>
    obtain rfl | ⟨v, -, ⟨-, -, rfl⟩ | rfl⟩ := execEvTxDone_cases hx
    · exact h
    · exact h.setUsart (Inst.cfg_receive _ v)
    · exact h.setUsart rfl
  | evRxFrame u v =>
    obtain rfl | ⟨-, rfl⟩ := execEvRxFrame_cases hx
    · exact h
    · exact h.setUsart (Inst.cfg_receive _ v)

/-- Settles O54: a turn either runs an operation, which writes no record, or only marks, waits or writes a byte. -/
theorem configurationNeverChanges : Obligations.ConfigurationNeverChanges := by
  unfold Obligations.ConfigurationNeverChanges
  intro s t hs
  obtain ⟨-, ⟨-, rfl⟩ | ⟨tn, rest, -, hturn⟩⟩ := step_next_cases hs
  · exact ConfigKept.refl _
  · have hq : ConfigKept s (s.setSchedule rest) := ConfigKept.refl s
    obtain ⟨r, rfl⟩ | rfl | ⟨a, b, -, -, ⟨f, rfl⟩ | rfl⟩ | ⟨a, f, -, -, rfl⟩ | ⟨ag, ws, i, -, -, -, hx⟩ := hturn
    case inr.inr.inr.inr => exact hq.trans (exec_configKept hx)
    all_goals exact hq

end Sys2Proof.Machine
end
